-- ==== Sys2Proof/Word.lean ====
section
/-! DEFINITION. The widths of the block (`00_scope.md` R4, R7): words, bytes, nibbles, register addresses. -/

namespace Sys2Proof

/-- A word is 32 bits (R4 `WORD_W`, R7). -/
abbrev Word := BitVec 32

/-- A byte is 8 bits (R4 `BYTE_W`, R7). -/
abbrev Byte := BitVec 8

/-- A nibble is 4 bits (R4 `NIB_W`, R7). -/
abbrev Nibble := BitVec 4

/-- A target register address is 7 bits, 0 to 127 (R5 `ADDR_W`, R91). -/
abbrev RegAddr := BitVec 7

end Sys2Proof
end

