-- ==== Sys2Proof/Config.lean ====
section
/-! DEFINITION. What an implementation fixes (`00_scope.md` R4 to R6) and the free values (R8 `draw()`). -/

namespace Sys2Proof

/-- Which end of an IQ Word is nibble slot 0 (R5 `NIBBLE_ORDER`, D7). -/
inductive NibbleOrder where
  | lsnFirst
  | msnFirst
  deriving DecidableEq, Repr

/-- Where `TO_FTW` sends a tie (R5 `ROUND_TIE`, R150, D24). -/
inductive RoundTie where
  | halfEven
  | halfAway
  deriving DecidableEq, Repr

/-- R5 `PIN_MAP`: for each output pin `D[k]`, the bit of the emitted nibble it carries.
The spec lists `IDENTITY` alone; any other wiring is the model's own (log 15, DESIGN CHOICE). -/
structure PinMap where
  pin0 : Fin 4
  pin1 : Fin 4
  pin2 : Fin 4
  pin3 : Fin 4
  deriving DecidableEq, Repr

/-- `PIN_MAP = IDENTITY`: pin `D[k]` carries bit `k` of the nibble (R5, R71). -/
def PinMap.identity : PinMap := ⟨0, 1, 2, 3⟩

/-- The configuration, fixed before reset and written by no step (R72). -/
structure Config where
  nibbleOrder : NibbleOrder
  pinMap      : PinMap
  roundTie    : RoundTie
  /-- Largest payload width of one frame, at least 8 (R6). -/
  widthMax    : Nat
  deriving DecidableEq, Repr

/-- The stated defaults (R5); `WIDTH_MAX` is OPEN with the constraint `WIDTH_MAX >= 8` (R6) and takes
its least value here (log 14, DESIGN CHOICE). -/
def Config.default : Config :=
  { nibbleOrder := .lsnFirst, pinMap := .identity, roundTie := .halfEven, widthMax := 8 }

/-- The one constraint the spec puts on an OPEN parameter (R6, `92_eei_decisions.md` section 2). -/
abbrev Config.wf (c : Config) : Prop := 8 ≤ c.widthMax

/-- `FIFO_DEPTH` (R4). -/
abbrev fifoDepth : Nat := 8

/-- `NIBBLES_PER_WORD` (R4). -/
abbrev nibblesPerWord : Nat := 8

/-- `READ_WIDTH_DEFAULT` (R4, R93). -/
abbrev readWidthDefault : Nat := 8

/-- `QOFFSET`, the offset-binary mid-point (R5, R201). -/
abbrev qOffset : Int := 8

/-- The `n`-th one-bit `draw()` of a run: a level nobody can name (R8, R30, U1, U2; log 9). FREE VALUE. -/
opaque Config.freeBit : Nat → Bool

/-- The `n`-th word drawn at a reset event: unspecified contents of a queue slot or of `OSR` (R22, R35,
U5; log 8). FREE VALUE. -/
opaque Config.freeWord : Nat → Word

end Sys2Proof
end

