-- ==== Sys2Proof/Syntax.lean ====
section
/-! DEFINITION. The operations and steps of the block (`30_encoding.md` R100, R101, R91), and the record that
carries one of them with its operands. -/

namespace Sys2Proof

/-- The three code spaces of the operation table (R90): `HOSTOP4` selects a host operation, `ST2` a CONSUMER
step, `CMD8` is the command byte of a frame. They overlap as numbers; which one is meant is never in the bits. -/
inductive Format where
  | hostop4
  | st2
  | cmd8
  deriving DecidableEq, Repr

/-- One constructor per row of the operation table. Operands are mathematical integers and rationals: a value
outside its stated range is an operand too, and is refused (R103, R225 to R227). -/
inductive Instr where
  /-- R120 -/
  | isBusIdle
  /-- R122 -/
  | serialWrite (b : Int)
  /-- R126 -/
  | serialRead
  /-- R130 -/
  | writeReg (addr : Int) (payload : List Int)
  /-- R133 -/
  | readReg (addr width : Int)
  /-- R150 -/
  | toFtw (freq sysclk : Rat)
  /-- R153 -/
  | ftwBytes (ftw : Int)
  /-- R160 -/
  | push (w : Int)
  /-- R162 -/
  | activate
  /-- R164 -/
  | deactivate
  /-- R180 -/
  | readStatus (n : Int)
  /-- R182 -/
  | clearUnderrun
  /-- R184 -/
  | resetStreamer
  /-- R200 -/
  | qclip (v : Int)
  /-- R202 -/
  | pack (i q : Int)
  /-- R204 -/
  | assembleWord (bytes : List Int)
  /-- R166 -/
  | cWaitILow
  /-- R167 -/
  | cShiftI
  /-- R168 -/
  | cWaitQHigh
  /-- R169 -/
  | cShiftQ
  /-- R91, R92: the command byte of a WRITE frame. -/
  | cmdWrite (addr : RegAddr)
  /-- R91, R93: the command byte of a READ frame. -/
  | cmdRead (addr : RegAddr)
  deriving DecidableEq, Repr

/-- One encoded operation: the code space, the code (a `HOSTOP4` code in bits 3:0, an `ST2` code in bits 1:0, a
whole `CMD8` byte), and the operand words. The spec gives the codes; it gives operands no binary form (R90),
so the operand words are the model's (log 2, DESIGN CHOICE). -/
structure Request where
  format : Format
  code   : Byte
  args   : List Int
  deriving DecidableEq, Repr

end Sys2Proof
end

