-- ==== Sys2Proof/WellFormed.lean ====
section
/-! DEFINITION. Which operations have every operand in its stated range (`30_encoding.md` R103). An operation that
is not well-formed is not an error of the model: the block refuses it (R225 to R227). -/

namespace Sys2Proof

/-- `v` is an integer from `lo` to `hi`. -/
abbrev within (lo hi v : Int) : Bool := decide (lo ≤ v) && decide (v ≤ hi)

/-- A byte operand or payload element: 0 to 255 (R103). -/
abbrev isByte (v : Int) : Bool := within 0 255 v

/-- A register address: 0 to 127 (R91, R103). -/
abbrev isAddr (v : Int) : Bool := within 0 127 v

/-- A 32-bit operand (R160, R153). -/
abbrev isWord (v : Int) : Bool := within 0 (2 ^ 32 - 1) v

/-- A nibble operand: 0 to 15 (R202). -/
abbrev isNibble (v : Int) : Bool := within 0 15 v

/-- The operand ranges of R103, one line per operation. -/
def Instr.wf (cfg : Config) : Instr → Bool
  | .isBusIdle => true
  | .serialWrite b => isByte b
  | .serialRead => true
  | .writeReg addr payload =>
      isAddr addr && within 1 cfg.widthMax payload.length && payload.all isByte
  | .readReg addr width => isAddr addr && within 1 cfg.widthMax width
  | .toFtw _ sysclk => decide (0 < sysclk.num)
  | .ftwBytes ftw => isWord ftw
  | .push w => isWord w
  | .activate => true
  | .deactivate => true
  | .readStatus n => within 0 2 n
  | .clearUnderrun => true
  | .resetStreamer => true
  | .qclip _ => true
  | .pack i q => isNibble i && isNibble q
  | .assembleWord bytes => decide (bytes.length % 4 = 0) && bytes.all isByte
  | .cWaitILow => true
  | .cShiftI => true
  | .cWaitQHigh => true
  | .cShiftQ => true
  | .cmdWrite _ => true
  | .cmdRead _ => true

end Sys2Proof
end

