-- ==== Sys2Proof/Decode.lean ====
section
/-! DEFINITION. The decoder of the operation table (`30_encoding.md` R91, R100, R101), total and rejecting by name,
and after it the encoder. -/

namespace Sys2Proof

/-- Why a request decodes to nothing. -/
inductive DecodeError where
  /-- A `HOSTOP4` code above 15 or an `ST2` code above 3: no such code (R100, R101). -/
  | noSuchCode
  /-- Fewer operand words than the operation has. -/
  | missingOperand
  /-- More operand words than the operation has. -/
  | trailingOperand
  /-- A sequence whose stated length is not the number of words that follow. -/
  | badLength
  /-- A rational that is not in lowest terms, or whose denominator word is negative. -/
  | badFraction
  deriving DecidableEq, Repr

/-- What the decoder answers. -/
inductive Decoded where
  | instr (i : Instr)
  | reject (e : DecodeError)
  deriving DecidableEq, Repr

/-- An operation without operands. -/
def decodeNullary (i : Instr) : List Int → Decoded
  | [] => .instr i
  | _ :: _ => .reject .trailingOperand

/-- An operation with one operand word. -/
def decodeUnary (f : Int → Instr) : List Int → Decoded
  | [] => .reject .missingOperand
  | [a] => .instr (f a)
  | _ :: _ :: _ => .reject .trailingOperand

/-- An operation with two operand words. -/
def decodeBinary (f : Int → Int → Instr) : List Int → Decoded
  | [] => .reject .missingOperand
  | [_] => .reject .missingOperand
  | [a, b] => .instr (f a b)
  | _ :: _ :: _ :: _ => .reject .trailingOperand

/-- A sequence operand: its length, then that many words. -/
def decodeCounted (f : List Int → Instr) : List Int → Decoded
  | [] => .reject .missingOperand
  | n :: xs => if n = xs.length then .instr (f xs) else .reject .badLength

/-- A rational operand as two words: the numerator, and the denominator less one. -/
def decodeFraction (num den : Int) : Option Rat :=
  if 0 ≤ den then
    let q := mkRat num (den.toNat + 1)
    if q.num = num ∧ q.den = den.toNat + 1 then some q else none
  else none

/-- `TO_FTW`: two rationals (R150). -/
def decodeToFtw : List Int → Decoded
  | [fn, fd, sn, sd] =>
      match decodeFraction fn fd, decodeFraction sn sd with
      | some f, some s => .instr (.toFtw f s)
      | _, _ => .reject .badFraction
  | _ :: _ :: _ :: _ :: _ :: _ => .reject .trailingOperand
  | _ => .reject .missingOperand

/-- `WRITE_REG`: the address, then the payload (R130). -/
def decodeWriteReg : List Int → Decoded
  | [] => .reject .missingOperand
  | addr :: rest => decodeCounted (.writeReg addr) rest

/-- `HOSTOP4` (R100): all sixteen codes are used. -/
def decodeHostop4 (code : Nat) (args : List Int) : Decoded :=
  match code with
  | 0x0 => decodeNullary .isBusIdle args
  | 0x1 => decodeUnary .serialWrite args
  | 0x2 => decodeNullary .serialRead args
  | 0x3 => decodeWriteReg args
  | 0x4 => decodeBinary .readReg args
  | 0x5 => decodeToFtw args
  | 0x6 => decodeUnary .ftwBytes args
  | 0x7 => decodeUnary .push args
  | 0x8 => decodeNullary .activate args
  | 0x9 => decodeNullary .deactivate args
  | 0xA => decodeUnary .readStatus args
  | 0xB => decodeNullary .clearUnderrun args
  | 0xC => decodeNullary .resetStreamer args
  | 0xD => decodeUnary .qclip args
  | 0xE => decodeBinary .pack args
  | 0xF => decodeCounted .assembleWord args
  | _ => .reject .noSuchCode

/-- `ST2` (R101). -/
def decodeSt2 (code : Nat) (args : List Int) : Decoded :=
  match code with
  | 0 => decodeNullary .cWaitILow args
  | 1 => decodeNullary .cShiftI args
  | 2 => decodeNullary .cWaitQHigh args
  | 3 => decodeNullary .cShiftQ args
  | _ => .reject .noSuchCode

/-- Bit 7 of a command byte: 0 = WRITE, 1 = READ (R91). -/
def cmdIsRead (code : Byte) : Bool := code.getLsbD 7

/-- Bits 6:0 of a command byte (R91). -/
def cmdAddr (code : Byte) : RegAddr := code.extractLsb' 0 7

/-- `CMD8` (R91): every one of the 256 values is a command byte (R103). -/
def decodeCmd8 (code : Byte) (args : List Int) : Decoded :=
  decodeNullary (if cmdIsRead code then .cmdRead (cmdAddr code) else .cmdWrite (cmdAddr code)) args

/-- The decoder. -/
def decode (r : Request) : Decoded :=
  match r.format with
  | .hostop4 => decodeHostop4 r.code.toNat r.args
  | .st2 => decodeSt2 r.code.toNat r.args
  | .cmd8 => decodeCmd8 r.code r.args

/-! ### The encoder -/

/-- `cmd = (RW << 7) | ADDR` (R91). -/
def cmdByte (read : Bool) (addr : RegAddr) : Byte := (BitVec.ofBool read ++ addr : BitVec (1 + 7))

/-- A rational as two operand words. -/
def encodeFraction (q : Rat) : List Int := [q.num, (q.den : Int) - 1]

/-- A host operation: its `HOSTOP4` code and operand words. -/
def hostRequest (code : Byte) (args : List Int) : Request := ⟨.hostop4, code, args⟩

/-- A CONSUMER step: its `ST2` code. -/
def stepRequest (code : Byte) : Request := ⟨.st2, code, []⟩

/-- The encoder: codes from R100, R101 and R91. -/
def encode : Instr → Request
  | .isBusIdle => hostRequest 0x0 []
  | .serialWrite b => hostRequest 0x1 [b]
  | .serialRead => hostRequest 0x2 []
  | .writeReg addr payload => hostRequest 0x3 (addr :: (payload.length : Int) :: payload)
  | .readReg addr width => hostRequest 0x4 [addr, width]
  | .toFtw freq sysclk => hostRequest 0x5 (encodeFraction freq ++ encodeFraction sysclk)
  | .ftwBytes ftw => hostRequest 0x6 [ftw]
  | .push w => hostRequest 0x7 [w]
  | .activate => hostRequest 0x8 []
  | .deactivate => hostRequest 0x9 []
  | .readStatus n => hostRequest 0xA [n]
  | .clearUnderrun => hostRequest 0xB []
  | .resetStreamer => hostRequest 0xC []
  | .qclip v => hostRequest 0xD [v]
  | .pack i q => hostRequest 0xE [i, q]
  | .assembleWord bytes => hostRequest 0xF ((bytes.length : Int) :: bytes)
  | .cWaitILow => stepRequest 0
  | .cShiftI => stepRequest 1
  | .cWaitQHigh => stepRequest 2
  | .cShiftQ => stepRequest 3
  | .cmdWrite addr => ⟨.cmd8, cmdByte false addr, []⟩
  | .cmdRead addr => ⟨.cmd8, cmdByte true addr, []⟩

/-- The bits a code space fixes in a row's code: 4 of `HOSTOP4`, 2 of `ST2`, bit 7 of `CMD8` (the table's masks). -/
def tableMask : Format → Byte
  | .hostop4 => 0x0F
  | .st2 => 0x03
  | .cmd8 => 0x80

/-- A row's code under its mask (the table's match). -/
def tableMatch : Instr → Byte
  | .isBusIdle => 0x00
  | .serialWrite _ => 0x01
  | .serialRead => 0x02
  | .writeReg _ _ => 0x03
  | .readReg _ _ => 0x04
  | .toFtw _ _ => 0x05
  | .ftwBytes _ => 0x06
  | .push _ => 0x07
  | .activate => 0x08
  | .deactivate => 0x09
  | .readStatus _ => 0x0A
  | .clearUnderrun => 0x0B
  | .resetStreamer => 0x0C
  | .qclip _ => 0x0D
  | .pack _ _ => 0x0E
  | .assembleWord _ => 0x0F
  | .cWaitILow => 0x00
  | .cShiftI => 0x01
  | .cWaitQHigh => 0x02
  | .cShiftQ => 0x03
  | .cmdWrite _ => 0x00
  | .cmdRead _ => 0x80

/-! ### The host's question: a table word alone -/

/-- How many operand words of zeros stand behind a bare `HOSTOP4` code. -/
def zeroOperands (code : Nat) : List Int :=
  match code with
  | 0x1 => [0]
  | 0x3 => [0, 0]
  | 0x4 => [0, 0]
  | 0x5 => [0, 0, 0, 0]
  | 0x6 => [0]
  | 0x7 => [0]
  | 0xA => [0]
  | 0xD => [0]
  | 0xE => [0, 0]
  | 0xF => [0]
  | _ => []

/-- Which code space a bare table word is read in. The three overlap: two bits are an `ST2` code, four a `HOSTOP4`
code; in a whole byte, 0 to 15 is a `HOSTOP4` code and the rest a `CMD8` byte (log 3, DESIGN CHOICE). -/
def tableFormat (nbits w : Nat) : Format :=
  if nbits ≤ 2 then .st2
  else if nbits ≤ 4 then .hostop4
  else if w < 16 then .hostop4
  else .cmd8

/-- The request a bare table word stands for, its operand words all zero. -/
def tableRequest (nbits w : Nat) : Request :=
  match tableFormat nbits w with
  | .hostop4 => ⟨.hostop4, BitVec.ofNat 8 w, zeroOperands w⟩
  | .st2 => ⟨.st2, BitVec.ofNat 8 w, []⟩
  | .cmd8 => ⟨.cmd8, BitVec.ofNat 8 w, []⟩

/-- The instruction the decoder reads from a table word; none where it refuses, and for a number wider than any
code of the table. -/
def decodeTableWord (nbits w : Nat) : Option Instr :=
  if w < 256 then
    match decode (tableRequest nbits w) with
    | .instr i => some i
    | .reject _ => none
  else none

end Sys2Proof
end

