-- ==== Sys2Proof/Machine/State.lean ====
section
/-! DEFINITION. The state of the block (`10_state.md`), of its environment and of HOST, as plain data, and the state
after reset (`70_reset_and_hazards.md` R251 to R253). -/

namespace Sys2Proof.Machine

/-- The direction of the data pin (R32). -/
inductive Dir where
  | input
  | output
  deriving DecidableEq, Repr

/-- The pull of the data pin as an input (R32: two values only). -/
inductive Pull where
  | down
  | up
  deriving DecidableEq, Repr

/-- What TARGET does to the data line (R13, R30): `Z`, or a strong 0 or 1. -/
inductive Ext where
  | z
  | drive (v : Bool)
  deriving DecidableEq, Repr

/-- The four states of the streamer (R23, codes of R101). -/
inductive StreamState where
  | waitILow
  | shiftI
  | waitQHigh
  | shiftQ
  deriving DecidableEq, Repr

/-- The pin events of the SRI (R9). -/
inductive PinEvent where
  /-- `SCLK <- v` -/
  | sclk (v : Bool)
  /-- `SDIO_cfg(OUT, v)` -/
  | cfgOut (v : Bool)
  /-- `SDIO_cfg(IN, pull)` -/
  | cfgIn (pull : Pull)
  /-- `SDIO_cfg(IN, KEEP)` -/
  | cfgInKeep
  /-- `SDIO_OUT <- v` on a pin that is an output -/
  | drive (v : Bool)
  /-- `sample()` -/
  | sample
  deriving DecidableEq, Repr

/-- One pin event as an observer of the line sees it: the event, and the level of the data line right after it (of
a `sample`, the level it returned). -/
structure PinRecord where
  event : PinEvent
  line  : Bool
  deriving DecidableEq, Repr

/-- Which SHIFT step emitted a nibble (R40 (b)): `i` for `SHIFT_I`, `q` for `SHIFT_Q`. -/
inductive Lane where
  | i
  | q
  deriving DecidableEq, Repr

/-- What writes to `D`: a successful SHIFT step, RESET_STREAMER, the reset event (R33, R184, R250). -/
inductive DWriter where
  | shift (lane : Lane)
  | restart
  | reset
  deriving DecidableEq, Repr

/-- One value written to `D`, and by what (R238). -/
structure DWrite where
  writer : DWriter
  value  : Nibble
  deriving DecidableEq, Repr

/-- The values of `OK(value)` (R10, the results of R100). -/
inductive Value where
  | unit
  | bool (v : Bool)
  | byte (v : Byte)
  | bytes (v : List Byte)
  | word (v : Word)
  | words (v : List Word)
  | clip (n : Nibble) (clipped : Bool)
  deriving DecidableEq, Repr

/-- The refusals of R220: codes 3, 4 and 5. They are results of an operation, not stops of the machine. -/
inductive RefuseCode where
  | sriFaulted
  | addrRange
  | operandRange
  deriving DecidableEq, Repr

/-- The code numbers of R220. -/
def RefuseCode.number : RefuseCode → Nat
  | .sriFaulted => 3
  | .addrRange => 4
  | .operandRange => 5

/-- What a host operation returns (R10). `busNotIdle cause done` is `FAULT(1, (cause, done))`, the only fault there
is (R220). -/
inductive Result where
  | ok (v : Value)
  | busNotIdle (cause : BitVec 2) (done : Nat)
  | refused (c : RefuseCode)
  deriving DecidableEq, Repr

/-- A completed WRITE frame's effect on the target, `MemWrite(addr, n, v)` (R8). -/
structure MemWrite where
  addr    : RegAddr
  payload : List Byte
  deriving DecidableEq, Repr

/-- A move of an agent other than HOST (R12, R165, R240, R250). -/
inductive Move where
  /-- CONSUMER takes a step, if it has one. -/
  | consumer
  /-- TARGET changes its drive of the data line. -/
  | ext (e : Ext)
  /-- PCLK_SOURCE sets PCLK. -/
  | pclk (v : Bool)
  /-- The reset event. -/
  | reset
  deriving DecidableEq, Repr

/-- Whose turn it is, between two steps of the machine. -/
inductive Turn where
  | host
  | move (m : Move)
  deriving DecidableEq, Repr

/-- The serial register interface (R20, R24, R28, R31, R32). -/
structure Sri where
  sclk          : Bool
  sdioDir       : Dir
  sdioOut       : Bool
  sdioPull      : Pull
  sr            : Byte
  /-- 0 to 8 (R24). -/
  bitcnt        : Nat
  busFault      : Bool
  busFaultCause : BitVec 2
  deriving DecidableEq, Repr

/-- The I/Q nibble streamer (R20 to R27, R33, R35, R36, R38). -/
structure Iqs where
  fifo          : Vector Word 8
  wr            : Fin 8
  rd            : Fin 8
  /-- 0 to 8 (R36). -/
  level         : Nat
  osr           : Word
  /-- 0 to 8 (R21). -/
  osrCnt        : Nat
  state         : StreamState
  active        : Bool
  d             : Nibble
  underrun      : Bool
  starved       : Bool
  underrunCount : Word
  deriving DecidableEq, Repr

/-- The environment (R13, R34, R39): the level the line retains, the present drive and the present parallel clock,
and the number of draws made so far (the model's own counter, log 9). -/
structure Env where
  keep  : Bool
  ext   : Ext
  pclk  : Bool
  draws : Nat
  deriving DecidableEq, Repr

/-- HOST (R10, R12, R161): what it will issue, the word of a held PUSH, whether an SRI operation is in progress, and
what its operations have returned, oldest first. -/
structure HostSide where
  program : List Request
  held    : Option Word
  busy    : Bool
  results : List Result
  deriving DecidableEq, Repr

/-- The schedule (R13, log 11): the turns between HOST operations, and, for the pin events of SRI operations, the
moves other agents make just before the next event, the one after it, and so on (R9). -/
structure Sched where
  turns : List Turn
  gaps  : List (List Move)
  deriving DecidableEq, Repr

/-- What happened, oldest first (R238, log 18). The model's own record: no meaning reads it. -/
structure Hist where
  pins      : List PinRecord
  memWrites : List MemWrite
  /-- The words pushed since the last reset of the streamer (R174). -/
  pushed    : List Word
  /-- The values a SHIFT step wrote to `D` since then (R174). -/
  emitted   : List (Lane × Nibble)
  /-- Every value written to `D`, by whatever wrote it; never erased (R238). -/
  dWrites   : List DWrite
  deriving DecidableEq, Repr

/-- The whole state. -/
structure State where
  cfg   : Config
  sri   : Sri
  iqs   : Iqs
  env   : Env
  host  : HostSide
  sched : Sched
  hist  : Hist
  deriving DecidableEq, Repr

/-- No event of this block stops the machine: BusNotIdle ends one operation and is returned to HOST, Underrun is a
status event, everything else is a refusal or a hold (R220, R231, R242). So there is no fault: nobody raises one. -/
inductive Fault where
  deriving DecidableEq, Repr

/-- Why a step has no meaning. -/
inductive Refusal where
  /-- Raised by an arm of `exec` whose instruction has no meaning yet; no arm does. Safe. -/
  | notModelled (mnemonic : String)
  /-- Raised by `step` when HOST's next request decodes to no operation (log 2). Safe: HOST issues only the
  operations of R100. -/
  | undecodable (e : DecodeError)
  /-- Raised by `step` when HOST's next request is in the code space of the CONSUMER's steps, which HOST does not
  select (R101). Safe. -/
  | notAHostRequest
  deriving DecidableEq, Repr

/-- R252; `SDIO_PULL` is unspecified there and DOWN here (log 5, DESIGN CHOICE). -/
def Sri.reset : Sri :=
  { sclk := false, sdioDir := .input, sdioOut := false, sdioPull := .down, sr := 0, bitcnt := 0,
    busFault := false, busFaultCause := 0 }

/-- R251; the queue slots and `OSR` are unspecified there and 0 here (log 6, DESIGN CHOICE). -/
def Iqs.reset : Iqs :=
  { fifo := Vector.replicate 8 0, wr := 0, rd := 0, level := 0, osr := 0, osrCnt := 0, state := .waitILow,
    active := false, d := 0, underrun := false, starved := false, underrunCount := 0 }

/-- R253 leaves all of it to the environment: an undriven line that was last low, PCLK low (log 7, DESIGN CHOICE). -/
def Env.reset : Env := { keep := false, ext := .z, pclk := false, draws := 0 }

/-- HOST has issued nothing and has nothing to issue (R250). -/
def HostSide.reset : HostSide := { program := [], held := none, busy := false, results := [] }

/-- The machine right after reset (R250 to R254), in the default configuration. -/
def State.reset : State :=
  { cfg := .default, sri := .reset, iqs := .reset, env := .reset, host := .reset,
    sched := { turns := [], gaps := [] },
    hist := { pins := [], memWrites := [], pushed := [], emitted := [], dWrites := [] } }

end Sys2Proof.Machine
end

