-- ==== Sys2Proof/Machine/Operands.lean ====
section
/-! DEFINITION. Operand ranges and the pure data formats: nibbles of an IQ Word, packed samples, word assembly, the
bytes of a tuning word (`30_encoding.md` R95 to R98, R102, R103; `20_memory.md` R64 to R71). -/

namespace Sys2Proof.Machine

/-- `lo <= v <= hi`. -/
def inRange (lo hi v : Int) : Bool := decide (lo ≤ v) && decide (v ≤ hi)

/-- 0 to 255 (R103, R226). -/
def byteOk (v : Int) : Bool := inRange 0 255 v

/-- 0 to 127 (R103, R225). -/
def addrOk (v : Int) : Bool := inRange 0 127 v

/-- 0 to `2^32 - 1` (R160, R153, R226, R227). -/
def wordOk (v : Int) : Bool := inRange 0 4294967295 v

/-- 0 to 15 (R202, R227). -/
def nibbleOk (v : Int) : Bool := inRange 0 15 v

/-- A status register number, 0 to 2 (R44, R180). -/
def statusOk (v : Int) : Bool := inRange 0 2 v

/-- A frame width, 1 to `WIDTH_MAX` (R226). -/
def widthOk (cfg : Config) (n : Int) : Bool := inRange 1 cfg.widthMax n

/-- A WRITE_REG payload: its length a frame width, every element a byte (R130, R226). -/
def payloadOk (cfg : Config) (payload : List Int) : Bool :=
  widthOk cfg payload.length && payload.all byteOk

/-- An ASSEMBLE_WORD operand: a multiple of 4 bytes (R204, R227). -/
def packedOk (bytes : List Int) : Bool := decide (bytes.length % 4 = 0) && bytes.all byteOk

/-- The byte an in-range operand names. -/
def toByte (v : Int) : Byte := BitVec.ofInt 8 v

/-- The word an in-range operand names. -/
def toWord (v : Int) : Word := BitVec.ofInt 32 v

/-- The nibble an in-range operand names. -/
def toNibble (v : Int) : Nibble := BitVec.ofInt 4 v

/-- The address an in-range operand names. -/
def toAddr (v : Int) : RegAddr := BitVec.ofInt 7 v

/-- `0x00 + addr` (R91, R130). -/
def writeCmd (addr : RegAddr) : Byte := 0x00 + addr.setWidth 8

/-- `0x80 + addr` (R91, R133). -/
def readCmd (addr : RegAddr) : Byte := 0x80 + addr.setWidth 8

/-- Slot `k` of an IQ Word: bits `[4k+3:4k]`, or under `MSN_FIRST` bits `[31-4k:28-4k]` (R68, R95). -/
def slot (o : NibbleOrder) (w : Word) (k : Nat) : Nibble :=
  match o with
  | .lsnFirst => w.extractLsb' (4 * k) 4
  | .msnFirst => w.extractLsb' (28 - 4 * k) 4

/-- The eight slots in order of emission (R68). -/
def slots (o : NibbleOrder) (w : Word) : List Nibble := (List.range 8).map (slot o w)

/-- `NextNibble` (R171). -/
def nextNibble (o : NibbleOrder) (osr : Word) : Nibble :=
  match o with
  | .lsnFirst => osr.extractLsb' 0 4
  | .msnFirst => osr.extractLsb' 28 4

/-- `Advance` (R171): zeros enter. -/
def advance (o : NibbleOrder) (osr : Word) : Word :=
  match o with
  | .lsnFirst => osr >>> 4
  | .msnFirst => osr <<< 4

/-- `PinMap` (R171): pin `k` takes the bit the map names for it. -/
def pinMapped (m : PinMap) (n : Nibble) : Nibble :=
  (BitVec.ofBool (n.getLsbD m.pin3) ++ BitVec.ofBool (n.getLsbD m.pin2) ++
    BitVec.ofBool (n.getLsbD m.pin1) ++ BitVec.ofBool (n.getLsbD m.pin0) : BitVec (1 + 1 + 1 + 1))

/-- The idle word (R96). -/
def idleWord (o : NibbleOrder) : Word :=
  match o with
  | .lsnFirst => 0x08080808
  | .msnFirst => 0x80808080

/-- `PK8`: `I | Q << 4` (R69, R97, R202). -/
def packByte (i q : Nibble) : Byte := i.setWidth 8 ||| (q.setWidth 8 <<< 4)

/-- `UNPACK(b) = (b[3:0], b[7:4])` (R203). -/
def unpackByte (b : Byte) : Nibble × Nibble := (b.extractLsb' 0 4, b.extractLsb' 4 4)

/-- `swap(b) = {b[3:0], b[7:4]}` (R70). -/
def swapNibbles (b : Byte) : Byte := (b.extractLsb' 0 4 ++ b.extractLsb' 4 4 : BitVec (4 + 4))

/-- One IQ Word from four packed bytes, the earliest first (R70, R204). -/
def assembleOne (o : NibbleOrder) (b0 b1 b2 b3 : Byte) : Word :=
  match o with
  | .lsnFirst => (b3 ++ b2 ++ b1 ++ b0 : BitVec (8 + 8 + 8 + 8))
  | .msnFirst =>
      (swapNibbles b0 ++ swapNibbles b1 ++ swapNibbles b2 ++ swapNibbles b3 : BitVec (8 + 8 + 8 + 8))

/-- Whole words from packed bytes, four at a time (R204). -/
def assemble (o : NibbleOrder) : List Byte → List Word
  | b0 :: b1 :: b2 :: b3 :: rest => assembleOne o b0 b1 b2 b3 :: assemble o rest
  | _ => []

/-- `FTW4`: the four bytes of a tuning word, most significant first (R67, R98). -/
def ftwToBytes (w : Word) : List Byte :=
  [w.extractLsb' 24 8, w.extractLsb' 16 8, w.extractLsb' 8 8, w.extractLsb' 0 8]

/-- `min(max(v, 0), 15)` (R200 step 1). -/
def clipValue (v : Int) : Int := min (max v 0) 15

/-- `(v < 0) or (v > 15)` (R200 step 2). -/
def isClipped (v : Int) : Bool := decide (v < 0) || decide (15 < v)

/-- The nearest integer to `p / q` for `q > 0`, a tie by `ROUND_TIE` (R150 step 2). -/
def roundQuotient (tie : RoundTie) (p q : Int) : Int :=
  let n := p / q
  let r := p % q
  if 2 * r < q then n
  else if q < 2 * r then n + 1
  else
    match tie with
    | .halfEven => if n % 2 = 0 then n else n + 1
    | .halfAway => if 0 ≤ p then n + 1 else n

/-- The tuning word for `sysclk > 0`: `freq * 2^32 / sysclk` exactly, rounded, reduced modulo `2^32` (R150). -/
def ftwValue (tie : RoundTie) (freq sysclk : Rat) : Word :=
  BitVec.ofInt 32 (roundQuotient tie (freq.num * 4294967296 * sysclk.den) (freq.den * sysclk.num))

end Sys2Proof.Machine
end

