-- ==== Sys2Proof/Machine/Flags.lean ====
section
/-! DEFINITION. Derived flags, the underrun record and the status registers (`10_state.md` R26 to R29, R41 to R43). -/

namespace Sys2Proof.Machine

/-- `FIFO_EMPTY = (LEVEL = 0)` (R29). -/
def Iqs.fifoEmpty (q : Iqs) : Bool := decide (q.level = 0)

/-- `FIFO_FULL = (LEVEL = 8)` (R29). -/
def Iqs.fifoFull (q : Iqs) : Bool := decide (q.level = 8)

/-- `min(UNDERRUN_COUNT + 1, 0xFFFFFFFF)` (R27, R170). -/
def saturatingSucc (c : Word) : Word := if c = 0xFFFFFFFF then c else c + 1

/-- The starved branch of `Shift()`: the first step of a starvation records an underrun, the others change nothing
(R170 step 1, R172). -/
def Iqs.starve (q : Iqs) : Iqs :=
  if q.starved then q
  else { q with starved := true, underrun := true, underrunCount := saturatingSucc q.underrunCount }

/-- The `ST2` code of a state (R23, R101). -/
def StreamState.code : StreamState → BitVec 2
  | .waitILow => 0
  | .shiftI => 1
  | .waitQHigh => 2
  | .shiftQ => 3

/-- SDIO_DIR in SRI_STATUS: 0 IN, 1 OUT (R43). -/
def Dir.bit : Dir → Bool
  | .input => false
  | .output => true

/-- SDIO_PULL in SRI_STATUS: 0 DOWN, 1 UP (R43). -/
def Pull.bit : Pull → Bool
  | .down => false
  | .up => true

/-- Status register 0, `IQS_STATUS` (R41), most significant field first. -/
def iqsStatus (q : Iqs) : Word :=
  (0#13 ++ q.d ++ BitVec.ofNat 4 q.osrCnt ++ q.state.code ++ BitVec.ofNat 4 q.level ++
    BitVec.ofBool q.fifoFull ++ BitVec.ofBool q.fifoEmpty ++ BitVec.ofBool q.starved ++
    BitVec.ofBool q.underrun ++ BitVec.ofBool q.active :
    BitVec (13 + 4 + 4 + 2 + 4 + 1 + 1 + 1 + 1 + 1))

/-- Status register 2, `SRI_STATUS` (R43), most significant field first. -/
def sriStatus (r : Sri) : Word :=
  (0#17 ++ r.sr ++ r.busFaultCause ++ BitVec.ofBool r.busFault ++ BitVec.ofBool r.sdioPull.bit ++
    BitVec.ofBool r.sdioOut ++ BitVec.ofBool r.sdioDir.bit ++ BitVec.ofBool r.sclk :
    BitVec (17 + 8 + 2 + 1 + 1 + 1 + 1 + 1))

/-- The value of status register `n`, 0 to 2 (R41 to R43). -/
def statusRegister (n : Int) (q : Iqs) (r : Sri) : Word :=
  if n = 0 then iqsStatus q
  else if n = 1 then q.underrunCount
  else sriStatus r

end Sys2Proof.Machine
end

