-- ==== Sys2Proof/Machine/Ops.lean ====
section
/-! DEFINITION. The named operations over the state: results, the data line and its pin events, the queue and the
streamer's steps, taking BusNotIdle and the reset event that alone clears it, the moves of the other agents. -/

namespace Sys2Proof.Machine

/-! ### Results (`00_scope.md` R10) -/

/-- An operation that takes one atomic step returns `OK(v)` (R10). -/
def returnOk (v : Value) (s : State) : State :=
  { s with host.results := s.host.results ++ [.ok v] }

/-- `refuse <Name>`: `REFUSED(code)`, no state and no pin changed (R8). -/
def refuse (c : RefuseCode) (s : State) : State :=
  { s with host.results := s.host.results ++ [.refused c] }

/-! ### The data line (`10_state.md` R30) -/

/-- `LINE`, R30's table; `none` where the level is a `draw()`: contention, and the weak pull-down on a line that was
last high. -/
def lineLevel (r : Sri) (v : Env) : Option Bool :=
  match v.ext, r.sdioDir with
  | .drive l, .input => some l
  | .drive l, .output => if l = r.sdioOut then some l else none
  | .z, .output => some r.sdioOut
  | .z, .input =>
    match r.sdioPull with
    | .up => some true
    | .down => if v.keep then none else some false

/-- The level of the line at this moment; a `draw()` takes the next free bit (R8, R30, log 9). -/
def resolveLine (r : Sri) (v : Env) : Bool × Env :=
  match lineLevel r v with
  | some l => (l, v)
  | none => (Config.freeBit v.draws, { v with draws := v.draws + 1 })

/-- `KEEP <- LINE` (R30). -/
def retainLine (r : Sri) (v : Env) : Env :=
  { (resolveLine r v).2 with keep := (resolveLine r v).1 }

/-- What a pin event does to the pins (R9). -/
def applyPin (e : PinEvent) (r : Sri) : Sri :=
  match e with
  | .sclk v => { r with sclk := v }
  | .cfgOut v => { r with sdioDir := .output, sdioOut := v }
  | .cfgIn p => { r with sdioDir := .input, sdioPull := p }
  | .cfgInKeep => { r with sdioDir := .input }
  | .drive v => { r with sdioOut := v }
  | .sample => r

/-! ### The queue (`10_state.md` R35, R36) -/

/-- PUSH's one atomic step: the word at the tail (R160 step 2). -/
def enqueue (w : Word) (s : State) : State :=
  { s with
    iqs.fifo := s.iqs.fifo.set s.iqs.wr w
    iqs.wr := s.iqs.wr + 1
    iqs.level := s.iqs.level + 1
    hist.pushed := s.hist.pushed ++ [w] }

/-- The automatic dequeue: the head word into `OSR`, its slot free at once (R170 step 1, R37). -/
def dequeue (q : Iqs) : Iqs :=
  { q with osr := q.fifo[q.rd], rd := q.rd + 1, level := q.level - 1, osrCnt := 8 }

/-! ### The streamer's steps (`42_streamer.md` R165 to R171) -/

/-- Steps 2 to 4 of `Shift()`: one nibble to the pins (R170). -/
def emitNibble (c : Config) (q : Iqs) : Iqs :=
  { q with
    starved := false
    d := pinMapped c.pinMap (nextNibble c.nibbleOrder q.osr)
    osr := advance c.nibbleOrder q.osr
    osrCnt := q.osrCnt - 1 }

/-- `Shift()` when a nibble is to be had: the dequeue if one is needed, then the emission; `none` when starved
(R170). -/
def shifted (c : Config) (q : Iqs) : Option Iqs :=
  if q.osrCnt = 0 then
    if q.level = 0 then none else some (emitNibble c (dequeue q))
  else some (emitNibble c q)

/-- A SHIFT step: on success the nibble is out and the state moves on, otherwise the machine stalls (R167, R169,
R170). -/
def shiftStep (lane : Lane) (next : StreamState) (s : State) : State :=
  match shifted s.cfg s.iqs with
  | some q =>
      { s with
        iqs := { q with state := next }
        hist.emitted := s.hist.emitted ++ [(lane, q.d)]
        hist.dWrites := s.hist.dWrites ++ [⟨.shift lane, q.d⟩] }
  | none => { s with iqs := s.iqs.starve }

/-- A WAIT step: the state moves on when PCLK is at the awaited level (R166, R168). -/
def waitStep (level : Bool) (next : StreamState) (s : State) : State :=
  if s.env.pclk = level then { s with iqs.state := next } else s

/-- C_WAIT_I_LOW (R166). -/
def stepWaitILow (s : State) : State := waitStep false .shiftI s

/-- C_SHIFT_I (R167). -/
def stepShiftI (s : State) : State := shiftStep .i .waitQHigh s

/-- C_WAIT_Q_HIGH (R168). -/
def stepWaitQHigh (s : State) : State := waitStep true .shiftQ s

/-- C_SHIFT_Q (R169). -/
def stepShiftQ (s : State) : State := shiftStep .q .waitILow s

/-- A CONSUMER step of the named state, when it is the one selected: ACTIVE = 1 and STATE is that state; otherwise
CONSUMER has no such step (R25, R101, R165; log 17). -/
def whenSelected (st : StreamState) (f : State → State) (s : State) : State :=
  if s.iqs.active = true ∧ s.iqs.state = st then f s else s

/-- CONSUMER's turn: the step of the current STATE (R165). -/
def consumerStep (s : State) : State :=
  match s.iqs.state with
  | .waitILow => whenSelected .waitILow stepWaitILow s
  | .shiftI => whenSelected .shiftI stepShiftI s
  | .waitQHigh => whenSelected .waitQHigh stepWaitQHigh s
  | .shiftQ => whenSelected .shiftQ stepShiftQ s

/-! ### BusNotIdle and the reset event (`60_exceptions.md` R231, R232; `70_reset_and_hazards.md` R250) -/

/-- `raise BusNotIdle(cause, done)`: the two fault fields, no further pin event, `FAULT(1, (cause, done))` to HOST
(R124, R221, R231). The operation is over: HOST is no longer inside it. -/
def takeBusNotIdle (cause : BitVec 2) (done : Nat) (s : State) : State :=
  { s with
    sri.busFault := true
    sri.busFaultCause := cause
    host.busy := false
    host.results := s.host.results ++ [.busNotIdle cause done] }

/-- The streamer as RESET_STREAMER leaves it: `OSR` and the slots are not written (R184). -/
def Iqs.restarted (q : Iqs) : Iqs :=
  { q with
    active := false, state := .waitILow, osrCnt := 0, wr := 0, rd := 0, level := 0, d := 0,
    underrun := false, starved := false, underrunCount := 0 }

/-- The streamer's record after `D` is cleared: the record of R174 begins anew, the write itself stays on record
(R238). -/
def restartRecord (k : DWriter) (h : Hist) : Hist :=
  { h with pushed := [], emitted := [], dWrites := h.dWrites ++ [⟨k, 0⟩] }

/-- RESET_STREAMER's one atomic step (R184). -/
def restartStreamer (s : State) : State :=
  { s with iqs := s.iqs.restarted, hist := restartRecord .restart s.hist }

/-- The reset event, the only thing that clears BUS_FAULT (R232, R250 to R253). It takes effect whatever the block
was doing: an SRI operation in progress is abandoned, a held PUSH is dropped. What the spec leaves unspecified is
drawn (U5, log 8). The environment's EXT and PCLK are its own. -/
def resetEvent (s : State) : State :=
  { s with
    sri := { Sri.reset with sdioPull := if Config.freeBit s.env.draws then .up else .down }
    iqs := { Iqs.reset with
      osr := Config.freeWord s.env.draws
      fifo := Vector.ofFn fun k : Fin 8 => Config.freeWord (s.env.draws + 1 + k) }
    env.keep := Config.freeBit (s.env.draws + 1)
    env.draws := s.env.draws + 9
    host.held := none
    host.busy := false
    hist := restartRecord .reset s.hist }

/-! ### Other agents' moves, and HOST's pin events (`00_scope.md` R9, R13) -/

/-- A move of an agent other than HOST. A change of `EXT` is followed by `KEEP <- LINE` (R30). -/
def runMove (s : State) (m : Move) : State :=
  match m with
  | .consumer => consumerStep s
  | .ext e => { s with env := retainLine s.sri { s.env with ext := e } }
  | .pclk v => { s with env.pclk := v }
  | .reset => resetEvent s

/-- The moves scheduled before HOST's next pin event (R9, log 11). -/
def runGap (s : State) : State :=
  match s.sched.gaps with
  | [] => s
  | g :: gs => g.foldl runMove { s with sched.gaps := gs }

/-- A part of an SRI operation that is not a pin event; it happens only while the operation is in progress. -/
def whileBusy (f : State → State) (s : State) : State :=
  if s.host.busy then f s else s

/-- The event itself: the pins, then `KEEP <- LINE` (R30), and the record of both. -/
def pinAct (e : PinEvent) (s : State) : State :=
  let r := applyPin e s.sri
  let v := retainLine r s.env
  { s with sri := r, env := v, hist.pins := s.hist.pins ++ [⟨e, v.keep⟩] }

/-- One pin event of the operation in progress, after the moves other agents make before it. Nothing happens if the
operation is over: it faulted, or a reset event abandoned it (R8, R9, R250). -/
def pinEvent (e : PinEvent) (s : State) : State :=
  whileBusy (fun s => whileBusy (pinAct e) (runGap s)) s

/-- The sample itself: the level of the line, then `KEEP <- LINE`, each `draw()` separate (R9, R30, U2, log 9). -/
def sampleAct (s : State) : Bool × State :=
  let (b, v) := resolveLine s.sri s.env
  (b, { s with env := retainLine s.sri v, hist.pins := s.hist.pins ++ [⟨.sample, b⟩] })

/-- `sample()` of the operation in progress (R9). -/
def sampleLine (s : State) : Bool × State :=
  if s.host.busy then
    let s := runGap s
    if s.host.busy then sampleAct s else (false, s)
  else (false, s)

/-! ### SRI operations (`40_control_bus.md`) -/

/-- Issue an SRI operation: refused while BUS_FAULT = 1, then by its own operand check, before any pin event;
otherwise HOST is inside it (R224, R230). -/
def issueSri (check : Option RefuseCode) (body : State → State) (s : State) : State :=
  if s.sri.busFault then refuse .sriFaulted s
  else
    match check with
    | some c => refuse c s
    | none => body { s with host.busy := true }

/-- `return OK(v)` of the SRI operation in progress (R10). -/
def finishSri (v : Value) (s : State) : State :=
  whileBusy (fun s => { s with host.busy := false, host.results := s.host.results ++ [.ok v] }) s

/-- `Probe()` (R121): the cause, 0 if the line is idle. -/
def probe (s : State) : BitVec 2 × State :=
  let s := pinEvent (.cfgIn .up) s
  let (a, s) := sampleLine s
  if a = false then (1, s)
  else
    let s := pinEvent (.cfgOut false) s
    let s := pinEvent (.cfgIn .down) s
    let (b, s) := sampleLine s
    if b = true then (2, s) else (0, s)

/-- `BITCNT <- BITCNT + 1` (R24). -/
def countBit (s : State) : State :=
  whileBusy (fun s => { s with sri.bitcnt := s.sri.bitcnt + 1 }) s

/-- `BITCNT <- 0` (R24). -/
def endByte (s : State) : State :=
  whileBusy (fun s => { s with sri.bitcnt := 0 }) s

/-- One bit out: presented while the clock is low, latched, the clock low again (R122 step 3, R94). -/
def sendBit (present : PinEvent) (s : State) : State :=
  countBit (pinEvent (.sclk false) (pinEvent (.sclk true) (pinEvent present s)))

/-- How bit `i` of `b` is presented: the first sets the direction too (R122 step 3a). -/
def presentBit (b : Byte) (i : Nat) : PinEvent :=
  if i = 7 then .cfgOut (b.getLsbD i) else .drive (b.getLsbD i)

/-- The bits of a byte in the order they cross the wire, most significant first (R64). -/
def bitOrder : List Nat := [7, 6, 5, 4, 3, 2, 1, 0]

/-- Steps 3 and 4 of SERIAL_WRITE (R122). -/
def sendByte (b : Byte) (s : State) : State :=
  endByte (bitOrder.foldl (fun s i => sendBit (presentBit b i) s) s)

/-- Steps 1 to 4 of SERIAL_WRITE inside a frame of which `done` bytes are out (R122, R124). -/
def serialWriteByte (b : Byte) (done : Nat) (s : State) : State :=
  let (cause, s) := probe s
  if cause = 0 then sendByte b s else whileBusy (takeBusNotIdle cause done) s

/-- `SR <- 0` (R126 step 2). -/
def clearSr (s : State) : State :=
  whileBusy (fun s => { s with sri.sr := 0 }) s

/-- `SR <- (SR*2 + bit) mod 256` (R126 step 3c). -/
def accumulate (sr : Byte) (b : Bool) : Byte := sr * 2 + (BitVec.ofBool b).setWidth 8

/-- The accumulator takes one bit (R20, R126 step 3c). -/
def shiftIn (b : Bool) (s : State) : State :=
  whileBusy (fun s => { s with sri.sr := accumulate s.sri.sr b }) s

/-- One bit in: the clock up, the sample, the clock down (R126 step 3). -/
def receiveBit (s : State) : State :=
  let (b, s) := sampleLine (pinEvent (.sclk true) s)
  countBit (pinEvent (.sclk false) (shiftIn b s))

/-- Steps 1 to 4 of SERIAL_READ (R126). -/
def serialReadByte (s : State) : State :=
  endByte (bitOrder.foldl (fun s _ => receiveBit s) (clearSr (pinEvent .cfgInKeep s)))

/-- The bytes of a frame one after another, `done` of them already out; a byte that faults ends the frame (R130). -/
def sendFrame : List Byte → Nat → State → State
  | [], _, s => s
  | b :: bs, done, s => sendFrame bs (done + 1) (serialWriteByte b done s)

/-- `width` bytes in, in the order received (R133 step 2). -/
def receiveBytes : Nat → State → List Byte × State
  | 0, s => ([], s)
  | n + 1, s =>
      let s := serialReadByte s
      let (bs, t) := receiveBytes n s
      (s.sri.sr :: bs, t)

/-- `MemWrite(addr, n, payload)`: the target now holds the frame; the block keeps nothing (R8, R130 step 3). -/
def recordMemWrite (addr : RegAddr) (payload : List Byte) (s : State) : State :=
  whileBusy (fun s => { s with hist.memWrites := s.hist.memWrites ++ [⟨addr, payload⟩] }) s

end Sys2Proof.Machine
end

