-- ==== Sys2Proof/Machine/Bus.lean ====
section
/-! DEFINITION. The meanings of the control-bus operations (`40_control_bus.md`) and of the command bytes of frames
(`30_encoding.md` R91 to R93). -/

namespace Sys2Proof.Machine

/-- IS_BUS_IDLE (R120): raises nothing, whatever the probe finds. -/
def execIsBusIdle (s : State) : Host.Outcome State Fault Refusal :=
  .next (issueSri none
    (fun s => let (cause, s) := probe s; finishSri (.bool (decide (cause = 0))) s) s)

/-- SERIAL_WRITE (R122). -/
def execSerialWrite (b : Int) (s : State) : Host.Outcome State Fault Refusal :=
  .next (issueSri (if byteOk b then none else some .operandRange)
    (fun s => finishSri .unit (serialWriteByte (toByte b) 0 s)) s)

/-- SERIAL_READ (R126). -/
def execSerialRead (s : State) : Host.Outcome State Fault Refusal :=
  .next (issueSri none
    (fun s => let s := serialReadByte s; finishSri (.byte s.sri.sr) s) s)

/-- Step 0 of WRITE_REG, less SriFaulted: AddrRange before OperandRange (R130, R230). -/
def checkWriteReg (cfg : Config) (addr : Int) (payload : List Int) : Option RefuseCode :=
  if addrOk addr = false then some .addrRange
  else if payloadOk cfg payload = false then some .operandRange
  else none

/-- WRITE_REG (R130). -/
def execWriteReg (addr : Int) (payload : List Int) (s : State) : Host.Outcome State Fault Refusal :=
  .next (issueSri (checkWriteReg s.cfg addr payload)
    (fun s =>
      let bytes := payload.map toByte
      let s := sendFrame (writeCmd (toAddr addr) :: bytes) 0 s
      finishSri .unit (recordMemWrite (toAddr addr) bytes s)) s)

/-- Step 0 of READ_REG, less SriFaulted (R133, R230). -/
def checkReadReg (cfg : Config) (addr width : Int) : Option RefuseCode :=
  if addrOk addr = false then some .addrRange
  else if widthOk cfg width = false then some .operandRange
  else none

/-- READ_REG (R133). -/
def execReadReg (addr width : Int) (s : State) : Host.Outcome State Fault Refusal :=
  .next (issueSri (checkReadReg s.cfg addr width)
    (fun s =>
      let s := serialWriteByte (readCmd (toAddr addr)) 0 s
      let (bytes, s) := receiveBytes width.toNat s
      finishSri (.bytes bytes) s) s)

/-- CMD8.WRITE: the command byte of a WRITE frame goes out by one SERIAL_WRITE (R92, R130 step 1; log 4). -/
def execCmdWrite (addr : RegAddr) (s : State) : Host.Outcome State Fault Refusal :=
  .next (issueSri none (fun s => finishSri .unit (serialWriteByte (writeCmd addr) 0 s)) s)

/-- CMD8.READ: the command byte of a READ frame goes out by one SERIAL_WRITE (R93, R133 step 1; log 4). -/
def execCmdRead (addr : RegAddr) (s : State) : Host.Outcome State Fault Refusal :=
  .next (issueSri none (fun s => finishSri .unit (serialWriteByte (readCmd addr) 0 s)) s)

end Sys2Proof.Machine
end

