-- ==== Sys2Proof/Machine/Ftw.lean ====
section
/-! DEFINITION. The meanings of the tuning-word functions (`41_ftw_payload.md`). -/

namespace Sys2Proof.Machine

/-- TO_FTW (R150, R151): refused for `sysclk <= 0`, total over every `freq`. -/
def execToFtw (freq sysclk : Rat) (s : State) : Host.Outcome State Fault Refusal :=
  .next (if sysclk.num ≤ 0 then refuse .operandRange s
    else returnOk (.word (ftwValue s.cfg.roundTie freq sysclk)) s)

/-- FTW_BYTES (R153). -/
def execFtwBytes (ftw : Int) (s : State) : Host.Outcome State Fault Refusal :=
  .next (if wordOk ftw = false then refuse .operandRange s
    else returnOk (.bytes (ftwToBytes (toWord ftw))) s)

end Sys2Proof.Machine
end

