-- ==== Sys2Proof/Machine/Packer.lean ====
section
/-! DEFINITION. The meanings of the packer's functions (`43_packer.md`). -/

namespace Sys2Proof.Machine

/-- QCLIP (R200): total. -/
def execQclip (v : Int) (s : State) : Host.Outcome State Fault Refusal :=
  .next (returnOk (.clip (toNibble (clipValue v)) (isClipped v)) s)

/-- PACK (R202): an operand outside 0 to 15 is refused, not masked and not clipped. -/
def execPack (i q : Int) (s : State) : Host.Outcome State Fault Refusal :=
  .next (if (nibbleOk i && nibbleOk q) = false then refuse .operandRange s
    else returnOk (.byte (packByte (toNibble i) (toNibble q))) s)

/-- ASSEMBLE_WORD (R204). -/
def execAssembleWord (bytes : List Int) (s : State) : Host.Outcome State Fault Refusal :=
  .next (if packedOk bytes = false then refuse .operandRange s
    else returnOk (.words (assemble s.cfg.nibbleOrder (bytes.map toByte))) s)

end Sys2Proof.Machine
end

