-- ==== Sys2Proof/Machine/Streamer.lean ====
section
/-! DEFINITION. The meanings of the streamer's host operations and of the CONSUMER's four steps
(`42_streamer.md`). -/

namespace Sys2Proof.Machine

/-- PUSH (R160); at `LEVEL = 8` HOST is held with the word, nothing stored and nothing returned (R161, R223,
log 13). -/
def execPush (w : Int) (s : State) : Host.Outcome State Fault Refusal :=
  .next (if wordOk w = false then refuse .operandRange s
    else if s.iqs.level < fifoDepth then
      returnOk .unit (enqueue (toWord w) { s with host.held := none })
    else { s with host.held := some (toWord w) })

/-- ACTIVATE (R162, R163). -/
def execActivate (s : State) : Host.Outcome State Fault Refusal :=
  .next (returnOk .unit { s with iqs.active := true })

/-- DEACTIVATE (R164). -/
def execDeactivate (s : State) : Host.Outcome State Fault Refusal :=
  .next (returnOk .unit { s with iqs.active := false })

/-- READ_STATUS (R180, R41 to R44): no side effect. -/
def execReadStatus (n : Int) (s : State) : Host.Outcome State Fault Refusal :=
  .next (if statusOk n = false then refuse .operandRange s
    else returnOk (.word (statusRegister n s.iqs s.sri)) s)

/-- CLEAR_UNDERRUN (R182). -/
def execClearUnderrun (s : State) : Host.Outcome State Fault Refusal :=
  .next (returnOk .unit { s with iqs.underrun := false })

/-- RESET_STREAMER (R184). -/
def execResetStreamer (s : State) : Host.Outcome State Fault Refusal :=
  .next (returnOk .unit (restartStreamer s))

/-- C_WAIT_I_LOW (R166). -/
def execCWaitILow (s : State) : Host.Outcome State Fault Refusal :=
  .next (whenSelected .waitILow stepWaitILow s)

/-- C_SHIFT_I (R167). -/
def execCShiftI (s : State) : Host.Outcome State Fault Refusal :=
  .next (whenSelected .shiftI stepShiftI s)

/-- C_WAIT_Q_HIGH (R168). -/
def execCWaitQHigh (s : State) : Host.Outcome State Fault Refusal :=
  .next (whenSelected .waitQHigh stepWaitQHigh s)

/-- C_SHIFT_Q (R169). -/
def execCShiftQ (s : State) : Host.Outcome State Fault Refusal :=
  .next (whenSelected .shiftQ stepShiftQ s)

end Sys2Proof.Machine
end

