-- ==== Sys2Proof/Machine/Dispatch.lean ====
section
/-! DEFINITION. One arm per row of the operation table. -/

namespace Sys2Proof.Machine

def exec (i : Instr) (s : State) : Host.Outcome State Fault Refusal :=
  match i with
  | .isBusIdle => Sys2Proof.Machine.execIsBusIdle s
  | .serialWrite b => Sys2Proof.Machine.execSerialWrite b s
  | .serialRead => Sys2Proof.Machine.execSerialRead s
  | .writeReg addr payload => Sys2Proof.Machine.execWriteReg addr payload s
  | .readReg addr width => Sys2Proof.Machine.execReadReg addr width s
  | .toFtw freq sysclk => Sys2Proof.Machine.execToFtw freq sysclk s
  | .ftwBytes ftw => Sys2Proof.Machine.execFtwBytes ftw s
  | .push w => Sys2Proof.Machine.execPush w s
  | .activate => Sys2Proof.Machine.execActivate s
  | .deactivate => Sys2Proof.Machine.execDeactivate s
  | .readStatus n => Sys2Proof.Machine.execReadStatus n s
  | .clearUnderrun => Sys2Proof.Machine.execClearUnderrun s
  | .resetStreamer => Sys2Proof.Machine.execResetStreamer s
  | .qclip v => Sys2Proof.Machine.execQclip v s
  | .pack ni nq => Sys2Proof.Machine.execPack ni nq s
  | .assembleWord bytes => Sys2Proof.Machine.execAssembleWord bytes s
  | .cWaitILow => Sys2Proof.Machine.execCWaitILow s
  | .cShiftI => Sys2Proof.Machine.execCShiftI s
  | .cWaitQHigh => Sys2Proof.Machine.execCWaitQHigh s
  | .cShiftQ => Sys2Proof.Machine.execCShiftQ s
  | .cmdWrite addr => Sys2Proof.Machine.execCmdWrite addr s
  | .cmdRead addr => Sys2Proof.Machine.execCmdRead addr s

end Sys2Proof.Machine
end

