-- ==== Sys2Proof/Machine/Issue.lean ====
section
/-! DEFINITION. Whose turn it is and what is issued: HOST's next operation, CONSUMER's next step, the moves of the
environment (`00_scope.md` R12, R13; `42_streamer.md` R161, R165). -/

namespace Sys2Proof.Machine

/-- The request of CONSUMER's next step: the `ST2` code of STATE (R101). -/
def consumerRequest (st : StreamState) : Request := ⟨.st2, st.code.setWidth 8, []⟩

/-- Run what a request decodes to. -/
def runRequest (r : Request) (s : State) : Host.Outcome State Fault Refusal :=
  match decode r with
  | .instr i => exec i s
  | .reject e => .refused (.undecodable e)

/-- HOST's turn. A held PUSH is tried again: while `LEVEL = 8` HOST has no step (R161). Otherwise HOST issues the
next operation of its program; with none left it does nothing (R250). -/
def hostTurn (s : State) : Host.Outcome State Fault Refusal :=
  match s.host.held with
  | some w => exec (.push w.toNat) s
  | none =>
    match s.host.program with
    | [] => .next s
    | r :: rs =>
      if r.format = .st2 then .refused .notAHostRequest
      else runRequest r { s with host.program := rs }

/-- CONSUMER's turn: the step its STATE selects while ACTIVE = 1, none otherwise (R165). -/
def consumerTurn (s : State) : Host.Outcome State Fault Refusal :=
  if s.iqs.active then runRequest (consumerRequest s.iqs.state) s else .next s

/-- One turn of the schedule. -/
def runTurn (t : Turn) (s : State) : Host.Outcome State Fault Refusal :=
  match t with
  | .host => hostTurn s
  | .move .consumer => consumerTurn s
  | .move (.ext e) => .next (runMove s (.ext e))
  | .move (.pclk v) => .next (runMove s (.pclk v))
  | .move .reset => .next (runMove s .reset)

/-- The state in which the instruction of a table word is the next to run: HOST free with that request at the head
of its program and the turn HOST's, or the streamer active in the state the `ST2` code names and the turn
CONSUMER's (log 1). -/
def placeRequest (r : Request) (s : State) : State :=
  match r.format with
  | .st2 =>
      { s with
        iqs.active := true
        iqs.state :=
          match r.code.toNat with
          | 0 => .waitILow
          | 1 => .shiftI
          | 2 => .waitQHigh
          | _ => .shiftQ
        sched.turns := .move .consumer :: s.sched.turns }
  | _ =>
      { s with
        host.held := none
        host.program := r :: s.host.program
        sched.turns := .host :: s.sched.turns }

end Sys2Proof.Machine
end

