-- ==== Sys2Proof/Machine/Step.lean ====
section
/-! DEFINITION. One step of the machine: the agent whose turn it is takes one atomic step (an SRI operation with
everything that falls between its pin events counts as one, log 12). -/

namespace Sys2Proof.Machine

/-- The next turn of the schedule; with no turn left nobody moves (R250, log 11). -/
def step (s : State) : Host.Outcome State Fault Refusal :=
  match s.sched.turns with
  | [] => .next s
  | t :: ts => runTurn t { s with sched.turns := ts }

/-- `s` with the instruction of a table word where the next step takes it from (log 1, log 3). -/
def State.withFetchWord (s : State) (nbits w : Nat) : State := placeRequest (tableRequest nbits w) s

end Sys2Proof.Machine
end

