-- ==== Sys2Proof/Machine/Pseudo.lean ====
section
/-! DEFINITION. The pseudo-operations of `30_encoding.md` R106, as the operations HOST issues for them. -/

namespace Sys2Proof.Machine

/-- `READ_REG addr` = `READ_REG addr, 8` (R105, R106). -/
def readRegDefault (addr : Int) : Instr := .readReg addr readWidthDefault

/-- `PRELOAD_IDLE` = eight times `PUSH IDLE_WORD` (R106). -/
def preloadIdle (o : NibbleOrder) : List Instr :=
  List.replicate fifoDepth (.push (idleWord o).toNat)

/-- `RESTART` = `RESET_STREAMER; PRELOAD_IDLE; ACTIVATE` (R106). -/
def restart (o : NibbleOrder) : List Instr := .resetStreamer :: preloadIdle o ++ [.activate]

/-- `WRITE_FTW addr, freq, sysclk` = `WRITE_REG addr, FTW_BYTES(TO_FTW(freq, sysclk))` (R106), innermost first. For
`sysclk <= 0` TO_FTW is refused (R150): it has no value, so nothing is there for FTW_BYTES and WRITE_REG to be
issued with. -/
def writeFtw (tie : RoundTie) (addr : Int) (freq sysclk : Rat) : List Instr :=
  .toFtw freq sysclk ::
    if sysclk.num ≤ 0 then []
    else
      let w := ftwValue tie freq sysclk
      [.ftwBytes w.toNat, .writeReg addr ((ftwToBytes w).map fun b => (b.toNat : Int))]

/-- The value of one `PACK(i, q)`; none where PACK is refused (R202). -/
def packOne (i q : Int) : Option Byte :=
  if nibbleOk i && nibbleOk q then some (packByte (toNibble i) (toNibble q)) else none

/-- The bytes of `[PACK(i0,q0), ...]`; none where one of them is refused. -/
def packAll : List (Int × Int) → Option (List Byte)
  | [] => some []
  | (i, q) :: rest =>
    match packOne i q, packAll rest with
    | some b, some bs => some (b :: bs)
    | _, _ => none

/-- `PACK_SAMPLES [(i0,q0), ...]` = the byte sequence `[PACK(i0,q0), ...]` (R106), refused where a PACK is (R202,
R227). -/
def packSamples (samples : List (Int × Int)) : Result :=
  match packAll samples with
  | some bs => .ok (.bytes bs)
  | none => .refused .operandRange

/-- The operations HOST issues for PACK_SAMPLES: one PACK a sample. -/
def packSamplesOps (samples : List (Int × Int)) : List Instr := samples.map fun p => .pack p.1 p.2

/-- The offset-binary encoding of a signed sample component: the operand of QCLIP (R201). -/
def offsetBinary (v : Int) : Instr := .qclip (v + qOffset)

/-- Operations one after another, with nothing between them. -/
def issueAll : List Instr → State → Host.Outcome State Fault Refusal
  | [], s => .next s
  | i :: is, s =>
    match exec i s with
    | .next t => issueAll is t
    | .fault f => .fault f
    | .refused r => .refused r

end Sys2Proof.Machine
end

