-- ==== Sys2Proof/Safety.lean ====
section
/-! DEFINITION. What counts as a safe state, and the words claims are stated in: the invariants of `10_state.md` R24,
R28, R36 and R40, the emission law of `42_streamer.md` R174, what a schedule may do during an SRI operation, and the
event lists of `40_control_bus.md`. -/

namespace Sys2Proof.Machine

/-! ### The streamer -/

/-- The words in the queue, oldest first: `FIFO[RD], FIFO[(RD+1) mod 8], ...` (R36). -/
def Iqs.queued (q : Iqs) : List Word :=
  (List.range q.level).map fun k => q.fifo[q.rd + Fin.ofNat 8 k]

/-- The nibbles of `OSR` not yet emitted, in order of emission (R21, R171). -/
def Iqs.unemitted (o : NibbleOrder) (q : Iqs) : List Nibble :=
  (List.range q.osrCnt).map (slot o q.osr)

/-- 0 in the I half of the cycle, 1 in the Q half (R40 (a)). -/
def StreamState.parity : StreamState → Nat
  | .waitILow => 0
  | .shiftI => 0
  | .waitQHigh => 1
  | .shiftQ => 1

/-- The one successor of a state (R23). -/
def StreamState.successor : StreamState → StreamState
  | .waitILow => .shiftI
  | .shiftI => .waitQHigh
  | .waitQHigh => .shiftQ
  | .shiftQ => .waitILow

/-- The lane of the `n`-th nibble emitted, counting from 0 (R174). -/
def laneOf (n : Nat) : Lane := if n % 2 = 0 then .i else .q

/-- R36 and R40 (a), (c), (d); and an underrun flag that is set has been counted (R27). -/
structure StreamInv (s : State) : Prop where
  level_le  : s.iqs.level ≤ 8
  osrCnt_le : s.iqs.osrCnt ≤ 8
  ring      : s.iqs.level % 8 = (s.iqs.wr - s.iqs.rd).val
  parity    : s.iqs.osrCnt % 2 = s.iqs.state.parity
  starved   : s.iqs.starved = true → s.iqs.osrCnt = 0 ∧ s.iqs.state = .shiftI
  counted   : s.iqs.underrun = true → s.iqs.underrunCount ≠ 0

/-- R174: what was written to `D`, then what is still to be emitted, is every slot of every word pushed, in order;
the nibbles at even places were written by `SHIFT_I`, the others by `SHIFT_Q`. -/
structure EmissionLaw (s : State) : Prop where
  nibbles : s.hist.emitted.map Prod.snd ++
      (s.iqs.unemitted s.cfg.nibbleOrder ++ s.iqs.queued.flatMap (slots s.cfg.nibbleOrder)).map
        (pinMapped s.cfg.pinMap) =
      (s.hist.pushed.flatMap (slots s.cfg.nibbleOrder)).map (pinMapped s.cfg.pinMap)
  lanes : s.hist.emitted.map Prod.fst = (List.range s.hist.emitted.length).map laneOf

/-- R238, R33: `D` holds the last value on its record (0 after reset), and the record ends with what `SHIFT` steps
emitted since the streamer was last cleared. -/
structure DRecord (s : State) : Prop where
  last   : s.iqs.d = (s.hist.dWrites.getLast?.map DWrite.value).getD 0
  recent : s.hist.emitted.map (fun p => ⟨.shift p.1, p.2⟩) <:+ s.hist.dWrites

/-- Between two steps no SRI operation is in progress: SCLK = 0 (R128), BITCNT = 0 (R24); the fault cause is 0 exactly
when there is no fault and is never 3 (R28). -/
structure BusInv (s : State) : Prop where
  idle    : s.host.busy = false
  clock   : s.sri.sclk = false
  bits    : s.sri.bitcnt = 0
  cause   : s.sri.busFault = false ↔ s.sri.busFaultCause = 0
  noThree : s.sri.busFaultCause ≠ 3

/-- The invariant of the machine. -/
structure Inv (s : State) : Prop where
  stream   : StreamInv s
  emission : EmissionLaw s
  record   : DRecord s
  bus      : BusInv s

/-- A run is safe so far: no bus fault and no underrun (R224 "a claim about a host program takes `BUS_FAULT = 0` at
the end as part of success", R242). -/
structure Safe (s : State) : Prop where
  noBusFault : s.sri.busFault = false
  noUnderrun : s.iqs.underrunCount = 0

/-- R251: every element of the streamer that has a reset value. -/
structure StreamerAtReset (q : Iqs) : Prop where
  active        : q.active = false
  state         : q.state = .waitILow
  osrCnt        : q.osrCnt = 0
  wr            : q.wr = 0
  rd            : q.rd = 0
  level         : q.level = 0
  d             : q.d = 0
  underrun      : q.underrun = false
  starved       : q.starved = false
  underrunCount : q.underrunCount = 0

/-- R252: every element of the SRI that has a reset value. -/
structure SriAtReset (r : Sri) : Prop where
  sclk          : r.sclk = false
  sdioDir       : r.sdioDir = .input
  sdioOut       : r.sdioOut = false
  sr            : r.sr = 0
  bitcnt        : r.bitcnt = 0
  busFault      : r.busFault = false
  busFaultCause : r.busFaultCause = 0

/-! ### What other agents do during an SRI operation -/

/-- Every scheduled move between HOST's pin events is of this kind. -/
abbrev gapsAll (p : Move → Bool) (gaps : List (List Move)) : Bool := gaps.all fun g => g.all p

/-- Not the reset event. -/
def Move.notReset : Move → Bool
  | .reset => false
  | _ => true

/-- Neither a change of TARGET's drive nor the reset event: CONSUMER and PCLK_SOURCE only. -/
def Move.steady : Move → Bool
  | .consumer => true
  | .pclk _ => true
  | _ => false

/-- Neither a CONSUMER step nor the reset event: the environment only. -/
def Move.environment : Move → Bool
  | .ext _ => true
  | .pclk _ => true
  | _ => false

/-- The operations of the SRI, the command bytes among them (R224). -/
def isSri : Instr → Bool
  | .isBusIdle => true
  | .serialWrite _ => true
  | .serialRead => true
  | .writeReg _ _ => true
  | .readReg _ _ => true
  | .cmdWrite _ => true
  | .cmdRead _ => true
  | .toFtw _ _ => false
  | .ftwBytes _ => false
  | .push _ => false
  | .activate => false
  | .deactivate => false
  | .readStatus _ => false
  | .clearUnderrun => false
  | .resetStreamer => false
  | .qclip _ => false
  | .pack _ _ => false
  | .assembleWord _ => false
  | .cWaitILow => false
  | .cShiftI => false
  | .cWaitQHigh => false
  | .cShiftQ => false

/-! ### The event lists of the bus -/

/-- The bits of a byte, most significant first (R64). -/
def byteBits (b : Byte) : List Bool :=
  [b.getLsbD 7, b.getLsbD 6, b.getLsbD 5, b.getLsbD 4, b.getLsbD 3, b.getLsbD 2, b.getLsbD 1, b.getLsbD 0]

/-- The five events of a probe that makes both checks (R121). -/
def probeEvents : List PinEvent := [.cfgIn .up, .sample, .cfgOut false, .cfgIn .down, .sample]

/-- The events of a probe that fails: two if the line is low under the pull-up (cause 1), five if it is high under
the pull-down (cause 2) (R121, R271). -/
def failedProbeEvents (cause : BitVec 2) : List PinEvent :=
  if cause = 1 then [.cfgIn .up, .sample] else probeEvents

/-- One bit: presented, clock up, clock down (R94). -/
def clocked (present : PinEvent) : List PinEvent := [present, .sclk true, .sclk false]

/-- The 24 clocking events of a byte (R122 step 3, R123). -/
def clockingEvents (b : Byte) : List PinEvent :=
  clocked (.cfgOut (b.getLsbD 7)) ++ clocked (.drive (b.getLsbD 6)) ++ clocked (.drive (b.getLsbD 5)) ++
  clocked (.drive (b.getLsbD 4)) ++ clocked (.drive (b.getLsbD 3)) ++ clocked (.drive (b.getLsbD 2)) ++
  clocked (.drive (b.getLsbD 1)) ++ clocked (.drive (b.getLsbD 0))

/-- The 29 events of a successful SERIAL_WRITE (R123). -/
def writeEvents (b : Byte) : List PinEvent := probeEvents ++ clockingEvents b

/-- The 25 events of a SERIAL_READ (R127). -/
def readEvents : List PinEvent :=
  .cfgInKeep :: (List.replicate 8 [PinEvent.sclk true, .sample, .sclk false]).flatten

/-- The levels recorded at the rising edges of SCLK. -/
def risingLevels (tr : List PinRecord) : List Bool :=
  (tr.filter fun r => r.event = .sclk true).map PinRecord.line

/-- The levels sampled. -/
def sampledLevels (tr : List PinRecord) : List Bool :=
  (tr.filter fun r => r.event = .sample).map PinRecord.line

/-- Whether an event moves the data pin. -/
def PinEvent.movesData : PinEvent → Bool
  | .sclk _ => false
  | .sample => false
  | _ => true

/-- In this sequence of events, begun with the clock at `clk`, the data pin is moved only while the clock is low
(R136). -/
def dataMovesWhileLow : Bool → List PinEvent → Bool
  | _, [] => true
  | clk, e :: es =>
      (!(e.movesData && clk)) && dataMovesWhileLow (match e with | .sclk v => v | _ => clk) es

/-! ### What the SRI can see of a state (R83) -/

/-- Two states that agree on everything but the streamer and its records (pushed, emitted, written to `D`). -/
structure SameBut (s t : State) : Prop where
  cfg       : s.cfg = t.cfg
  sri       : s.sri = t.sri
  env       : s.env = t.env
  host      : s.host = t.host
  sched     : s.sched = t.sched
  pins      : s.hist.pins = t.hist.pins
  memWrites : s.hist.memWrites = t.hist.memWrites

end Sys2Proof.Machine
end

