-- ==== Sys2Proof/Certificates/Slice0/Obligations.lean ====
section
/-! DEFINITION. The statements, from the spec's numbered rules: encodings, issue, reset, the streamer, the control bus,
the tuning word, the packer, and what holds of every step. -/

open Sys2Proof Sys2Proof.Machine

/-! ### Encodings (`30_encoding.md`) -/

/-- Decoding what the encoder writes gives the instruction back, for every instruction and every operand. The
operand words are the model's own (log 2); the codes are R100, R101 and R91. -/
def Obligations.DecodeOfEncodeIsTheInstruction : Prop :=
  ∀ i : Instr, decode (encode i) = .instr i

/-- A request that decodes to an instruction is the one the encoder writes for it: no two requests mean the same
(log 2). -/
def Obligations.EncodeOfDecodeIsTheRequest : Prop :=
  ∀ (r : Request) (i : Instr), decode r = .instr i → encode i = r

/-- R91: the command byte, bit 7 and bits 6:0, as a sum and as a bitwise form; what WRITE_REG and READ_REG send is
that byte. -/
def Obligations.CommandByteLayout : Prop :=
  ∀ addr : RegAddr,
    (encode (.cmdWrite addr)).code.toNat = 0x00 + addr.toNat ∧
    (encode (.cmdRead addr)).code.toNat = 0x80 + addr.toNat ∧
    (encode (.cmdWrite addr)).code = ((0#8 <<< 7) ||| addr.setWidth 8) ∧
    (encode (.cmdRead addr)).code = ((1#8 <<< 7) ||| addr.setWidth 8) ∧
    (encode (.cmdWrite addr)).code.getLsbD 7 = false ∧
    (encode (.cmdRead addr)).code.getLsbD 7 = true ∧
    (encode (.cmdWrite addr)).code.extractLsb' 0 7 = addr ∧
    (encode (.cmdRead addr)).code.extractLsb' 0 7 = addr ∧
    writeCmd addr = (encode (.cmdWrite addr)).code ∧
    readCmd addr = (encode (.cmdRead addr)).code

/-- Codes written out from the tables of R100, R101 and R91, one or more for each family. The operand words are the
model's own form (log 2). -/
def Obligations.TableCodesDecode : Prop :=
  decode ⟨.hostop4, 0b0001, [0xA5]⟩ = .instr (.serialWrite 0xA5) ∧
  decode ⟨.hostop4, 0b0110, [0x010624DD]⟩ = .instr (.ftwBytes 0x010624DD) ∧
  decode ⟨.hostop4, 0b0111, [0x08080808]⟩ = .instr (.push 0x08080808) ∧
  decode ⟨.hostop4, 0b1100, []⟩ = .instr .resetStreamer ∧
  decode ⟨.hostop4, 0b1110, [3, 12]⟩ = .instr (.pack 3 12) ∧
  decode ⟨.st2, 0b01, []⟩ = .instr .cShiftI ∧
  decode ⟨.st2, 0b10, []⟩ = .instr .cWaitQHigh ∧
  decode ⟨.cmd8, 0b00001110, []⟩ = .instr (.cmdWrite 14) ∧
  decode ⟨.cmd8, 0b10001110, []⟩ = .instr (.cmdRead 14)

/-! ### Refusals (`60_exceptions.md` R224 to R227) -/

/-- R225: an address outside 0 to 127 is refused with code 4 before any pin event, and nothing changes. -/
def Obligations.AddressOutOfRangeIsRefused : Prop :=
  RefuseCode.addrRange.number = 4 ∧
  ∀ (s : State) (addr width : Int) (payload : List Int),
    s.sri.busFault = false → (addr < 0 ∨ 127 < addr) →
    exec (.writeReg addr payload) s =
      .next { s with host.results := s.host.results ++ [.refused .addrRange] } ∧
    exec (.readReg addr width) s =
      .next { s with host.results := s.host.results ++ [.refused .addrRange] }

/-- R226: the operand ranges of the operations with state; a refusal has code 5 and changes nothing. -/
def Obligations.OperandOutOfRangeIsRefused : Prop :=
  RefuseCode.operandRange.number = 5 ∧
  ∀ s : State,
    (∀ b : Int, s.sri.busFault = false → (b < 0 ∨ 255 < b) →
      exec (.serialWrite b) s =
        .next { s with host.results := s.host.results ++ [.refused .operandRange] }) ∧
    (∀ (addr : Int) (payload : List Int), s.sri.busFault = false → 0 ≤ addr → addr ≤ 127 →
      (payload.length = 0 ∨ s.cfg.widthMax < payload.length ∨ ∃ v ∈ payload, v < 0 ∨ 255 < v) →
      exec (.writeReg addr payload) s =
        .next { s with host.results := s.host.results ++ [.refused .operandRange] }) ∧
    (∀ addr width : Int, s.sri.busFault = false → 0 ≤ addr → addr ≤ 127 →
      (width < 1 ∨ (s.cfg.widthMax : Int) < width) →
      exec (.readReg addr width) s =
        .next { s with host.results := s.host.results ++ [.refused .operandRange] }) ∧
    (∀ w : Int, (w < 0 ∨ 2 ^ 32 ≤ w) →
      exec (.push w) s =
        .next { s with host.results := s.host.results ++ [.refused .operandRange] }) ∧
    (∀ n : Int, (n < 0 ∨ 2 < n) →
      exec (.readStatus n) s =
        .next { s with host.results := s.host.results ++ [.refused .operandRange] })

/-- R224: once BUS_FAULT = 1 every SRI operation is refused at issue with code 3, whatever its operands: no pin event,
no state change; the operations of IQS, PACK and FTW are not refused so. R224 names five operations; that the two
command bytes are refused with them is the model's reading (log 4). -/
def Obligations.SriIsRefusedAfterABusFault : Prop :=
  RefuseCode.sriFaulted.number = 3 ∧
  ∀ (s : State) (i : Instr), s.sri.busFault = true →
    (isSri i = true →
      exec i s = .next { s with host.results := s.host.results ++ [.refused .sriFaulted] }) ∧
    (isSri i = false →
      ∃ t, exec i s = .next t ∧ t.host.results ≠ s.host.results ++ [.refused .sriFaulted] ∧
        ∀ r : Sri, r.busFault = false → i ≠ .readStatus 2 →
          exec i { s with sri := r } = .next { t with sri := r })

/-- R103: outside a bus fault an operation is refused exactly when an operand is outside its stated range. -/
def Obligations.RefusedExactlyWhenIllFormed : Prop :=
  ∀ (i : Instr) (s : State), s.sri.busFault = false →
    ∃ t, exec i s = .next t ∧
      (i.wf s.cfg = false ↔ ∃ c, t.host.results = s.host.results ++ [.refused c])

/-! ### Issue: a step runs the decoded instruction -/

/-- HOST's turn, HOST not held: the step is `exec` of what the next request of HOST's program decodes to, with the turn
and the request taken (log 1, log 11). -/
def Obligations.StepRunsTheNextHostOperation : Prop :=
  ∀ (s : State) (ts : List Turn) (r : Request) (rs : List Request) (i : Instr),
    s.sched.turns = .host :: ts → s.host.held = none → s.host.program = r :: rs → r.format ≠ .st2 →
    decode r = .instr i →
    step s = exec i { s with sched.turns := ts, host.program := rs }

/-- CONSUMER's turn (R101, R165): while ACTIVE = 1 the step is `exec` of the instruction whose `ST2` code STATE holds,
and those codes are the table's; while ACTIVE = 0 there is no step. CONSUMER's move between two pin events of an SRI
operation is the same step (R9). -/
def Obligations.StepRunsTheSelectedConsumerStep : Prop :=
  (∀ s : State,
    (s.iqs.active = false → runMove s .consumer = s) ∧
    (s.iqs.active = true → ∀ i, decode ⟨.st2, s.iqs.state.code.setWidth 8, []⟩ = .instr i →
      exec i s = .next (runMove s .consumer))) ∧
  ∀ (s : State) (ts : List Turn), s.sched.turns = .move .consumer :: ts →
    (s.iqs.active = false → step s = .next { s with sched.turns := ts }) ∧
    (s.iqs.active = true →
      (∀ i, decode ⟨.st2, s.iqs.state.code.setWidth 8, []⟩ = .instr i →
        step s = exec i { s with sched.turns := ts }) ∧
      decode ⟨.st2, s.iqs.state.code.setWidth 8, []⟩ =
        match s.iqs.state with
        | .waitILow => .instr .cWaitILow
        | .shiftI => .instr .cShiftI
        | .waitQHigh => .instr .cWaitQHigh
        | .shiftQ => .instr .cShiftQ)

/-- The environment's turns and the empty schedule: TARGET's drive (with `KEEP <- LINE`, R30), PCLK, and nobody
(R250: after reset the block does nothing until HOST issues an operation); a HOST with nothing to issue
(log 11). Inside an SRI operation, the moves scheduled before a pin event or a sample are made in order and then the
event happens (R9); with nothing scheduled it happens at once. -/
def Obligations.StepOfTheEnvironment : Prop :=
  ∀ (s : State) (ts : List Turn),
    (s.sched.turns = [] → step s = .next s) ∧
    (∀ e l, s.sched.turns = .move (.ext e) :: ts → lineLevel s.sri { s.env with ext := e } = some l →
      step s = .next { s with sched.turns := ts, env.ext := e, env.keep := l }) ∧
    (∀ e, s.sched.turns = .move (.ext e) :: ts → lineLevel s.sri { s.env with ext := e } = none →
      step s = .next { s with
        sched.turns := ts, env.ext := e, env.keep := Config.freeBit s.env.draws,
        env.draws := s.env.draws + 1 }) ∧
    (∀ v, s.sched.turns = .move (.pclk v) :: ts →
      step s = .next { s with sched.turns := ts, env.pclk := v }) ∧
    (s.sched.turns = .host :: ts → s.host.held = none → s.host.program = [] →
      step s = .next { s with sched.turns := ts }) ∧
    (∀ (e : PinEvent) (g : List Move) (gs : List (List Move)), s.host.busy = true →
      s.sched.gaps = g :: gs → g.all Move.notReset = true →
      pinEvent e s = pinAct e (g.foldl runMove { s with sched.gaps := gs }) ∧
      sampleLine s = sampleAct (g.foldl runMove { s with sched.gaps := gs })) ∧
    (∀ e : PinEvent, s.host.busy = true → s.sched.gaps = [] →
      pinEvent e s = pinAct e s ∧ sampleLine s = sampleAct s)

/-- R161, R223: a PUSH at `LEVEL = 8` is held, nothing stored and nothing returned; while the queue is full HOST's turn
changes nothing, whatever HOST's program holds; once there is room HOST's turn stores the word and returns OK. -/
def Obligations.HeldPushWaitsForRoom : Prop :=
  ∀ s : State,
    (∀ w : Int, 0 ≤ w → w < 2 ^ 32 → s.iqs.level = 8 →
      exec (.push w) s = .next { s with host.held := some (BitVec.ofInt 32 w) }) ∧
    (∀ (w : Word) (ts : List Turn), s.host.held = some w → s.sched.turns = .host :: ts →
      (s.iqs.level = 8 → step s = .next { s with sched.turns := ts }) ∧
      (s.iqs.level < 8 →
        step s = .next { s with
          sched.turns := ts
          iqs.fifo := s.iqs.fifo.set s.iqs.wr w
          iqs.wr := s.iqs.wr + 1
          iqs.level := s.iqs.level + 1
          hist.pushed := s.hist.pushed ++ [w]
          host.held := none
          host.results := s.host.results ++ [.ok .unit] }))

/-! ### Reset (`70_reset_and_hazards.md`) -/

/-- R252: the SRI after reset, in the reset state and after a reset event in any state; `SDIO_PULL` is left out. -/
def Obligations.ResetStateOfTheSri : Prop :=
  SriAtReset State.reset.sri ∧
  ∀ (s : State) (ts : List Turn), s.sched.turns = .move .reset :: ts →
    ∃ t, step s = .next t ∧ SriAtReset t.sri

/-- R251: the streamer after reset, after a reset event and after RESET_STREAMER, with the two status registers. -/
def Obligations.ResetStateOfTheStreamer : Prop :=
  (StreamerAtReset State.reset.iqs ∧ iqsStatus State.reset.iqs = 0x00000008) ∧
  (∀ s : State, ∃ t, exec .resetStreamer s = .next t ∧ StreamerAtReset t.iqs ∧
    iqsStatus t.iqs = 0x00000008) ∧
  ∀ (s : State) (ts : List Turn), s.sched.turns = .move .reset :: ts →
    ∃ t, step s = .next t ∧ StreamerAtReset t.iqs ∧ iqsStatus t.iqs = 0x00000008

/-- R250: the reset event takes effect whatever the block was doing: a held PUSH is dropped, and an SRI operation in
whose next gap it falls is abandoned with no further pin event and no result. The configuration, the
environment's drive and HOST's program are not the block's and stay (log 8). The third clause is about the event in any
later gap, after the moves `pre`: measured against the run with no reset event, `tr` its events, the operation ends with
exactly the first `pre.length` of them; one that was over before that is as without the reset event. -/
def Obligations.ResetEventAbandonsWhatIsGoingOn : Prop :=
  (∀ (s : State) (ts : List Turn), s.sched.turns = .move .reset :: ts →
    ∃ t, step s = .next t ∧ t.host.held = none ∧ t.host.program = s.host.program ∧
      t.host.results = s.host.results ∧ t.cfg = s.cfg ∧ t.env.ext = s.env.ext ∧
      t.env.pclk = s.env.pclk ∧ t.sched.turns = ts ∧ t.hist.pins = s.hist.pins ∧
      t.hist.memWrites = s.hist.memWrites ∧ t.hist.pushed = [] ∧ t.hist.emitted = [] ∧
      t.hist.dWrites = s.hist.dWrites ++ [⟨.reset, 0⟩]) ∧
  (∀ (s : State) (i : Instr) (gs : List (List Move)), isSri i = true → i.wf s.cfg = true →
    s.sri.busFault = false → s.sched.gaps = [.reset] :: gs →
    ∃ t, exec i s = .next t ∧ t.host.results = s.host.results ∧ t.hist.pins = s.hist.pins ∧
      t.hist.memWrites = s.hist.memWrites ∧ t.host.busy = false ∧ SriAtReset t.sri ∧
      StreamerAtReset t.iqs) ∧
  ∀ (s u : State) (i : Instr) (pre gs : List (List Move)) (gap : List Move) (tr : List PinRecord),
    isSri i = true → s.sched.gaps = pre ++ gap :: gs → gapsAll Move.notReset pre = true →
    .reset ∈ gap → exec i { s with sched.gaps := pre } = .next u → u.hist.pins = s.hist.pins ++ tr →
    (pre.length < tr.length → ∃ t, exec i s = .next t ∧ t.host.results = s.host.results ∧
      t.hist.memWrites = s.hist.memWrites ∧ t.hist.pins = s.hist.pins ++ tr.take pre.length ∧
      t.host.busy = false ∧ SriAtReset t.sri ∧ StreamerAtReset t.iqs ∧ t.sched.gaps = gs) ∧
    (tr.length ≤ pre.length →
      exec i s = .next { u with sched.gaps := pre.drop tr.length ++ gap :: gs })

/-- R22, R35: no CONSUMER step reads `OSR` while `OSR_CNT = 0`, nor a slot outside the `LEVEL` slots from `RD` (none at
`LEVEL = 0`): with other contents there the step does the same and leaves those contents, or loads `OSR` first. -/
def Obligations.UnwrittenContentsAreNeverRead : Prop :=
  ∀ (i : Instr) (s t : State),
    (i = .cWaitILow ∨ i = .cShiftI ∨ i = .cWaitQHigh ∨ i = .cShiftQ) → exec i s = .next t →
    (∀ x : Word, s.iqs.osrCnt = 0 →
      exec i { s with iqs.osr := x } = .next t ∨
      exec i { s with iqs.osr := x } = .next { t with iqs.osr := x }) ∧
    (∀ f : Vector Word 8,
      (∀ k < s.iqs.level, f[s.iqs.rd + Fin.ofNat 8 k] = s.iqs.fifo[s.iqs.rd + Fin.ofNat 8 k]) →
      exec i { s with iqs.fifo := f } = .next { t with iqs.fifo := f })

/-! ### The streamer's host operations (`42_streamer.md`) -/

/-- R160: PUSH with room stores the word at the tail and touches nothing else of the streamer, whatever ACTIVE is; it is
refused outside 32 bits and held without room (R161). -/
def Obligations.PushAppendsAtTheTail : Prop :=
  ∀ (s : State) (w : Int),
    (0 ≤ w → w < 2 ^ 32 → s.iqs.level < 8 →
      exec (.push w) s = .next { s with
        iqs.fifo := s.iqs.fifo.set s.iqs.wr (BitVec.ofInt 32 w)
        iqs.wr := s.iqs.wr + 1
        iqs.level := s.iqs.level + 1
        hist.pushed := s.hist.pushed ++ [BitVec.ofInt 32 w]
        host.held := none
        host.results := s.host.results ++ [.ok .unit] }) ∧
    (0 ≤ w → w < 2 ^ 32 → s.iqs.level = 8 →
      exec (.push w) s = .next { s with host.held := some (BitVec.ofInt 32 w) }) ∧
    ((w < 0 ∨ 2 ^ 32 ≤ w) →
      exec (.push w) s =
        .next { s with host.results := s.host.results ++ [.refused .operandRange] })

/-- R162: ACTIVATE writes ACTIVE and nothing else, at any `LEVEL` and whatever ACTIVE was. -/
def Obligations.ActivateWritesActiveAlone : Prop :=
  ∀ s : State, exec .activate s = .next { s with
    iqs.active := true, host.results := s.host.results ++ [.ok .unit] }

/-- R164: DEACTIVATE writes ACTIVE and nothing else, and while ACTIVE = 0 no CONSUMER step changes anything, so no
underrun can occur. R164 says CONSUMER then has no step; that the instructions of its steps answer the unchanged state is
the model's reading (log 17). -/
def Obligations.DeactivateHaltsTheConsumer : Prop :=
  (∀ s : State, exec .deactivate s = .next { s with
    iqs.active := false, host.results := s.host.results ++ [.ok .unit] }) ∧
  ∀ s : State, s.iqs.active = false →
    exec .cWaitILow s = .next s ∧ exec .cShiftI s = .next s ∧ exec .cWaitQHigh s = .next s ∧
    exec .cShiftQ s = .next s ∧ runMove s .consumer = s

/-- R41 to R44, R180: READ_STATUS returns register `n` with every field in its place and the reserved bits 0, and
changes nothing; other numbers are refused. -/
def Obligations.StatusRegisterLayout : Prop :=
  ∀ s : State, s.iqs.level ≤ 8 → s.iqs.osrCnt ≤ 8 →
    (∃ w : Word,
      exec (.readStatus 0) s = .next { s with host.results := s.host.results ++ [.ok (.word w)] } ∧
      w.getLsbD 0 = s.iqs.active ∧ w.getLsbD 1 = s.iqs.underrun ∧ w.getLsbD 2 = s.iqs.starved ∧
      w.getLsbD 3 = decide (s.iqs.level = 0) ∧ w.getLsbD 4 = decide (s.iqs.level = 8) ∧
      (w.extractLsb' 5 4).toNat = s.iqs.level ∧
      (w.extractLsb' 9 2).toNat =
        (match s.iqs.state with
          | .waitILow => 0
          | .shiftI => 1
          | .waitQHigh => 2
          | .shiftQ => 3) ∧
      (w.extractLsb' 11 4).toNat = s.iqs.osrCnt ∧ w.extractLsb' 15 4 = s.iqs.d ∧
      w.extractLsb' 19 13 = 0) ∧
    exec (.readStatus 1) s =
      .next { s with host.results := s.host.results ++ [.ok (.word s.iqs.underrunCount)] } ∧
    (∃ w : Word,
      exec (.readStatus 2) s = .next { s with host.results := s.host.results ++ [.ok (.word w)] } ∧
      w.getLsbD 0 = s.sri.sclk ∧ w.getLsbD 1 = decide (s.sri.sdioDir = .output) ∧
      w.getLsbD 2 = s.sri.sdioOut ∧ w.getLsbD 3 = decide (s.sri.sdioPull = .up) ∧
      w.getLsbD 4 = s.sri.busFault ∧ w.extractLsb' 5 2 = s.sri.busFaultCause ∧
      w.extractLsb' 7 8 = s.sri.sr ∧ w.extractLsb' 15 17 = 0) ∧
    (∀ n : Int, (n < 0 ∨ 2 < n) →
      exec (.readStatus n) s =
        .next { s with host.results := s.host.results ++ [.refused .operandRange] }) ∧
    iqsStatus State.reset.iqs = 0x00000008 ∧ State.reset.iqs.underrunCount = 0 ∧
    (sriStatus State.reset.sri = 0x00000000 ∨ sriStatus State.reset.sri = 0x00000008)

/-- R182: CLEAR_UNDERRUN clears the flag alone; a machine still starved does not report that starvation again. -/
def Obligations.ClearUnderrunClearsTheFlagAlone : Prop :=
  ∀ s : State,
    exec .clearUnderrun s = .next { s with
      iqs.underrun := false, host.results := s.host.results ++ [.ok .unit] } ∧
    (s.iqs.starved = true → s.iqs.osrCnt = 0 → s.iqs.level = 0 →
      exec .cShiftI { s with iqs.underrun := false } = .next { s with iqs.underrun := false })

/-- R184: RESET_STREAMER writes the ten elements of the rule in one step, and neither `OSR`, nor the slots, nor the SRI,
nor BUS_FAULT. -/
def Obligations.ResetStreamerWritesTheStreamerAlone : Prop :=
  ∀ s : State, exec .resetStreamer s = .next { s with
    iqs := { s.iqs with
      active := false, state := .waitILow, osrCnt := 0, wr := 0, rd := 0, level := 0, d := 0b0000,
      underrun := false, starved := false, underrunCount := 0 }
    hist.pushed := []
    hist.emitted := []
    hist.dWrites := s.hist.dWrites ++ [⟨.restart, 0⟩]
    host.results := s.host.results ++ [.ok .unit] }

/-! ### The CONSUMER's steps -/

/-- R166, R168: a WAIT step moves STATE on when PCLK is at the awaited level, and otherwise changes nothing. -/
def Obligations.WaitStepsTestTheLevel : Prop :=
  ∀ s : State, s.iqs.active = true →
    (s.iqs.state = .waitILow →
      exec .cWaitILow s =
        .next (if s.env.pclk = false then { s with iqs.state := .shiftI } else s)) ∧
    (s.iqs.state = .waitQHigh →
      exec .cWaitQHigh s =
        .next (if s.env.pclk = true then { s with iqs.state := .shiftQ } else s))

/-- R170, R171: `Shift()` in both SHIFT steps. Starved, it records an underrun once and stalls; otherwise it dequeues if
`OSR_CNT = 0`, puts the next nibble on the pins, advances `OSR`, and STATE moves on. -/
def Obligations.ShiftStepsEmitOneNibble : Prop :=
  (∀ n : Nibble, pinMapped .identity n = n) ∧
  ∀ (s : State) (i : Instr) (lane : Lane) (next : StreamState), s.iqs.active = true →
    (s.iqs.state = .shiftI ∧ i = .cShiftI ∧ lane = .i ∧ next = .waitQHigh ∨
      s.iqs.state = .shiftQ ∧ i = .cShiftQ ∧ lane = .q ∧ next = .waitILow) →
    (s.iqs.osrCnt = 0 → s.iqs.level = 0 → s.iqs.starved = true → exec i s = .next s) ∧
    (s.iqs.osrCnt = 0 → s.iqs.level = 0 → s.iqs.starved = false →
      exec i s = .next { s with
        iqs.starved := true
        iqs.underrun := true
        iqs.underrunCount := BitVec.ofNat 32 (min (s.iqs.underrunCount.toNat + 1) 0xFFFFFFFF) }) ∧
    ∀ (word : Word) (count : Nat) (rd : Fin 8) (level : Nat),
      (s.iqs.osrCnt ≠ 0 ∧ word = s.iqs.osr ∧ count = s.iqs.osrCnt ∧ rd = s.iqs.rd ∧
          level = s.iqs.level ∨
        s.iqs.osrCnt = 0 ∧ s.iqs.level ≠ 0 ∧ word = s.iqs.fifo[s.iqs.rd] ∧ count = 8 ∧
          rd = s.iqs.rd + 1 ∧ level = s.iqs.level - 1) →
      ∀ (nibble : Nibble) (rest : Word),
        (s.cfg.nibbleOrder = .lsnFirst ∧ nibble = word.extractLsb' 0 4 ∧ rest = word >>> 4 ∨
          s.cfg.nibbleOrder = .msnFirst ∧ nibble = word.extractLsb' 28 4 ∧ rest = word <<< 4) →
        exec i s = .next { s with
          iqs := { s.iqs with
            starved := false, d := pinMapped s.cfg.pinMap nibble, osr := rest, osrCnt := count - 1,
            rd := rd, level := level, state := next }
          hist.emitted := s.hist.emitted ++ [(lane, pinMapped s.cfg.pinMap nibble)]
          hist.dWrites := s.hist.dWrites ++ [⟨.shift lane, pinMapped s.cfg.pinMap nibble⟩] }

/-- R172: an underrun is recorded in one place only, a `SHIFT_I` step with ACTIVE = 1, `OSR_CNT = 0`, `LEVEL = 0` and
`STARVED = 0`, and its whole effect is three writes. -/
def Obligations.UnderrunOnlyWhenANibbleIsMissing : Prop :=
  ∀ s : State, StreamInv s →
    (s.iqs.active = true → s.iqs.state = .shiftI → s.iqs.osrCnt = 0 → s.iqs.level = 0 →
      s.iqs.starved = false →
      exec .cShiftI s = .next { s with
        iqs.starved := true, iqs.underrun := true,
        iqs.underrunCount := BitVec.ofNat 32 (min (s.iqs.underrunCount.toNat + 1) 0xFFFFFFFF) }) ∧
    (∀ (i : Instr) (t : State), isSri i = false → exec i s = .next t →
      (t.iqs.underrun = true ∧ s.iqs.underrun = false ∨
        s.iqs.underrunCount.toNat < t.iqs.underrunCount.toNat) →
      i = .cShiftI ∧ s.iqs.active = true ∧ s.iqs.state = .shiftI ∧ s.iqs.osrCnt = 0 ∧
        s.iqs.level = 0 ∧ s.iqs.starved = false) ∧
    (∀ m : Move,
      ((runMove s m).iqs.underrun = true ∧ s.iqs.underrun = false ∨
        s.iqs.underrunCount.toNat < (runMove s m).iqs.underrunCount.toNat) →
      m = .consumer ∧ s.iqs.active = true ∧ s.iqs.state = .shiftI ∧ s.iqs.osrCnt = 0 ∧
        s.iqs.level = 0 ∧ s.iqs.starved = false)

/-- R40 (e): UNDERRUN_COUNT never decreases except at RESET_STREAMER and at the reset event. -/
def Obligations.UnderrunCountNeverDecreases : Prop :=
  ∀ (i : Instr) (s t : State), i ≠ .resetStreamer → gapsAll Move.notReset s.sched.gaps = true →
    exec i s = .next t → s.iqs.underrunCount.toNat ≤ t.iqs.underrunCount.toNat

/-- R186: keeping `LEVEL > 0` is enough for a CONSUMER step to record no underrun. -/
def Obligations.NonEmptyQueueNeverUnderruns : Prop :=
  ∀ (i : Instr) (s t : State),
    (i = .cWaitILow ∨ i = .cShiftI ∨ i = .cWaitQHigh ∨ i = .cShiftQ) → 0 < s.iqs.level →
    exec i s = .next t →
    t.iqs.underrun = s.iqs.underrun ∧ t.iqs.underrunCount = s.iqs.underrunCount ∧
    (t.iqs.starved = true → s.iqs.starved = true)

/-- R23, R175: outside RESET_STREAMER, STATE stays or moves to its one successor, to `SHIFT_I` only on PCLK low and
to `SHIFT_Q` only on PCLK high, and only by the step STATE selects. -/
def Obligations.StateMovesAlongTheCycle : Prop :=
  ∀ (i : Instr) (s t : State), isSri i = false → i ≠ .resetStreamer → exec i s = .next t →
    t.iqs.state = s.iqs.state ∨
    (t.iqs.state = s.iqs.state.successor ∧ s.iqs.active = true ∧
      (t.iqs.state = .shiftI → i = .cWaitILow ∧ s.env.pclk = false) ∧
      (t.iqs.state = .shiftQ → i = .cWaitQHigh ∧ s.env.pclk = true) ∧
      (t.iqs.state = .waitQHigh → i = .cShiftI ∧ ∃ n, t.hist.emitted = s.hist.emitted ++ [(.i, n)]) ∧
      (t.iqs.state = .waitILow → i = .cShiftQ ∧ ∃ n, t.hist.emitted = s.hist.emitted ++ [(.q, n)]))

/-! ### The control bus (`40_control_bus.md`, `10_state.md` R30) -/

/-- R30: the level of the data line, and `KEEP <- LINE` after every pin event (a sample returns that level) and every
change of EXT; a `draw()` takes the next free bit, and a sample draws twice, for the level it returns and for KEEP
(log 9). -/
def Obligations.LevelOfTheDataLine : Prop :=
  ∀ (r : Sri) (v : Env) (s : State) (e : PinEvent) (x : Ext) (l : Bool),
    (v.ext = .drive l → r.sdioDir = .input → lineLevel r v = some l) ∧
    (v.ext = .drive l → r.sdioDir = .output → l = r.sdioOut → lineLevel r v = some l) ∧
    (v.ext = .drive l → r.sdioDir = .output → l ≠ r.sdioOut → lineLevel r v = none) ∧
    (v.ext = .z → r.sdioDir = .output → lineLevel r v = some r.sdioOut) ∧
    (v.ext = .z → r.sdioDir = .input → r.sdioPull = .up → lineLevel r v = some true) ∧
    (v.ext = .z → r.sdioDir = .input → r.sdioPull = .down → v.keep = false →
      lineLevel r v = some false) ∧
    (v.ext = .z → r.sdioDir = .input → r.sdioPull = .down → v.keep = true → lineLevel r v = none) ∧
    (lineLevel (applyPin e s.sri) s.env = some l → (pinAct e s).env.keep = l) ∧
    (lineLevel (applyPin e s.sri) s.env = none →
      (pinAct e s).env.keep = Config.freeBit s.env.draws ∧ (pinAct e s).env.draws = s.env.draws + 1) ∧
    (lineLevel s.sri s.env = some l →
      (sampleAct s).1 = l ∧ (sampleAct s).2.env.keep = l ∧ (sampleAct s).2.sri = s.sri) ∧
    (lineLevel s.sri s.env = none →
      (sampleAct s).1 = Config.freeBit s.env.draws ∧
      (sampleAct s).2.env.keep = Config.freeBit (s.env.draws + 1) ∧
      (sampleAct s).2.env.draws = s.env.draws + 2 ∧ (sampleAct s).2.sri = s.sri) ∧
    (lineLevel s.sri { s.env with ext := x } = some l → (runMove s (.ext x)).env.keep = l)

/-- R120, R121. Under any moves of the other agents IS_BUS_IDLE raises nothing and takes 2 or 5 events; its answer is what
its samples say, each of its own moment. Where TARGET's drive does not change during the operation (CONSUMER and
PCLK_SOURCE may do as they like): undriven the probe passes, driven low or high it fails. -/
def Obligations.ProbeOutcomeByDrive : Prop :=
  (∀ s : State, s.sri.busFault = false → gapsAll Move.notReset s.sched.gaps = true →
    ∃ t tr b, exec .isBusIdle s = .next t ∧
      t.host.results = s.host.results ++ [.ok (.bool b)] ∧ t.hist.pins = s.hist.pins ++ tr ∧
      (b = false ∧ tr.map PinRecord.event = failedProbeEvents 1 ∧ sampledLevels tr = [false] ∧
          t.sri = { s.sri with sdioDir := .input, sdioPull := .up } ∨
        b = false ∧ tr.map PinRecord.event = failedProbeEvents 2 ∧ sampledLevels tr = [true, true] ∧
          t.sri = { s.sri with sdioDir := .input, sdioOut := false, sdioPull := .down } ∨
        b = true ∧ tr.map PinRecord.event = probeEvents ∧ sampledLevels tr = [true, false] ∧
          t.sri = { s.sri with sdioDir := .input, sdioOut := false, sdioPull := .down })) ∧
  ∀ s : State, s.sri.busFault = false → gapsAll Move.steady s.sched.gaps = true →
    (s.env.ext = .z → ∃ t tr, exec .isBusIdle s = .next t ∧
      t.host.results = s.host.results ++ [.ok (.bool true)] ∧
      t.sri = { s.sri with sdioDir := .input, sdioOut := false, sdioPull := .down } ∧
      t.hist.pins = s.hist.pins ++ tr ∧ tr.map PinRecord.event = probeEvents ∧
      sampledLevels tr = [true, false]) ∧
    (s.env.ext = .drive false → ∃ t tr, exec .isBusIdle s = .next t ∧
      t.host.results = s.host.results ++ [.ok (.bool false)] ∧
      t.sri = { s.sri with sdioDir := .input, sdioPull := .up } ∧
      t.hist.pins = s.hist.pins ++ tr ∧ tr.map PinRecord.event = failedProbeEvents 1 ∧
      sampledLevels tr = [false]) ∧
    (s.env.ext = .drive true → ∃ t tr, exec .isBusIdle s = .next t ∧
      t.host.results = s.host.results ++ [.ok (.bool false)] ∧
      t.sri = { s.sri with sdioDir := .input, sdioOut := false, sdioPull := .down } ∧
      t.hist.pins = s.hist.pins ++ tr ∧ tr.map PinRecord.event = failedProbeEvents 2 ∧
      sampledLevels tr = [true, true])

/-- R122: SERIAL_WRITE on a line nobody drives: OK, the 29 events, the eight levels at the rising edges the bits of the
byte most significant first, the pin left an output driving bit 0, pull DOWN, SCLK and BITCNT 0. -/
def Obligations.SerialWriteOnAnUndrivenLine : Prop :=
  ∀ (s : State) (b : Int), s.sri.busFault = false → 0 ≤ b → b ≤ 255 → s.env.ext = .z →
    gapsAll Move.steady s.sched.gaps = true →
    ∃ t tr, exec (.serialWrite b) s = .next t ∧
      t.host.results = s.host.results ++ [.ok .unit] ∧
      t.hist.pins = s.hist.pins ++ tr ∧ tr.map PinRecord.event = writeEvents (BitVec.ofInt 8 b) ∧
      risingLevels tr = byteBits (BitVec.ofInt 8 b) ∧
      t.sri = { s.sri with
        sclk := false, sdioDir := .output, sdioOut := (BitVec.ofInt 8 b).getLsbD 0, sdioPull := .down,
        bitcnt := 0 } ∧
      t.hist.memWrites = s.hist.memWrites

/-- R124: SERIAL_WRITE on a driven line takes BusNotIdle: the two fault fields, `FAULT(1, (cause, 0))`, no event after
the failing sample, so no rising edge; the pin as the probe left it. -/
def Obligations.SerialWriteOnADrivenLineFaults : Prop :=
  ∀ (s : State) (b : Int) (v : Bool), s.sri.busFault = false → 0 ≤ b → b ≤ 255 →
    s.env.ext = .drive v → gapsAll Move.steady s.sched.gaps = true →
    ∃ t tr, exec (.serialWrite b) s = .next t ∧
      t.host.results = s.host.results ++ [.busNotIdle (if v then 2 else 1) 0] ∧
      t.hist.pins = s.hist.pins ++ tr ∧
      tr.map PinRecord.event = failedProbeEvents (if v then 2 else 1) ∧
      risingLevels tr = [] ∧
      t.sri =
        (if v then
          { s.sri with sdioDir := .input, sdioOut := false, sdioPull := .down,
                       busFault := true, busFaultCause := 2 }
        else
          { s.sri with sdioDir := .input, sdioPull := .up, busFault := true, busFaultCause := 1 })

/-- R122, R123, R124: SERIAL_WRITE under any moves of TARGET, PCLK_SOURCE and CONSUMER between its events: either it
succeeds with exactly the 29 events, none of them conditional on the environment, the pin left driving bit 0, or
it faults with the events of a failed probe and not one bit out, the pin as the probe left it. -/
def Obligations.SerialWriteIsWholeOrNothing : Prop :=
  ∀ (s : State) (b : Int), s.sri.busFault = false → 0 ≤ b → b ≤ 255 →
    gapsAll Move.notReset s.sched.gaps = true →
    ∃ t tr, exec (.serialWrite b) s = .next t ∧ t.hist.pins = s.hist.pins ++ tr ∧
      (t.host.results = s.host.results ++ [.ok .unit] ∧
          tr.map PinRecord.event = writeEvents (BitVec.ofInt 8 b) ∧ tr.length = 29 ∧
          (risingLevels tr).length = 8 ∧ t.sri.busFault = false ∧
          t.sri = { s.sri with
            sclk := false, sdioDir := .output, sdioOut := (BitVec.ofInt 8 b).getLsbD 0,
            sdioPull := .down, bitcnt := 0 } ∨
        ∃ cause, (cause = 1 ∨ cause = 2) ∧
          t.host.results = s.host.results ++ [.busNotIdle cause 0] ∧
          tr.map PinRecord.event = failedProbeEvents cause ∧ risingLevels tr = [] ∧
          t.sri = { s.sri with
            sdioDir := .input, sdioOut := if cause = 1 then s.sri.sdioOut else false,
            sdioPull := if cause = 1 then .up else .down, busFault := true, busFaultCause := cause })

/-- R126, R127: SERIAL_READ under any moves of the other agents: OK with the byte whose bits are the eight samples, the
first of them bit 7; the 25 events; the pin an input with its pull as it was, SCLK and BITCNT 0, SR the byte. -/
def Obligations.SerialReadReturnsTheSamples : Prop :=
  ∀ s : State, s.sri.busFault = false → gapsAll Move.notReset s.sched.gaps = true →
    ∃ t tr v, exec .serialRead s = .next t ∧
      t.host.results = s.host.results ++ [.ok (.byte v)] ∧
      t.hist.pins = s.hist.pins ++ tr ∧ tr.map PinRecord.event = readEvents ∧ tr.length = 25 ∧
      sampledLevels tr = byteBits v ∧
      t.sri = { s.sri with sclk := false, sdioDir := .input, sr := v, bitcnt := 0 }

/-- R135: a byte written on an undriven line and read back from the levels at its rising edges is the same byte. -/
def Obligations.LoopbackReproducesTheByte : Prop :=
  ∀ (s t u v : State) (b : Int) (out back : List PinRecord),
    s.sri.busFault = false → 0 ≤ b → b ≤ 255 → s.env.ext = .z →
    gapsAll Move.steady s.sched.gaps = true →
    exec (.serialWrite b) s = .next t → t.hist.pins = s.hist.pins ++ out →
    u.sri.busFault = false → gapsAll Move.notReset u.sched.gaps = true →
    exec .serialRead u = .next v → v.hist.pins = u.hist.pins ++ back →
    sampledLevels back = risingLevels out →
    v.host.results = u.host.results ++ [.ok (.byte (BitVec.ofInt 8 b))]

/-- R130: WRITE_REG on a line nobody drives: the command byte and the payload go out whole and in order, the frame is
written to the target, OK. -/
def Obligations.WriteRegSendsTheFrame : Prop :=
  ∀ (s : State) (addr : Int) (payload : List Int), s.sri.busFault = false →
    0 ≤ addr → addr ≤ 127 → 1 ≤ payload.length → payload.length ≤ s.cfg.widthMax →
    (∀ v ∈ payload, 0 ≤ v ∧ v ≤ 255) → s.env.ext = .z → gapsAll Move.steady s.sched.gaps = true →
    ∀ frame : List Byte, frame = BitVec.ofInt 8 (0x00 + addr) :: payload.map (BitVec.ofInt 8) →
    ∃ t tr, exec (.writeReg addr payload) s = .next t ∧
      t.host.results = s.host.results ++ [.ok .unit] ∧
      t.hist.memWrites =
        s.hist.memWrites ++ [⟨BitVec.ofInt 7 addr, payload.map (BitVec.ofInt 8)⟩] ∧
      t.hist.pins = s.hist.pins ++ tr ∧
      tr.map PinRecord.event = frame.flatMap writeEvents ∧ tr.length = 29 * (1 + payload.length) ∧
      risingLevels tr = frame.flatMap byteBits ∧
      t.sri = { s.sri with
        sclk := false, sdioDir := .output, sdioOut := (frame.getLast?.getD 0).getLsbD 0,
        sdioPull := .down, bitcnt := 0 }

/-- R130, R221: WRITE_REG under any moves of the other agents is precise: it completes, or it stops at the probe of one
byte with every byte before it out whole and not one bit of it or of a later byte; `done` counts the bytes out,
and the target's record of completed frames is unchanged. -/
def Obligations.WriteRegFaultsPrecisely : Prop :=
  ∀ (s : State) (addr : Int) (payload : List Int), s.sri.busFault = false →
    0 ≤ addr → addr ≤ 127 → 1 ≤ payload.length → payload.length ≤ s.cfg.widthMax →
    (∀ v ∈ payload, 0 ≤ v ∧ v ≤ 255) → gapsAll Move.notReset s.sched.gaps = true →
    ∀ frame : List Byte, frame = BitVec.ofInt 8 (0x00 + addr) :: payload.map (BitVec.ofInt 8) →
    ∃ t tr, exec (.writeReg addr payload) s = .next t ∧ t.hist.pins = s.hist.pins ++ tr ∧
      (t.host.results = s.host.results ++ [.ok .unit] ∧
          tr.map PinRecord.event = frame.flatMap writeEvents ∧ t.sri.busFault = false ∧
          t.sri = { s.sri with
            sclk := false, sdioDir := .output, sdioOut := (frame.getLast?.getD 0).getLsbD 0,
            sdioPull := .down, bitcnt := 0 } ∧
          t.hist.memWrites =
            s.hist.memWrites ++ [⟨BitVec.ofInt 7 addr, payload.map (BitVec.ofInt 8)⟩] ∨
        ∃ cause done, (cause = 1 ∨ cause = 2) ∧ done < frame.length ∧
          t.host.results = s.host.results ++ [.busNotIdle cause done] ∧
          tr.map PinRecord.event =
            (frame.take done).flatMap writeEvents ++ failedProbeEvents cause ∧
          t.sri.busFault = true ∧ t.sri.busFaultCause = cause ∧
          t.hist.memWrites = s.hist.memWrites)

/-- R133: READ_REG whose command byte meets a line nobody drives (its 29 events; afterwards TARGET may do anything):
the command byte goes out, then `width` bytes come in, and the result is the bytes of the samples in order. -/
def Obligations.ReadRegReturnsWhatTheLineCarries : Prop :=
  ∀ (s : State) (addr width : Int), s.sri.busFault = false → 0 ≤ addr → addr ≤ 127 →
    1 ≤ width → width ≤ s.cfg.widthMax → s.env.ext = .z →
    gapsAll Move.steady (s.sched.gaps.take 29) = true →
    gapsAll Move.notReset (s.sched.gaps.drop 29) = true →
    ∃ t cmd tr bytes, exec (.readReg addr width) s = .next t ∧
      t.host.results = s.host.results ++ [.ok (.bytes bytes)] ∧ (bytes.length : Int) = width ∧
      t.hist.pins = s.hist.pins ++ cmd ++ tr ∧
      cmd.map PinRecord.event = writeEvents (BitVec.ofInt 8 (0x80 + addr)) ∧
      risingLevels cmd = byteBits (BitVec.ofInt 8 (0x80 + addr)) ∧
      tr.map PinRecord.event = (List.replicate bytes.length readEvents).flatten ∧
      sampledLevels tr = bytes.flatMap byteBits ∧
      t.sri = { s.sri with
        sclk := false, sdioDir := .input, sdioOut := (BitVec.ofInt 8 (0x80 + addr)).getLsbD 0,
        sdioPull := .down, sr := bytes.getLast?.getD 0, bitcnt := 0 } ∧
      t.hist.memWrites = s.hist.memWrites

/-- R133: READ_REG under any moves of the other agents: OK with the `width` bytes of the samples after the command byte,
in order, the pin an input with pull DOWN and SR the last byte; or BusNotIdle from the one probe before the
command byte, the pin as that probe left it. The reads cannot fault, and nothing is written to the target. -/
def Obligations.ReadRegFaultsOnlyBeforeTheCommand : Prop :=
  ∀ (s : State) (addr width : Int), s.sri.busFault = false → 0 ≤ addr → addr ≤ 127 →
    1 ≤ width → width ≤ s.cfg.widthMax → gapsAll Move.notReset s.sched.gaps = true →
    ∃ t tr, exec (.readReg addr width) s = .next t ∧ t.hist.pins = s.hist.pins ++ tr ∧
      t.hist.memWrites = s.hist.memWrites ∧
      ((∃ bytes, t.host.results = s.host.results ++ [.ok (.bytes bytes)] ∧
          (bytes.length : Int) = width ∧
          tr.map PinRecord.event =
            writeEvents (BitVec.ofInt 8 (0x80 + addr)) ++
              (List.replicate width.toNat readEvents).flatten ∧
          tr.length = 29 + 25 * width.toNat ∧
          sampledLevels (tr.drop 29) = bytes.flatMap byteBits ∧ t.sri.busFault = false ∧
          t.sri = { s.sri with
            sclk := false, sdioDir := .input, sdioOut := (BitVec.ofInt 8 (0x80 + addr)).getLsbD 0,
            sdioPull := .down, sr := bytes.getLast?.getD 0, bitcnt := 0 }) ∨
        ∃ cause, (cause = 1 ∨ cause = 2) ∧
          t.host.results = s.host.results ++ [.busNotIdle cause 0] ∧
          tr.map PinRecord.event = failedProbeEvents cause ∧ risingLevels tr = [] ∧
          t.sri = { s.sri with
            sdioDir := .input, sdioOut := if cause = 1 then s.sri.sdioOut else false,
            sdioPull := if cause = 1 then .up else .down, busFault := true, busFaultCause := cause })

/-- The two rows of `CMD8` (log 4, the model's reading of R92 and R93): putting the command byte of a frame on the wire
is SERIAL_WRITE of that byte, and completes on a line nobody drives. -/
def Obligations.CommandByteIsOneSerialWrite : Prop :=
  ∀ (s : State) (addr : RegAddr),
    exec (.cmdWrite addr) s = exec (.serialWrite (addr.toNat : Int)) s ∧
    exec (.cmdRead addr) s = exec (.serialWrite (128 + (addr.toNat : Int))) s ∧
    (s.sri.busFault = false → s.env.ext = .z → gapsAll Move.steady s.sched.gaps = true →
      (∃ t tr, exec (.cmdWrite addr) s = .next t ∧
        t.host.results = s.host.results ++ [.ok .unit] ∧ t.hist.pins = s.hist.pins ++ tr ∧
        risingLevels tr = false :: (byteBits (addr.setWidth 8)).tail) ∧
      (∃ t tr, exec (.cmdRead addr) s = .next t ∧
        t.host.results = s.host.results ++ [.ok .unit] ∧ t.hist.pins = s.hist.pins ++ tr ∧
        risingLevels tr = true :: (byteBits (addr.setWidth 8)).tail))

/-- R136: whatever the other agents do, a reset event in the middle included, no SRI operation moves the data pin while
the clock is high. -/
def Obligations.DataMovesOnlyWhileTheClockIsLow : Prop :=
  ∀ (i : Instr) (s t : State) (tr : List PinRecord), isSri i = true → s.sri.sclk = false →
    exec i s = .next t → t.hist.pins = s.hist.pins ++ tr →
    dataMovesWhileLow false (tr.map PinRecord.event) = true

/-- R83: no SRI operation reads or writes the streamer's state or the reverse. What an SRI operation does and returns is
the same whatever the streamer holds, under any moves of the other agents; it leaves the streamer as it was
where neither CONSUMER nor a reset moves during it; and the streamer's operations and steps, READ_STATUS
apart, do the same whatever the SRI holds. -/
def Obligations.SriAndStreamerAreIndependent : Prop :=
  (∀ (i : Instr) (s s' t t' : State), isSri i = true → SameBut s s' →
    exec i s = .next t → exec i s' = .next t' → SameBut t t') ∧
  (∀ (i : Instr) (s t : State), isSri i = true → gapsAll Move.environment s.sched.gaps = true →
    exec i s = .next t →
    t.iqs = s.iqs ∧ t.hist.pushed = s.hist.pushed ∧ t.hist.emitted = s.hist.emitted ∧
    t.hist.dWrites = s.hist.dWrites) ∧
  ∀ (i : Instr) (s t : State) (r : Sri), isSri i = false → (∀ n, i ≠ .readStatus n) →
    exec i s = .next t → t.sri = s.sri ∧ exec i { s with sri := r } = .next { t with sri := r }

/-- The frame of the SRI operations: the configuration, HOST's program, a held word and the turns stay, and an operation
that is not WRITE_REG writes no register of the target. -/
def Obligations.SriOperationsLeaveTheRest : Prop :=
  ∀ (i : Instr) (s t : State), isSri i = true → gapsAll Move.notReset s.sched.gaps = true →
    exec i s = .next t →
    t.cfg = s.cfg ∧ t.host.program = s.host.program ∧ t.host.held = s.host.held ∧
    t.sched.turns = s.sched.turns ∧ t.hist.pushed = s.hist.pushed ∧
    ((∀ addr payload, i ≠ .writeReg addr payload) → t.hist.memWrites = s.hist.memWrites)

/-! ### The tuning word (`41_ftw_payload.md`) -/

/-- R150: TO_FTW is the nearest integer to the exact quotient, a tie by ROUND_TIE, reduced modulo `2^32`, and changes
nothing; `sysclk <= 0` is refused. That HALF_AWAY sends a tie farther from zero is the model's reading of the rule's name
(log 19). -/
def Obligations.ToFtwIsTheNearestInteger : Prop :=
  ∀ (s : State) (freq sysclk : Rat),
    (0 < sysclk → ∃ (n : Int) (w : Word),
      exec (.toFtw freq sysclk) s =
        .next { s with host.results := s.host.results ++ [.ok (.word w)] } ∧
      (w.toNat : Int) = n % 2 ^ 32 ∧
      |freq * 2 ^ 32 / sysclk - n| ≤ 1 / 2 ∧
      (|freq * 2 ^ 32 / sysclk - n| = 1 / 2 →
        match s.cfg.roundTie with
        | .halfEven => n % 2 = 0
        | .halfAway => |freq * 2 ^ 32 / sysclk| ≤ |(n : Rat)|)) ∧
    (sysclk ≤ 0 →
      exec (.toFtw freq sysclk) s =
        .next { s with host.results := s.host.results ++ [.refused .operandRange] })

/-- R152 (a): TO_FTW is monotonic non-decreasing in `freq` below the Nyquist bound. -/
def Obligations.TuningWordIsMonotonic : Prop :=
  ∀ (s : State) (f1 f2 sysclk : Rat) (w1 w2 : Word), 0 ≤ f1 → f1 ≤ f2 → f2 < sysclk / 2 →
    exec (.toFtw f1 sysclk) s =
      .next { s with host.results := s.host.results ++ [.ok (.word w1)] } →
    exec (.toFtw f2 sysclk) s =
      .next { s with host.results := s.host.results ++ [.ok (.word w2)] } →
    w1.toNat ≤ w2.toNat

/-- R152 (b), R151: converting the word back differs from `freq` by at most half of `fstep` wherever the result does not
wrap, and at `sysclk/2` the word is exactly `2^31`. -/
def Obligations.TuningWordRoundTrip : Prop :=
  ∀ (s : State) (freq sysclk : Rat) (w : Word), 0 < sysclk →
    exec (.toFtw freq sysclk) s =
      .next { s with host.results := s.host.results ++ [.ok (.word w)] } →
    (-(1 / 2) < freq * 2 ^ 32 / sysclk → freq * 2 ^ 32 / sysclk < 2 ^ 32 - 1 / 2 →
      |(w.toNat : Rat) * sysclk / 2 ^ 32 - freq| ≤ sysclk / 2 ^ 32 / 2) ∧
    (freq = sysclk / 2 → w = 0x80000000)

/-- R153, R98: FTW_BYTES is the four bytes of the word, most significant first, and changes nothing; outside 32 bits it
is refused. -/
def Obligations.FtwBytesAreBigEndian : Prop :=
  ∀ (s : State) (ftw : Int),
    (0 ≤ ftw → ftw < 2 ^ 32 → ∃ b3 b2 b1 b0 : Byte,
      exec (.ftwBytes ftw) s =
        .next { s with host.results := s.host.results ++ [.ok (.bytes [b3, b2, b1, b0])] } ∧
      ftw = b3.toNat * 2 ^ 24 + b2.toNat * 2 ^ 16 + b1.toNat * 2 ^ 8 + b0.toNat) ∧
    ((ftw < 0 ∨ 2 ^ 32 ≤ ftw) →
      exec (.ftwBytes ftw) s =
        .next { s with host.results := s.host.results ++ [.refused .operandRange] })

/-! ### The packer (`43_packer.md`) and the order of nibbles -/

/-- R200: QCLIP is total, clips to 0 or 15 and says so, and changes nothing. -/
def Obligations.QclipClipsAndSaysSo : Prop :=
  ∀ (s : State) (v : Int), ∃ (n : Nibble) (clipped : Bool),
    exec (.qclip v) s =
      .next { s with host.results := s.host.results ++ [.ok (.clip n clipped)] } ∧
    (n.toNat : Int) = min (max v 0) 15 ∧ (clipped = true ↔ v < 0 ∨ 15 < v)

/-- R202, and R203 (which the spec derives): PACK is `i | q << 4`, a bijection from pairs of nibbles to bytes with
`UNPACK` its inverse; outside 0 to 15 it is refused. -/
def Obligations.PackIsABijection : Prop :=
  (∀ (s : State) (i q : Int), 0 ≤ i → i ≤ 15 → 0 ≤ q → q ≤ 15 → ∃ b : Byte,
    exec (.pack i q) s = .next { s with host.results := s.host.results ++ [.ok (.byte b)] } ∧
    (b.toNat : Int) = i + 16 * q ∧
    ((unpackByte b).1.toNat : Int) = i ∧ ((unpackByte b).2.toNat : Int) = q) ∧
  (∀ (s : State) (b : Byte),
    exec (.pack ((unpackByte b).1.toNat : Int) ((unpackByte b).2.toNat : Int)) s =
      .next { s with host.results := s.host.results ++ [.ok (.byte b)] }) ∧
  ∀ (s : State) (i q : Int), (i < 0 ∨ 15 < i ∨ q < 0 ∨ 15 < q) →
    exec (.pack i q) s =
      .next { s with host.results := s.host.results ++ [.refused .operandRange] }

/-- R204: ASSEMBLE_WORD makes one word of every four bytes: little-endian under `LSN_FIRST`, nibble-swapped big-endian
under `MSN_FIRST`; other byte counts and elements are refused. -/
def Obligations.AssembleWordPacksFourBytes : Prop :=
  ∀ (s : State) (bytes : List Int),
    (bytes.length % 4 = 0 → (∀ v ∈ bytes, 0 ≤ v ∧ v ≤ 255) → ∃ ws : List Word,
      exec (.assembleWord bytes) s =
        .next { s with host.results := s.host.results ++ [.ok (.words ws)] } ∧
      ws.length = bytes.length / 4 ∧
      ∀ (j : Nat) (b0 b1 b2 b3 : Int) (w : Word),
        bytes[4 * j]? = some b0 → bytes[4 * j + 1]? = some b1 → bytes[4 * j + 2]? = some b2 →
        bytes[4 * j + 3]? = some b3 → ws[j]? = some w →
        match s.cfg.nibbleOrder with
        | .lsnFirst => (w.toNat : Int) = b3 * 2 ^ 24 + b2 * 2 ^ 16 + b1 * 2 ^ 8 + b0
        | .msnFirst =>
          (w.toNat : Int) =
            (16 * (b0 % 16) + b0 / 16) * 2 ^ 24 + (16 * (b1 % 16) + b1 / 16) * 2 ^ 16 +
            (16 * (b2 % 16) + b2 / 16) * 2 ^ 8 + (16 * (b3 % 16) + b3 / 16)) ∧
    ((bytes.length % 4 ≠ 0 ∨ ∃ v ∈ bytes, v < 0 ∨ 255 < v) →
      exec (.assembleWord bytes) s =
        .next { s with host.results := s.host.results ++ [.refused .operandRange] })

/-- R96: the idle word is emitted `8, 0, 8, 0, 8, 0, 8, 0` under either order. -/
def Obligations.IdleWordAlternates : Prop :=
  idleWord .lsnFirst = 0x08080808 ∧ idleWord .msnFirst = 0x80808080 ∧
  ∀ o : NibbleOrder, slots o (idleWord o) = [8, 0, 8, 0, 8, 0, 8, 0]

/-- R205: samples packed and assembled leave the streamer in sample order, I then Q, under either order: the slots of the
assembled words are `i0, q0, i1, q1, ...`. -/
def Obligations.PackedSamplesKeepTheirOrder : Prop :=
  ∀ (s : State) (samples : List (Nibble × Nibble)), samples.length % 4 = 0 →
    ∃ ws : List Word,
      exec (.assembleWord (samples.map fun p => ((packByte p.1 p.2).toNat : Int))) s =
        .next { s with host.results := s.host.results ++ [.ok (.words ws)] } ∧
      ws.flatMap (slots s.cfg.nibbleOrder) = samples.flatMap fun p => [p.1, p.2]

/-! ### Every step of the machine -/

/-- The invariant holds after reset (R40 "All hold at reset"). -/
def Obligations.InvariantAtReset : Prop := Inv State.reset

/-- R40, R36, R24, R28, R128, R174: every step of the machine keeps the invariant: HOST's operations, CONSUMER's steps,
the environment's moves and the reset event, inside and outside SRI operations. -/
def Obligations.EveryStepKeepsTheInvariant : Prop :=
  ∀ s t : State, Inv s → step s = .next t → Inv t

/-- R174: what was written to `D` is a prefix of the slots of the words pushed, in order, by `SHIFT_I` at even places
and by `SHIFT_Q` at odd ones, after every step from a state in which it was. -/
def Obligations.EmissionLawOfEveryStep : Prop :=
  ∀ s t : State, StreamInv s → EmissionLaw s → step s = .next t →
    EmissionLaw t ∧
    t.hist.emitted.map Prod.snd <+:
      (t.hist.pushed.flatMap (slots t.cfg.nibbleOrder)).map (pinMapped t.cfg.pinMap)

/-- R28, R232: in every step but the reset event a bus fault stays with its cause and no pin moves; the reset event
clears it. -/
def Obligations.BusFaultStaysUntilReset : Prop :=
  ∀ s t : State, s.sri.busFault = true → step s = .next t →
    (s.sched.turns.head? ≠ some (.move .reset) → t.sri = s.sri ∧ t.hist.pins = s.hist.pins) ∧
    (s.sched.turns.head? = some (.move .reset) → t.sri.busFault = false ∧ t.sri.busFaultCause = 0)

/-- R72: no step changes the configuration. -/
def Obligations.ConfigurationNeverChanges : Prop :=
  ∀ s t : State, step s = .next t → t.cfg = s.cfg

/-- No instruction stops the machine: every one answers a next state in every state and leaves HOST outside any SRI
operation (R220, R231, R241 "No SRI operation can hang"). -/
def Obligations.EveryInstructionAnswersANextState : Prop :=
  ∀ (i : Instr) (s : State), ∃ t, exec i s = .next t ∧ (s.host.busy = false → t.host.busy = false)

/-- R238: the event history is never erased: no step, by any agent, the reset event and RESET_STREAMER among them, takes
anything out of the pin events, the values written to `D`, the MemWrites and the results; and no move of another agent
between two pin events does. -/
def Obligations.HistoryIsNeverErased : Prop :=
  (∀ s t : State, step s = .next t →
    s.hist.pins <+: t.hist.pins ∧ s.hist.dWrites <+: t.hist.dWrites ∧
    s.hist.memWrites <+: t.hist.memWrites ∧ s.host.results <+: t.host.results) ∧
  ∀ (s : State) (m : Move),
    (runMove s m).hist.pins = s.hist.pins ∧ s.hist.dWrites <+: (runMove s m).hist.dWrites ∧
    (runMove s m).hist.memWrites = s.hist.memWrites ∧ (runMove s m).host.results = s.host.results

/-- R106: the pseudo-operations do what their expansions do. RESTART (PRELOAD_IDLE within it) leaves the streamer active
with eight idle words; WRITE_FTW is TO_FTW, FTW_BYTES and WRITE_REG, each fed by the one before, and TO_FTW's refusal
alone for `sysclk <= 0`; READ_REG without a width is width 8; PACK_SAMPLES is one PACK a sample, a value if all of them
have one and a refusal if one is refused (that a refusal inside an expansion is its outcome is log 25). -/
def Obligations.PseudoOperationsDoTheirExpansions : Prop :=
  (∀ (s : State) (o : NibbleOrder), ∃ t, issueAll (restart o) s = .next t ∧
    t.iqs = { s.iqs with
      fifo := Vector.replicate 8 (idleWord o), wr := 0, rd := 0, level := 8, osrCnt := 0,
      state := .waitILow, active := true, d := 0, underrun := false, starved := false,
      underrunCount := 0 } ∧
    iqsStatus t.iqs = 0x00000111 ∧ t.sri = s.sri ∧ t.hist.pins = s.hist.pins ∧
    t.hist.pushed = List.replicate 8 (idleWord o) ∧
    t.host.results = s.host.results ++ List.replicate 10 (.ok .unit)) ∧
  (∀ (s : State) (addr : Int) (freq sysclk : Rat),
    (sysclk ≤ 0 → issueAll (writeFtw s.cfg.roundTie addr freq sysclk) s =
      .next { s with host.results := s.host.results ++ [.refused .operandRange] }) ∧
    (0 < sysclk → ∃ (w : Word) (bytes : List Byte),
      exec (.toFtw freq sysclk) s =
        .next { s with host.results := s.host.results ++ [.ok (.word w)] } ∧
      exec (.ftwBytes w.toNat) s =
        .next { s with host.results := s.host.results ++ [.ok (.bytes bytes)] } ∧
      issueAll (writeFtw s.cfg.roundTie addr freq sysclk) s =
        exec (.writeReg addr (bytes.map fun b => (b.toNat : Int)))
          { s with host.results := s.host.results ++ [.ok (.word w), .ok (.bytes bytes)] })) ∧
  (∀ addr : Int, readRegDefault addr = .readReg addr 8) ∧
  ∀ (s : State) (samples : List (Int × Int)), ∃ rs : List Result,
    issueAll (packSamplesOps samples) s =
      .next { s with host.results := s.host.results ++ rs } ∧
    rs.length = samples.length ∧
    ((∃ bs, packSamples samples = .ok (.bytes bs) ∧ rs = bs.map fun b => .ok (.byte b)) ∨
      packSamples samples = .refused .operandRange ∧ .refused .operandRange ∈ rs)
end

