-- ==== Sys2Proof/Laws/State.lean ====
section
/-! SUPPORT. What each named update of the state leaves alone and what it writes, one small lemma each. -/

namespace Sys2Proof.Machine

variable (s : State) (q : Iqs) (r : Sri) (v : Env)

/-! ### Results -/

@[simp] theorem returnOk_cfg (x : Value) : (returnOk x s).cfg = s.cfg := rfl
@[simp] theorem returnOk_sri (x : Value) : (returnOk x s).sri = s.sri := rfl
@[simp] theorem returnOk_iqs (x : Value) : (returnOk x s).iqs = s.iqs := rfl
@[simp] theorem returnOk_env (x : Value) : (returnOk x s).env = s.env := rfl
@[simp] theorem returnOk_sched (x : Value) : (returnOk x s).sched = s.sched := rfl
@[simp] theorem returnOk_hist (x : Value) : (returnOk x s).hist = s.hist := rfl
@[simp] theorem returnOk_program (x : Value) : (returnOk x s).host.program = s.host.program := rfl
@[simp] theorem returnOk_held (x : Value) : (returnOk x s).host.held = s.host.held := rfl
@[simp] theorem returnOk_busy (x : Value) : (returnOk x s).host.busy = s.host.busy := rfl
@[simp] theorem returnOk_results (x : Value) :
    (returnOk x s).host.results = s.host.results ++ [.ok x] := rfl

@[simp] theorem refuse_cfg (c : RefuseCode) : (refuse c s).cfg = s.cfg := rfl
@[simp] theorem refuse_sri (c : RefuseCode) : (refuse c s).sri = s.sri := rfl
@[simp] theorem refuse_iqs (c : RefuseCode) : (refuse c s).iqs = s.iqs := rfl
@[simp] theorem refuse_env (c : RefuseCode) : (refuse c s).env = s.env := rfl
@[simp] theorem refuse_sched (c : RefuseCode) : (refuse c s).sched = s.sched := rfl
@[simp] theorem refuse_hist (c : RefuseCode) : (refuse c s).hist = s.hist := rfl
@[simp] theorem refuse_program (c : RefuseCode) : (refuse c s).host.program = s.host.program := rfl
@[simp] theorem refuse_held (c : RefuseCode) : (refuse c s).host.held = s.host.held := rfl
@[simp] theorem refuse_busy (c : RefuseCode) : (refuse c s).host.busy = s.host.busy := rfl
@[simp] theorem refuse_results (c : RefuseCode) :
    (refuse c s).host.results = s.host.results ++ [.refused c] := rfl

/-! ### The pins and the line -/

@[simp] theorem applyPin_sr (e : PinEvent) : (applyPin e r).sr = r.sr := by cases e <;> rfl
@[simp] theorem applyPin_bitcnt (e : PinEvent) : (applyPin e r).bitcnt = r.bitcnt := by cases e <;> rfl
@[simp] theorem applyPin_busFault (e : PinEvent) : (applyPin e r).busFault = r.busFault := by
  cases e <;> rfl
@[simp] theorem applyPin_busFaultCause (e : PinEvent) :
    (applyPin e r).busFaultCause = r.busFaultCause := by cases e <;> rfl
@[simp] theorem applyPin_sample : applyPin .sample r = r := rfl

theorem resolveLine_of_some {l : Bool} (h : lineLevel r v = some l) : resolveLine r v = (l, v) := by
  simp [resolveLine, h]

@[simp] theorem resolveLine_ext : (resolveLine r v).2.ext = v.ext := by
  unfold resolveLine; split <;> rfl
@[simp] theorem resolveLine_pclk : (resolveLine r v).2.pclk = v.pclk := by
  unfold resolveLine; split <;> rfl
@[simp] theorem resolveLine_keep : (resolveLine r v).2.keep = v.keep := by
  unfold resolveLine; split <;> rfl
@[simp] theorem retainLine_ext : (retainLine r v).ext = v.ext := resolveLine_ext r v
@[simp] theorem retainLine_pclk : (retainLine r v).pclk = v.pclk := resolveLine_pclk r v
@[simp] theorem retainLine_keep : (retainLine r v).keep = (resolveLine r v).1 := rfl

@[simp] theorem pinAct_cfg (e : PinEvent) : (pinAct e s).cfg = s.cfg := rfl
@[simp] theorem pinAct_sri (e : PinEvent) : (pinAct e s).sri = applyPin e s.sri := rfl
@[simp] theorem pinAct_iqs (e : PinEvent) : (pinAct e s).iqs = s.iqs := rfl
@[simp] theorem pinAct_env (e : PinEvent) : (pinAct e s).env = retainLine (applyPin e s.sri) s.env := rfl
@[simp] theorem pinAct_host (e : PinEvent) : (pinAct e s).host = s.host := rfl
@[simp] theorem pinAct_sched (e : PinEvent) : (pinAct e s).sched = s.sched := rfl
@[simp] theorem pinAct_memWrites (e : PinEvent) : (pinAct e s).hist.memWrites = s.hist.memWrites := rfl
@[simp] theorem pinAct_pushed (e : PinEvent) : (pinAct e s).hist.pushed = s.hist.pushed := rfl
@[simp] theorem pinAct_emitted (e : PinEvent) : (pinAct e s).hist.emitted = s.hist.emitted := rfl
@[simp] theorem pinAct_pins (e : PinEvent) :
    (pinAct e s).hist.pins = s.hist.pins ++ [⟨e, (resolveLine (applyPin e s.sri) s.env).1⟩] := rfl

@[simp] theorem sampleAct_level : (sampleAct s).1 = (resolveLine s.sri s.env).1 := rfl
@[simp] theorem sampleAct_cfg : (sampleAct s).2.cfg = s.cfg := rfl
@[simp] theorem sampleAct_sri : (sampleAct s).2.sri = s.sri := rfl
@[simp] theorem sampleAct_iqs : (sampleAct s).2.iqs = s.iqs := rfl
@[simp] theorem sampleAct_env :
    (sampleAct s).2.env = retainLine s.sri (resolveLine s.sri s.env).2 := rfl
@[simp] theorem sampleAct_host : (sampleAct s).2.host = s.host := rfl
@[simp] theorem sampleAct_sched : (sampleAct s).2.sched = s.sched := rfl
@[simp] theorem sampleAct_memWrites : (sampleAct s).2.hist.memWrites = s.hist.memWrites := rfl
@[simp] theorem sampleAct_pushed : (sampleAct s).2.hist.pushed = s.hist.pushed := rfl
@[simp] theorem pinAct_dWrites (e : PinEvent) : (pinAct e s).hist.dWrites = s.hist.dWrites := rfl
@[simp] theorem sampleAct_dWrites : (sampleAct s).2.hist.dWrites = s.hist.dWrites := rfl
@[simp] theorem sampleAct_emitted : (sampleAct s).2.hist.emitted = s.hist.emitted := rfl
@[simp] theorem sampleAct_pins :
    (sampleAct s).2.hist.pins = s.hist.pins ++ [⟨.sample, (resolveLine s.sri s.env).1⟩] := rfl

/-! ### The queue and the streamer -/

@[simp] theorem enqueue_cfg (w : Word) : (enqueue w s).cfg = s.cfg := rfl
@[simp] theorem enqueue_sri (w : Word) : (enqueue w s).sri = s.sri := rfl
@[simp] theorem enqueue_env (w : Word) : (enqueue w s).env = s.env := rfl
@[simp] theorem enqueue_host (w : Word) : (enqueue w s).host = s.host := rfl
@[simp] theorem enqueue_sched (w : Word) : (enqueue w s).sched = s.sched := rfl
@[simp] theorem enqueue_level (w : Word) : (enqueue w s).iqs.level = s.iqs.level + 1 := rfl
@[simp] theorem enqueue_wr (w : Word) : (enqueue w s).iqs.wr = s.iqs.wr + 1 := rfl
@[simp] theorem enqueue_rd (w : Word) : (enqueue w s).iqs.rd = s.iqs.rd := rfl
@[simp] theorem enqueue_fifo (w : Word) : (enqueue w s).iqs.fifo = s.iqs.fifo.set s.iqs.wr w := rfl
@[simp] theorem enqueue_osr (w : Word) : (enqueue w s).iqs.osr = s.iqs.osr := rfl
@[simp] theorem enqueue_osrCnt (w : Word) : (enqueue w s).iqs.osrCnt = s.iqs.osrCnt := rfl
@[simp] theorem enqueue_state (w : Word) : (enqueue w s).iqs.state = s.iqs.state := rfl
@[simp] theorem enqueue_active (w : Word) : (enqueue w s).iqs.active = s.iqs.active := rfl
@[simp] theorem enqueue_d (w : Word) : (enqueue w s).iqs.d = s.iqs.d := rfl
@[simp] theorem enqueue_underrun (w : Word) : (enqueue w s).iqs.underrun = s.iqs.underrun := rfl
@[simp] theorem enqueue_starved (w : Word) : (enqueue w s).iqs.starved = s.iqs.starved := rfl
@[simp] theorem enqueue_underrunCount (w : Word) :
    (enqueue w s).iqs.underrunCount = s.iqs.underrunCount := rfl
@[simp] theorem enqueue_pins (w : Word) : (enqueue w s).hist.pins = s.hist.pins := rfl
@[simp] theorem enqueue_memWrites (w : Word) : (enqueue w s).hist.memWrites = s.hist.memWrites := rfl
@[simp] theorem enqueue_emitted (w : Word) : (enqueue w s).hist.emitted = s.hist.emitted := rfl
@[simp] theorem enqueue_dWrites (w : Word) : (enqueue w s).hist.dWrites = s.hist.dWrites := rfl
@[simp] theorem enqueue_pushed (w : Word) : (enqueue w s).hist.pushed = s.hist.pushed ++ [w] := rfl

@[simp] theorem dequeue_fifo : (dequeue q).fifo = q.fifo := rfl
@[simp] theorem dequeue_wr : (dequeue q).wr = q.wr := rfl
@[simp] theorem dequeue_rd : (dequeue q).rd = q.rd + 1 := rfl
@[simp] theorem dequeue_level : (dequeue q).level = q.level - 1 := rfl
@[simp] theorem dequeue_osr : (dequeue q).osr = q.fifo[q.rd] := rfl
@[simp] theorem dequeue_osrCnt : (dequeue q).osrCnt = 8 := rfl
@[simp] theorem dequeue_state : (dequeue q).state = q.state := rfl
@[simp] theorem dequeue_active : (dequeue q).active = q.active := rfl
@[simp] theorem dequeue_underrun : (dequeue q).underrun = q.underrun := rfl
@[simp] theorem dequeue_underrunCount : (dequeue q).underrunCount = q.underrunCount := rfl

@[simp] theorem emitNibble_fifo (c : Config) : (emitNibble c q).fifo = q.fifo := rfl
@[simp] theorem emitNibble_wr (c : Config) : (emitNibble c q).wr = q.wr := rfl
@[simp] theorem emitNibble_rd (c : Config) : (emitNibble c q).rd = q.rd := rfl
@[simp] theorem emitNibble_level (c : Config) : (emitNibble c q).level = q.level := rfl
@[simp] theorem emitNibble_osr (c : Config) : (emitNibble c q).osr = advance c.nibbleOrder q.osr := rfl
@[simp] theorem emitNibble_osrCnt (c : Config) : (emitNibble c q).osrCnt = q.osrCnt - 1 := rfl
@[simp] theorem emitNibble_state (c : Config) : (emitNibble c q).state = q.state := rfl
@[simp] theorem emitNibble_active (c : Config) : (emitNibble c q).active = q.active := rfl
@[simp] theorem emitNibble_d (c : Config) :
    (emitNibble c q).d = pinMapped c.pinMap (nextNibble c.nibbleOrder q.osr) := rfl
@[simp] theorem emitNibble_underrun (c : Config) : (emitNibble c q).underrun = q.underrun := rfl
@[simp] theorem emitNibble_starved (c : Config) : (emitNibble c q).starved = false := rfl
@[simp] theorem emitNibble_underrunCount (c : Config) :
    (emitNibble c q).underrunCount = q.underrunCount := rfl

@[simp] theorem starve_fifo : q.starve.fifo = q.fifo := by unfold Iqs.starve; split <;> rfl
@[simp] theorem starve_wr : q.starve.wr = q.wr := by unfold Iqs.starve; split <;> rfl
@[simp] theorem starve_rd : q.starve.rd = q.rd := by unfold Iqs.starve; split <;> rfl
@[simp] theorem starve_level : q.starve.level = q.level := by unfold Iqs.starve; split <;> rfl
@[simp] theorem starve_osr : q.starve.osr = q.osr := by unfold Iqs.starve; split <;> rfl
@[simp] theorem starve_osrCnt : q.starve.osrCnt = q.osrCnt := by unfold Iqs.starve; split <;> rfl
@[simp] theorem starve_state : q.starve.state = q.state := by unfold Iqs.starve; split <;> rfl
@[simp] theorem starve_active : q.starve.active = q.active := by unfold Iqs.starve; split <;> rfl
@[simp] theorem starve_d : q.starve.d = q.d := by unfold Iqs.starve; split <;> rfl
@[simp] theorem starve_starved : q.starve.starved = true := by
  unfold Iqs.starve; split <;> simp_all
theorem starve_of_starved (h : q.starved = true) : q.starve = q := by simp [Iqs.starve, h]

theorem shifted_stalls (c : Config) (hc : q.osrCnt = 0) (hl : q.level = 0) : shifted c q = none := by
  simp [shifted, hc, hl]
theorem shifted_dequeues (c : Config) (hc : q.osrCnt = 0) (hl : q.level ≠ 0) :
    shifted c q = some (emitNibble c (dequeue q)) := by simp [shifted, hc, hl]
theorem shifted_emits (c : Config) (hc : q.osrCnt ≠ 0) : shifted c q = some (emitNibble c q) := by
  simp [shifted, hc]

@[simp] theorem shiftStep_cfg (l : Lane) (n : StreamState) : (shiftStep l n s).cfg = s.cfg := by
  unfold shiftStep; split <;> rfl
@[simp] theorem shiftStep_sri (l : Lane) (n : StreamState) : (shiftStep l n s).sri = s.sri := by
  unfold shiftStep; split <;> rfl
@[simp] theorem shiftStep_env (l : Lane) (n : StreamState) : (shiftStep l n s).env = s.env := by
  unfold shiftStep; split <;> rfl
@[simp] theorem shiftStep_host (l : Lane) (n : StreamState) : (shiftStep l n s).host = s.host := by
  unfold shiftStep; split <;> rfl
@[simp] theorem shiftStep_sched (l : Lane) (n : StreamState) : (shiftStep l n s).sched = s.sched := by
  unfold shiftStep; split <;> rfl
@[simp] theorem shiftStep_pins (l : Lane) (n : StreamState) :
    (shiftStep l n s).hist.pins = s.hist.pins := by unfold shiftStep; split <;> rfl
@[simp] theorem shiftStep_memWrites (l : Lane) (n : StreamState) :
    (shiftStep l n s).hist.memWrites = s.hist.memWrites := by unfold shiftStep; split <;> rfl
@[simp] theorem shiftStep_pushed (l : Lane) (n : StreamState) :
    (shiftStep l n s).hist.pushed = s.hist.pushed := by unfold shiftStep; split <;> rfl

@[simp] theorem waitStep_cfg (b : Bool) (n : StreamState) : (waitStep b n s).cfg = s.cfg := by
  unfold waitStep; split <;> rfl
@[simp] theorem waitStep_sri (b : Bool) (n : StreamState) : (waitStep b n s).sri = s.sri := by
  unfold waitStep; split <;> rfl
@[simp] theorem waitStep_env (b : Bool) (n : StreamState) : (waitStep b n s).env = s.env := by
  unfold waitStep; split <;> rfl
@[simp] theorem waitStep_host (b : Bool) (n : StreamState) : (waitStep b n s).host = s.host := by
  unfold waitStep; split <;> rfl
@[simp] theorem waitStep_sched (b : Bool) (n : StreamState) : (waitStep b n s).sched = s.sched := by
  unfold waitStep; split <;> rfl
@[simp] theorem waitStep_hist (b : Bool) (n : StreamState) : (waitStep b n s).hist = s.hist := by
  unfold waitStep; split <;> rfl

/-! ### BusNotIdle, the restart and the reset event -/

@[simp] theorem takeBusNotIdle_cfg (c : BitVec 2) (n : Nat) : (takeBusNotIdle c n s).cfg = s.cfg := rfl
@[simp] theorem takeBusNotIdle_iqs (c : BitVec 2) (n : Nat) : (takeBusNotIdle c n s).iqs = s.iqs := rfl
@[simp] theorem takeBusNotIdle_env (c : BitVec 2) (n : Nat) : (takeBusNotIdle c n s).env = s.env := rfl
@[simp] theorem takeBusNotIdle_sched (c : BitVec 2) (n : Nat) :
    (takeBusNotIdle c n s).sched = s.sched := rfl
@[simp] theorem takeBusNotIdle_hist (c : BitVec 2) (n : Nat) : (takeBusNotIdle c n s).hist = s.hist := rfl
@[simp] theorem takeBusNotIdle_sri (c : BitVec 2) (n : Nat) :
    (takeBusNotIdle c n s).sri = { s.sri with busFault := true, busFaultCause := c } := rfl
@[simp] theorem takeBusNotIdle_host (c : BitVec 2) (n : Nat) :
    (takeBusNotIdle c n s).host =
      { s.host with busy := false, results := s.host.results ++ [.busNotIdle c n] } := rfl

@[simp] theorem restartStreamer_cfg : (restartStreamer s).cfg = s.cfg := rfl
@[simp] theorem restartStreamer_sri : (restartStreamer s).sri = s.sri := rfl
@[simp] theorem restartStreamer_env : (restartStreamer s).env = s.env := rfl
@[simp] theorem restartStreamer_host : (restartStreamer s).host = s.host := rfl
@[simp] theorem restartStreamer_sched : (restartStreamer s).sched = s.sched := rfl
@[simp] theorem restartStreamer_iqs : (restartStreamer s).iqs = s.iqs.restarted := rfl
@[simp] theorem restartStreamer_pins : (restartStreamer s).hist.pins = s.hist.pins := rfl
@[simp] theorem restartStreamer_memWrites :
    (restartStreamer s).hist.memWrites = s.hist.memWrites := rfl
@[simp] theorem restartStreamer_pushed : (restartStreamer s).hist.pushed = [] := rfl
@[simp] theorem restartStreamer_emitted : (restartStreamer s).hist.emitted = [] := rfl
@[simp] theorem restartStreamer_dWrites :
    (restartStreamer s).hist.dWrites = s.hist.dWrites ++ [⟨.restart, 0⟩] := rfl

@[simp] theorem resetEvent_cfg : (resetEvent s).cfg = s.cfg := rfl
@[simp] theorem resetEvent_sched : (resetEvent s).sched = s.sched := rfl
@[simp] theorem resetEvent_program : (resetEvent s).host.program = s.host.program := rfl
@[simp] theorem resetEvent_results : (resetEvent s).host.results = s.host.results := rfl
@[simp] theorem resetEvent_held : (resetEvent s).host.held = none := rfl
@[simp] theorem resetEvent_busy : (resetEvent s).host.busy = false := rfl
@[simp] theorem resetEvent_ext : (resetEvent s).env.ext = s.env.ext := rfl
@[simp] theorem resetEvent_pclk : (resetEvent s).env.pclk = s.env.pclk := rfl
@[simp] theorem resetEvent_pins : (resetEvent s).hist.pins = s.hist.pins := rfl
@[simp] theorem resetEvent_memWrites : (resetEvent s).hist.memWrites = s.hist.memWrites := rfl
@[simp] theorem resetEvent_pushed : (resetEvent s).hist.pushed = [] := rfl
@[simp] theorem resetEvent_emitted : (resetEvent s).hist.emitted = [] := rfl
@[simp] theorem resetEvent_dWrites :
    (resetEvent s).hist.dWrites = s.hist.dWrites ++ [⟨.reset, 0⟩] := rfl
theorem resetEvent_streamer : StreamerAtReset (resetEvent s).iqs := by constructor <;> rfl
theorem resetEvent_bus : SriAtReset (resetEvent s).sri := by constructor <;> rfl

/-! ### Parts of an operation -/

theorem whileBusy_of_busy (f : State → State) (h : s.host.busy = true) : whileBusy f s = f s := by
  simp [whileBusy, h]
theorem whileBusy_of_idle (f : State → State) (h : s.host.busy = false) : whileBusy f s = s := by
  simp [whileBusy, h]

/-- An operation that is over takes no further pin event. -/
theorem pinEvent_of_idle (e : PinEvent) (h : s.host.busy = false) : pinEvent e s = s :=
  whileBusy_of_idle s _ h
theorem sampleLine_of_idle (h : s.host.busy = false) : sampleLine s = (false, s) := by
  simp [sampleLine, h]
theorem pinEvent_of_busy (e : PinEvent) (h : s.host.busy = true) :
    pinEvent e s = whileBusy (pinAct e) (runGap s) := whileBusy_of_busy s _ h
theorem sampleLine_of_busy (h : s.host.busy = true) :
    sampleLine s = if (runGap s).host.busy then sampleAct (runGap s) else (false, runGap s) := by
  simp [sampleLine, h]

end Sys2Proof.Machine
end

