-- ==== Sys2Proof/Laws/Streamer.lean ====
section
/-! SUPPORT. The queue, the nibbles and the CONSUMER's steps: what each operation does to the invariant of the streamer
and to the emission law. -/

namespace Sys2Proof.Machine

/-! ### Nibbles -/

theorem nextNibble_eq_slot (o : NibbleOrder) (w : Word) : nextNibble o w = slot o w 0 := by
  cases o <;> rfl

theorem slot_advance (o : NibbleOrder) (w : Word) {k : Nat} (hk : k < 7) :
    slot o (advance o w) k = slot o w (k + 1) := by
  cases o
  · apply BitVec.eq_of_getLsbD_eq
    intro i hi
    simp [slot, advance, hi]
    congr 1; omega
  · apply BitVec.eq_of_getLsbD_eq
    intro i hi
    simp only [slot, advance, BitVec.getLsbD_extractLsb', hi, decide_true, Bool.true_and,
      BitVec.getLsbD_shiftLeft]
    have h1 : 28 - 4 * k + i < 32 := by omega
    have h2 : ¬ 28 - 4 * k + i < 4 := by omega
    simp only [h1, h2, decide_true, decide_false, Bool.true_and, Bool.not_false]
    congr 1; omega

/-- The nibbles left in a shift register are the next one and then those left after the advance. -/
theorem unemitted_cons (o : NibbleOrder) (w : Word) {n : Nat} (hn : n < 8) :
    (List.range (n + 1)).map (slot o w) =
      nextNibble o w :: (List.range n).map (slot o (advance o w)) := by
  rw [List.range_succ_eq_map, List.map_cons, List.map_map, nextNibble_eq_slot]
  congr 1
  apply List.map_congr_left
  intro k hk
  exact (slot_advance o w (by have := List.mem_range.mp hk; omega)).symm

@[simp] theorem pinMapped_identity (n : Nibble) : pinMapped .identity n = n := by
  revert n; decide

/-! ### The queue -/

theorem queued_dequeue (q : Iqs) (hl : q.level ≠ 0) :
    q.queued = q.fifo[q.rd] :: (dequeue q).queued := by
  obtain ⟨n, hn⟩ : ∃ n, q.level = n + 1 := ⟨q.level - 1, by omega⟩
  simp only [Iqs.queued, hn, dequeue_level, dequeue_fifo, dequeue_rd, Nat.add_sub_cancel,
    List.range_succ_eq_map, List.map_cons, List.map_map]
  congr 1
  · simp
  · apply List.map_congr_left
    intro k _
    have : q.rd + Fin.ofNat 8 (k + 1) = q.rd + 1 + Fin.ofNat 8 k := by
      apply Fin.ext
      simp [Fin.val_add]; omega
    simp only [Function.comp_apply, Nat.succ_eq_add_one, this]

theorem queued_enqueue (s : State) (w : Word) (hl : s.iqs.level < 8)
    (ring : s.iqs.level % 8 = (s.iqs.wr - s.iqs.rd).val) :
    (enqueue w s).iqs.queued = s.iqs.queued ++ [w] := by
  have hwr : s.iqs.rd + Fin.ofNat 8 s.iqs.level = s.iqs.wr := by
    apply Fin.ext
    simp only [Fin.sub_def, Fin.val_add, Fin.ofNat] at ring ⊢
    omega
  simp only [Iqs.queued, enqueue_level, enqueue_fifo, enqueue_rd, List.range_succ, List.map_append,
    List.map_cons, List.map_nil]
  congr 1
  · apply List.map_congr_left
    intro k hk
    have hk' := List.mem_range.mp hk
    have hne : (s.iqs.wr : Nat) ≠ ((s.iqs.rd + Fin.ofNat 8 k : Fin 8) : Nat) := by
      rw [← hwr]
      simp only [Fin.val_add, Fin.ofNat]
      omega
    exact (Vector.getElem_set_ne _ _ hne)
  · have hget : ∀ p : Fin 8, p = s.iqs.wr → (s.iqs.fifo.set s.iqs.wr w)[p] = w := by
      rintro _ rfl
      exact Vector.getElem_set_self _
    rw [List.cons.injEq]
    exact ⟨hget _ hwr, rfl⟩

/-! ### What CONSUMER's turn is -/

theorem consumerStep_inactive (s : State) (h : s.iqs.active = false) : consumerStep s = s := by
  unfold consumerStep; split <;> simp [whenSelected, h]

/-- Everything CONSUMER's turn can do (R165 to R170). -/
theorem consumerStep_cases (s : State) (h : s.iqs.active = true) :
    (s.iqs.state = .waitILow ∧ consumerStep s = stepWaitILow s) ∨
    (s.iqs.state = .shiftI ∧ consumerStep s = stepShiftI s) ∨
    (s.iqs.state = .waitQHigh ∧ consumerStep s = stepWaitQHigh s) ∨
    (s.iqs.state = .shiftQ ∧ consumerStep s = stepShiftQ s) := by
  unfold consumerStep whenSelected
  cases hs : s.iqs.state <;> simp [h]

/-- Everything a SHIFT step can do (R170). -/
theorem shiftStep_cases (l : Lane) (n : StreamState) (s : State) :
    (s.iqs.osrCnt = 0 ∧ s.iqs.level = 0 ∧ shiftStep l n s = { s with iqs := s.iqs.starve }) ∨
    (∃ q, (s.iqs.osrCnt = 0 ∧ s.iqs.level ≠ 0 ∧ q = dequeue s.iqs ∨ s.iqs.osrCnt ≠ 0 ∧ q = s.iqs) ∧
      shiftStep l n s =
        { s with
          iqs := { emitNibble s.cfg q with state := n }
          hist.emitted := s.hist.emitted ++ [(l, (emitNibble s.cfg q).d)]
          hist.dWrites := s.hist.dWrites ++ [⟨.shift l, (emitNibble s.cfg q).d⟩] }) := by
  by_cases hc : s.iqs.osrCnt = 0
  · by_cases hl : s.iqs.level = 0
    · exact .inl ⟨hc, hl, by simp [shiftStep, shifted_stalls _ _ hc hl]⟩
    · exact .inr ⟨_, .inl ⟨hc, hl, rfl⟩, by simp [shiftStep, shifted_dequeues _ _ hc hl]⟩
  · exact .inr ⟨_, .inr ⟨hc, rfl⟩, by simp [shiftStep, shifted_emits _ _ hc]⟩

/-! ### The moves of other agents leave the SRI alone (R83) -/

theorem consumerStep_frame (s : State) :
    (consumerStep s).cfg = s.cfg ∧ (consumerStep s).sri = s.sri ∧ (consumerStep s).env = s.env ∧
    (consumerStep s).host = s.host ∧ (consumerStep s).sched = s.sched ∧
    (consumerStep s).hist.pins = s.hist.pins ∧ (consumerStep s).hist.memWrites = s.hist.memWrites ∧
    (consumerStep s).hist.pushed = s.hist.pushed := by
  cases h : s.iqs.active
  · simp [consumerStep_inactive s h]
  · obtain ⟨-, e⟩ | ⟨-, e⟩ | ⟨-, e⟩ | ⟨-, e⟩ := consumerStep_cases s h <;>
      simp [e, stepWaitILow, stepShiftI, stepWaitQHigh, stepShiftQ]

/-! ### The invariant and the emission law -/

/-- The streamer's part of the state decides its invariant. -/
theorem StreamInv.congr {s t : State} (h : StreamInv s) (e : t.iqs = s.iqs) : StreamInv t :=
  ⟨e ▸ h.level_le, e ▸ h.osrCnt_le, e ▸ h.ring, e ▸ h.parity, e ▸ h.starved, e ▸ h.counted⟩

theorem EmissionLaw.congr {s t : State} (h : EmissionLaw s) (e : t.iqs = s.iqs) (c : t.cfg = s.cfg)
    (p : t.hist.pushed = s.hist.pushed) (m : t.hist.emitted = s.hist.emitted) : EmissionLaw t := by
  constructor
  · rw [e, c, p, m]; exact h.nibbles
  · rw [m]; exact h.lanes

theorem StreamerAtReset.streamInv {s : State} (h : StreamerAtReset s.iqs) : StreamInv s := by
  constructor <;> simp [h.level, h.osrCnt, h.wr, h.rd, h.state, h.starved, h.underrun,
    StreamState.parity]

theorem StreamerAtReset.emissionLaw {s : State} (h : StreamerAtReset s.iqs) (p : s.hist.pushed = [])
    (m : s.hist.emitted = []) : EmissionLaw s := by
  constructor <;> simp [p, m, Iqs.unemitted, Iqs.queued, h.level, h.osrCnt]

theorem restarted_atReset (q : Iqs) : StreamerAtReset q.restarted := by constructor <;> rfl

theorem saturatingSucc_ne_zero (c : Word) : saturatingSucc c ≠ 0 := by
  unfold saturatingSucc
  split
  · rename_i h; rw [h]; decide
  · rename_i h
    intro h0
    apply h
    have : c = c + 1 - 1 := by simp
    rw [this, h0]; decide

theorem saturatingSucc_le (c : Word) : c.toNat ≤ (saturatingSucc c).toNat := by
  unfold saturatingSucc
  split
  · exact Nat.le_refl _
  · rename_i h
    have hc : c.toNat ≠ 4294967295 := fun hn => h (BitVec.eq_of_toNat_eq hn)
    have := c.isLt
    rw [BitVec.toNat_add]
    simp
    omega

theorem StreamInv.enqueue {s : State} (h : StreamInv s) (hl : s.iqs.level < 8) (w : Word) :
    StreamInv (enqueue w s) := by
  refine ⟨?_, h.osrCnt_le, ?_, h.parity, h.starved, h.counted⟩
  · simp; omega
  · have := h.ring
    simp only [enqueue_level, enqueue_wr, enqueue_rd, Fin.sub_def, Fin.val_add, Fin.val_one] at this ⊢
    omega

theorem EmissionLaw.enqueue {s : State} (h : EmissionLaw s) (i : StreamInv s) (hl : s.iqs.level < 8)
    (w : Word) : EmissionLaw (enqueue w s) := by
  refine ⟨?_, h.lanes⟩
  have := h.nibbles
  simp only [enqueue_emitted, enqueue_cfg, enqueue_pushed, queued_enqueue s w hl i.ring,
    List.flatMap_append, List.map_append, ← this]
  simp [Iqs.unemitted]

theorem StreamInv.shiftStep {s : State} (h : StreamInv s) (l : Lane) (n : StreamState)
    (hn : n.parity = 1 - s.iqs.state.parity) (hs : s.iqs.state = .shiftI ∨ s.iqs.state = .shiftQ) :
    StreamInv (shiftStep l n s) := by
  obtain ⟨hc, hl, e⟩ | ⟨q, hq, e⟩ := shiftStep_cases l n s
  · rw [e]
    refine ⟨by simpa using h.level_le, by simpa using h.osrCnt_le, by simpa using h.ring,
      by simpa using h.parity, ?_, ?_⟩
    · intro _
      obtain hs | hs := hs
      · simp [hc, hs]
      · have := h.parity; simp [hc, hs, StreamState.parity] at this
    · intro hu
      by_cases hst : s.iqs.starved = true
      · rw [starve_of_starved _ hst] at hu ⊢; exact h.counted hu
      · have := saturatingSucc_ne_zero s.iqs.underrunCount
        simpa [Iqs.starve, hst] using this
  · have hpar := h.parity
    have hlt : s.iqs.state.parity < 2 := by cases s.iqs.state <;> decide
    have hle := h.level_le
    have hcle := h.osrCnt_le
    have hring := h.ring
    rw [e]
    obtain ⟨hc, hl, rfl⟩ | ⟨hc, rfl⟩ := hq
    · refine ⟨by simp; omega, by simp, ?_, ?_, by simp, fun hu => h.counted hu⟩
      · simp only [Fin.sub_def, dequeue_level, emitNibble_level, emitNibble_wr, emitNibble_rd, dequeue_wr,
          dequeue_rd, Fin.val_add, Fin.val_one] at hring ⊢
        omega
      · simp [hn]; omega
    · exact ⟨h.level_le, by simp; omega, h.ring, by simp [hn]; omega, by simp, h.counted⟩

theorem StreamInv.waitStep {s : State} (h : StreamInv s) (b : Bool) (n : StreamState)
    (hn : n.parity = s.iqs.state.parity) (hs : s.iqs.state ≠ .shiftI) : StreamInv (waitStep b n s) := by
  unfold Machine.waitStep
  split
  · exact ⟨h.level_le, h.osrCnt_le, h.ring, h.parity.trans hn.symm,
      fun hst => absurd (h.starved hst).2 hs, h.counted⟩
  · exact h

theorem StreamInv.consumerStep {s : State} (h : StreamInv s) : StreamInv (consumerStep s) := by
  cases ha : s.iqs.active
  · rw [consumerStep_inactive s ha]; exact h
  · obtain ⟨hs, e⟩ | ⟨hs, e⟩ | ⟨hs, e⟩ | ⟨hs, e⟩ := consumerStep_cases s ha <;> rw [e]
    · exact h.waitStep _ _ (by simp [hs, StreamState.parity]) (by simp [hs])
    · exact h.shiftStep _ _ (by simp [hs, StreamState.parity]) (.inl hs)
    · exact h.waitStep _ _ (by simp [hs, StreamState.parity]) (by simp [hs])
    · exact h.shiftStep _ _ (by simp [hs, StreamState.parity]) (.inr hs)

/-- The lanes alternate: the number emitted so far has the parity of what is left of the word (R40 (b)). -/
theorem EmissionLaw.parity {s : State} (h : EmissionLaw s) : s.hist.emitted.length % 2 = s.iqs.osrCnt % 2 := by
  have := congrArg List.length h.nibbles
  simp [slots, Iqs.unemitted, List.length_flatMap] at this
  omega

theorem EmissionLaw.shiftStep {s : State} (h : EmissionLaw s) (i : StreamInv s) (l : Lane) (n : StreamState)
    (hl : l = laneOf s.hist.emitted.length) : EmissionLaw (shiftStep l n s) := by
  obtain ⟨hc, hlev, e⟩ | ⟨q, hq, e⟩ := shiftStep_cases l n s
  · rw [e]
    refine ⟨?_, h.lanes⟩
    have := h.nibbles
    simpa [Iqs.unemitted, Iqs.queued] using this
  · have hpend : s.iqs.unemitted s.cfg.nibbleOrder ++ s.iqs.queued.flatMap (slots s.cfg.nibbleOrder) =
        nextNibble s.cfg.nibbleOrder q.osr ::
          ((emitNibble s.cfg q).unemitted s.cfg.nibbleOrder ++
            (emitNibble s.cfg q).queued.flatMap (slots s.cfg.nibbleOrder)) := by
      obtain ⟨hc, hlev, rfl⟩ | ⟨hc, rfl⟩ := hq
      · have h8 : slots s.cfg.nibbleOrder (dequeue s.iqs).osr =
            nextNibble s.cfg.nibbleOrder (dequeue s.iqs).osr ::
              (emitNibble s.cfg (dequeue s.iqs)).unemitted s.cfg.nibbleOrder :=
          unemitted_cons _ _ (by decide : 7 < 8)
        rw [queued_dequeue _ hlev, List.flatMap_cons]
        change _ ++ (slots s.cfg.nibbleOrder (dequeue s.iqs).osr ++ _) = _
        rw [h8]
        simp [Iqs.unemitted, Iqs.queued, hc]
      · obtain ⟨m, hm⟩ : ∃ m, s.iqs.osrCnt = m + 1 := ⟨s.iqs.osrCnt - 1, by omega⟩
        have hm8 : m < 8 := by have := i.osrCnt_le; omega
        have := unemitted_cons s.cfg.nibbleOrder s.iqs.osr hm8
        simp [Iqs.unemitted, Iqs.queued, hm, this]
    rw [e]
    constructor
    · have := h.nibbles
      rw [hpend] at this
      simp only [← this]
      simp [Iqs.unemitted, Iqs.queued]
    · simp [h.lanes, hl, List.range_succ]

theorem EmissionLaw.waitStep {s : State} (h : EmissionLaw s) (b : Bool) (n : StreamState) :
    EmissionLaw (waitStep b n s) := by
  unfold Machine.waitStep
  split
  · exact ⟨h.nibbles, h.lanes⟩
  · exact h

theorem EmissionLaw.consumerStep {s : State} (h : EmissionLaw s) (i : StreamInv s) :
    EmissionLaw (consumerStep s) := by
  cases ha : s.iqs.active
  · rw [consumerStep_inactive s ha]; exact h
  · have hp := h.parity
    have hq := i.parity
    obtain ⟨hs, e⟩ | ⟨hs, e⟩ | ⟨hs, e⟩ | ⟨hs, e⟩ := consumerStep_cases s ha <;> rw [e]
    · exact h.waitStep _ _
    · refine h.shiftStep i _ _ ?_
      rw [hs] at hq; simp [StreamState.parity] at hq; simp [laneOf, hp, hq]
    · exact h.waitStep _ _
    · refine h.shiftStep i _ _ ?_
      rw [hs] at hq; simp [StreamState.parity] at hq; simp [laneOf, hp, hq]

/-! ### The record of `D` (R238) -/

theorem DRecord.congr {s t : State} (h : DRecord s) (e : t.iqs = s.iqs) (m : t.hist.emitted = s.hist.emitted)
    (w : t.hist.dWrites = s.hist.dWrites) : DRecord t := by
  constructor
  · rw [e, w]; exact h.last
  · rw [m, w]; exact h.recent

/-- Nothing but a SHIFT step, RESET_STREAMER and the reset event writes `D`. -/
theorem DRecord.sameD {s t : State} (h : DRecord s) (e : t.iqs.d = s.iqs.d) (m : t.hist.emitted = s.hist.emitted)
    (w : t.hist.dWrites = s.hist.dWrites) : DRecord t := by
  constructor
  · rw [e, w]; exact h.last
  · rw [m, w]; exact h.recent

/-- A cleared `D` with the write on record. -/
theorem DRecord.restarted {s t : State} (k : DWriter) (e : t.iqs.d = 0) (m : t.hist.emitted = [])
    (w : t.hist.dWrites = s.hist.dWrites ++ [⟨k, 0⟩]) : DRecord t := by
  constructor
  · rw [e, w]; simp
  · rw [m, w]; simp

theorem DRecord.shiftStep {s : State} (h : DRecord s) (l : Lane) (n : StreamState) :
    DRecord (shiftStep l n s) := by
  obtain ⟨-, -, e⟩ | ⟨q, -, e⟩ := shiftStep_cases l n s
  · rw [e]; exact h.sameD (by simp) rfl rfl
  · rw [e]
    constructor
    · simp
    · obtain ⟨before, hb⟩ := h.recent
      exact ⟨before, by simp [← hb]⟩

theorem DRecord.waitStep {s : State} (h : DRecord s) (b : Bool) (n : StreamState) :
    DRecord (waitStep b n s) := by
  unfold Machine.waitStep
  split
  · exact h.sameD rfl rfl rfl
  · exact h

theorem DRecord.consumerStep {s : State} (h : DRecord s) : DRecord (consumerStep s) := by
  cases ha : s.iqs.active
  · rw [consumerStep_inactive s ha]; exact h
  · obtain ⟨-, e⟩ | ⟨-, e⟩ | ⟨-, e⟩ | ⟨-, e⟩ := consumerStep_cases s ha <;> rw [e]
    · exact h.waitStep _ _
    · exact h.shiftStep _ _
    · exact h.waitStep _ _
    · exact h.shiftStep _ _

theorem DRecord.runMove {s : State} (h : DRecord s) (m : Move) : DRecord (runMove s m) := by
  cases m with
  | consumer => exact h.consumerStep
  | ext e => exact h.congr rfl rfl rfl
  | pclk v => exact h.congr rfl rfl rfl
  | reset => exact .restarted .reset rfl rfl (resetEvent_dWrites s)

theorem StreamInv.runMove {s : State} (h : StreamInv s) (m : Move) : StreamInv (runMove s m) := by
  cases m with
  | consumer => exact h.consumerStep
  | ext e => exact h.congr rfl
  | pclk v => exact h.congr rfl
  | reset => exact (resetEvent_streamer s).streamInv

theorem EmissionLaw.runMove {s : State} (h : EmissionLaw s) (i : StreamInv s) (m : Move) :
    EmissionLaw (runMove s m) := by
  cases m with
  | consumer => exact h.consumerStep i
  | ext e => exact ⟨h.nibbles, h.lanes⟩
  | pclk v => exact ⟨h.nibbles, h.lanes⟩
  | reset => exact (resetEvent_streamer s).emissionLaw rfl rfl

end Sys2Proof.Machine
end

