-- ==== Sys2Proof/Laws/Bus.lean ====
section
/-! SUPPORT. What HOST's pin events, the probe and the byte transfers do: while no reset event falls inside the
operation (`Live`), and on a line whose drive does not change (`Steady`). -/

namespace Sys2Proof.Machine

/-- An SRI operation is in progress and no reset event is scheduled inside it. -/
structure Live (s : State) : Prop where
  busy : s.host.busy = true
  gaps : gapsAll Move.notReset s.sched.gaps = true

/-- From `s` to `t` inside one operation: HOST, the configuration and the turns are as before, and exactly `tr` was
recorded on the pins. -/
structure Went (s t : State) (tr : List PinRecord) : Prop where
  cfg       : t.cfg = s.cfg
  host      : t.host = s.host
  turns     : t.sched.turns = s.sched.turns
  memWrites : t.hist.memWrites = s.hist.memWrites
  pushed    : t.hist.pushed = s.hist.pushed
  pins      : t.hist.pins = s.hist.pins ++ tr

theorem Went.refl (s : State) : Went s s [] := ⟨rfl, rfl, rfl, rfl, rfl, by simp⟩

theorem Went.trans {s t u : State} {a b : List PinRecord} (h : Went s t a) (g : Went t u b) :
    Went s u (a ++ b) :=
  ⟨g.cfg.trans h.cfg, g.host.trans h.host, g.turns.trans h.turns, g.memWrites.trans h.memWrites,
    g.pushed.trans h.pushed, by rw [g.pins, h.pins, List.append_assoc]⟩

/-! ### The moves between two events -/

theorem runMove_frame (s : State) (m : Move) (hm : m.notReset = true) :
    (runMove s m).cfg = s.cfg ∧ (runMove s m).sri = s.sri ∧ (runMove s m).host = s.host ∧
    (runMove s m).sched = s.sched ∧ (runMove s m).hist.pins = s.hist.pins ∧
    (runMove s m).hist.memWrites = s.hist.memWrites ∧ (runMove s m).hist.pushed = s.hist.pushed := by
  cases m with
  | consumer =>
    obtain ⟨a, b, -, c, d, e, f, g⟩ := consumerStep_frame s
    exact ⟨a, b, c, d, e, f, g⟩
  | ext e => simp [runMove]
  | pclk v => simp [runMove]
  | reset => simp [Move.notReset] at hm

theorem runMoves_frame (g : List Move) (s : State) (hg : g.all Move.notReset = true) :
    Went s (g.foldl runMove s) [] ∧ (g.foldl runMove s).sri = s.sri ∧
    (g.foldl runMove s).sched = s.sched := by
  induction g generalizing s with
  | nil => exact ⟨.refl s, rfl, rfl⟩
  | cons m g ih =>
    simp only [List.all_cons, Bool.and_eq_true] at hg
    obtain ⟨a, b, c, d, e, f, p⟩ := runMove_frame s m hg.1
    obtain ⟨w, x, y⟩ := ih (runMove s m) hg.2
    have w0 : Went s (runMove s m) [] := ⟨a, c, by rw [d], f, p, by simp [e]⟩
    exact ⟨by simpa using w0.trans w, x.trans b, y.trans d⟩

theorem runGap_live {s : State} (h : Live s) :
    Went s (runGap s) [] ∧ (runGap s).sri = s.sri ∧ Live (runGap s) := by
  unfold runGap
  cases hg : s.sched.gaps with
  | nil => exact ⟨.refl s, rfl, h⟩
  | cons g gs =>
    have hall := h.gaps
    simp only [gapsAll, hg, List.all_cons, Bool.and_eq_true] at hall
    obtain ⟨w, x, y⟩ := runMoves_frame g { s with sched.gaps := gs } hall.1
    refine ⟨⟨w.cfg, w.host, w.turns, w.memWrites, w.pushed, w.pins⟩, x, ?_, ?_⟩
    · simpa [w.host] using h.busy
    · simpa [y] using hall.2

/-! ### Pin events and samples -/

/-- From `s` to `t` inside one operation: `tr` was recorded, the SRI changed by `f`, the operation is still going. -/
structure Did (s t : State) (tr : List PinRecord) (f : Sri → Sri) : Prop where
  went : Went s t tr
  sri  : t.sri = f s.sri
  live : Live t

theorem Did.trans {s t u : State} {a b : List PinRecord} {f g : Sri → Sri} (h : Did s t a f)
    (k : Did t u b g) : Did s u (a ++ b) fun r => g (f r) :=
  ⟨h.went.trans k.went, by rw [k.sri, h.sri], k.live⟩

theorem Did.cast {s t : State} {a b : List PinRecord} {f g : Sri → Sri} (h : Did s t a f) (e : a = b)
    (k : f s.sri = g s.sri) : Did s t b g :=
  ⟨e ▸ h.went, h.sri.trans k, h.live⟩

theorem runGap_did {s : State} (h : Live s) : Did s (runGap s) [] id := by
  obtain ⟨w, x, lv⟩ := runGap_live h
  exact ⟨w, x, lv⟩

theorem pinAct_did {s : State} (h : Live s) (e : PinEvent) :
    Did s (pinAct e s) [⟨e, (resolveLine (applyPin e s.sri) s.env).1⟩] (applyPin e) :=
  ⟨⟨rfl, rfl, rfl, rfl, rfl, rfl⟩, rfl, h.busy, h.gaps⟩

theorem sampleAct_did {s : State} (h : Live s) :
    Did s (sampleAct s).2 [⟨.sample, (sampleAct s).1⟩] id :=
  ⟨⟨rfl, rfl, rfl, rfl, rfl, rfl⟩, rfl, h.busy, h.gaps⟩

theorem pinEvent_did {s : State} (h : Live s) (e : PinEvent) :
    ∃ l, Did s (pinEvent e s) [⟨e, l⟩] (applyPin e) := by
  have g := runGap_did h
  rw [pinEvent_of_busy s e h.busy, whileBusy_of_busy _ _ g.live.busy]
  exact ⟨_, (g.trans (pinAct_did g.live e)).cast rfl rfl⟩

theorem sampleLine_did {s : State} (h : Live s) :
    Did s (sampleLine s).2 [⟨.sample, (sampleLine s).1⟩] id := by
  have g := runGap_did h
  rw [sampleLine_of_busy s h.busy, if_pos g.live.busy]
  exact (g.trans (sampleAct_did g.live)).cast rfl rfl

theorem countBit_did {s : State} (h : Live s) :
    Did s (countBit s) [] fun r => { r with bitcnt := r.bitcnt + 1 } := by
  rw [countBit, whileBusy_of_busy _ _ h.busy]
  exact ⟨⟨rfl, rfl, rfl, rfl, rfl, by simp⟩, rfl, h.busy, h.gaps⟩

theorem endByte_did {s : State} (h : Live s) :
    Did s (endByte s) [] fun r => { r with bitcnt := 0 } := by
  rw [endByte, whileBusy_of_busy _ _ h.busy]
  exact ⟨⟨rfl, rfl, rfl, rfl, rfl, by simp⟩, rfl, h.busy, h.gaps⟩

theorem clearSr_did {s : State} (h : Live s) :
    Did s (clearSr s) [] fun r => { r with sr := 0 } := by
  rw [clearSr, whileBusy_of_busy _ _ h.busy]
  exact ⟨⟨rfl, rfl, rfl, rfl, rfl, by simp⟩, rfl, h.busy, h.gaps⟩

theorem shiftIn_did {s : State} (h : Live s) (b : Bool) :
    Did s (shiftIn b s) [] fun r => { r with sr := accumulate r.sr b } := by
  rw [shiftIn, whileBusy_of_busy _ _ h.busy]
  exact ⟨⟨rfl, rfl, rfl, rfl, rfl, by simp⟩, rfl, h.busy, h.gaps⟩

/-! ### Bytes out -/

/-- One bit out: three events (R94, R122 step 3). -/
theorem sendBit_did {s : State} (h : Live s) (p : PinEvent) :
    ∃ tr, tr.map PinRecord.event = clocked p ∧
      Did s (sendBit p s) tr fun r =>
        { applyPin p r with sclk := false, bitcnt := r.bitcnt + 1 } := by
  obtain ⟨l1, d1⟩ := pinEvent_did h p
  obtain ⟨l2, d2⟩ := pinEvent_did d1.live (.sclk true)
  obtain ⟨l3, d3⟩ := pinEvent_did d2.live (.sclk false)
  have d := ((d1.trans d2).trans d3).trans (countBit_did d3.live)
  exact ⟨_, by simp [clocked], d.cast rfl (by cases p <;> rfl)⟩

/-- Bits of `b` one after another. -/
theorem sendBits_did (b : Byte) (is : List Nat) {s : State} (h : Live s) :
    ∃ tr, tr.map PinRecord.event = is.flatMap (fun i => clocked (presentBit b i)) ∧
      Did s (is.foldl (fun s i => sendBit (presentBit b i) s) s) tr fun r =>
        is.foldl (fun r i =>
          { applyPin (presentBit b i) r with sclk := false, bitcnt := r.bitcnt + 1 }) r := by
  induction is generalizing s with
  | nil => exact ⟨[], rfl, ⟨.refl s, rfl, h⟩⟩
  | cons i is ih =>
    obtain ⟨t1, e1, d1⟩ := sendBit_did h (presentBit b i)
    obtain ⟨t2, e2, d2⟩ := ih d1.live
    exact ⟨t1 ++ t2, by simp [e1, e2], d1.trans d2⟩

/-- Steps 3 and 4 of SERIAL_WRITE: 24 events, the pin left an output driving bit 0, the clock low (R122, R123). -/
theorem sendByte_did {s : State} (h : Live s) (b : Byte) :
    ∃ tr, tr.map PinRecord.event = clockingEvents b ∧
      Did s (sendByte b s) tr fun r =>
        { r with sclk := false, sdioDir := .output, sdioOut := b.getLsbD 0, bitcnt := 0 } := by
  obtain ⟨tr, e, d⟩ := sendBits_did b bitOrder h
  exact ⟨tr ++ [], by simp [e, bitOrder, clockingEvents, presentBit, clocked],
    (d.trans (endByte_did d.live)).cast rfl rfl⟩

/-- Everything `Probe()` can do (R121). -/
theorem probe_did {s : State} (h : Live s) :
    ∃ tr,
      ((probe s).1 = 1 ∧ tr.map PinRecord.event = failedProbeEvents 1 ∧ sampledLevels tr = [false] ∧
          Did s (probe s).2 tr fun r => { r with sdioDir := .input, sdioPull := .up }) ∨
      ((probe s).1 = 2 ∧ tr.map PinRecord.event = failedProbeEvents 2 ∧ sampledLevels tr = [true, true] ∧
          Did s (probe s).2 tr fun r => { r with sdioDir := .input, sdioOut := false, sdioPull := .down }) ∨
      ((probe s).1 = 0 ∧ tr.map PinRecord.event = probeEvents ∧ sampledLevels tr = [true, false] ∧
          Did s (probe s).2 tr fun r =>
            { r with sdioDir := .input, sdioOut := false, sdioPull := .down }) := by
  obtain ⟨l1, d1⟩ := pinEvent_did h (.cfgIn .up)
  have d2 := d1.trans (sampleLine_did d1.live)
  unfold probe
  dsimp only
  generalize sampleLine (pinEvent (.cfgIn .up) s) = x at d2
  obtain ⟨a, t⟩ := x
  cases a
  · dsimp only
    rw [if_pos rfl]
    exact ⟨_, .inl ⟨rfl, by simp [failedProbeEvents], by simp [sampledLevels], d2.cast rfl rfl⟩⟩
  · obtain ⟨l3, d3⟩ := pinEvent_did d2.live (.cfgOut false)
    obtain ⟨l4, d4⟩ := pinEvent_did d3.live (.cfgIn .down)
    have d5 := ((d2.trans d3).trans d4).trans (sampleLine_did d4.live)
    dsimp only at d3 d4 d5 ⊢
    rw [if_neg (by decide)]
    generalize sampleLine (pinEvent (.cfgIn .down) (pinEvent (.cfgOut false) t)) = y at d5
    obtain ⟨b, u⟩ := y
    dsimp only
    cases b
    · rw [if_neg (by decide)]
      exact ⟨_, .inr (.inr ⟨rfl, by simp [probeEvents], by simp [sampledLevels], d5.cast rfl rfl⟩)⟩
    · rw [if_pos rfl]
      exact ⟨_, .inr (.inl ⟨rfl, by simp [failedProbeEvents, probeEvents], by simp [sampledLevels],
        d5.cast rfl rfl⟩)⟩

/-- Everything a byte of a frame can do: it goes out whole, or BusNotIdle is taken before any of it (R122, R124). -/
theorem serialWriteByte_did {s : State} (h : Live s) (b : Byte) (done : Nat) :
    (∃ tr, tr.map PinRecord.event = writeEvents b ∧
      Did s (serialWriteByte b done s) tr fun r =>
        { r with sclk := false, sdioDir := .output, sdioOut := b.getLsbD 0, sdioPull := .down,
                 bitcnt := 0 }) ∨
    (∃ t tr cause f, tr.map PinRecord.event = failedProbeEvents cause ∧ Did s t tr f ∧
      (cause = 1 ∧ (f = fun r => { r with sdioDir := .input, sdioPull := .up }) ∨
       cause = 2 ∧ (f = fun r => { r with sdioDir := .input, sdioOut := false, sdioPull := .down })) ∧
      serialWriteByte b done s = takeBusNotIdle cause done t) := by
  unfold serialWriteByte
  obtain ⟨tr, ⟨hc, he, -, d⟩ | ⟨hc, he, -, d⟩ | ⟨hc, he, -, d⟩⟩ := probe_did h
  · refine .inr ⟨_, tr, 1, _, he, d, .inl ⟨rfl, rfl⟩, ?_⟩
    simp [hc, whileBusy_of_busy _ _ d.live.busy]
  · refine .inr ⟨_, tr, 2, _, he, d, .inr ⟨rfl, rfl⟩, ?_⟩
    simp [hc, whileBusy_of_busy _ _ d.live.busy]
  · obtain ⟨tr2, e2, d2⟩ := sendByte_did d.live b
    refine .inl ⟨_, ?_, by simpa [hc] using (d.trans d2).cast rfl rfl⟩
    simp [he, e2, writeEvents]

/-! ### Bytes in -/

/-- One bit in: three events, one sample into the accumulator (R126 step 3). -/
theorem receiveBit_did {s : State} (h : Live s) :
    ∃ tr l, tr.map PinRecord.event = [.sclk true, .sample, .sclk false] ∧ sampledLevels tr = [l] ∧
      Did s (receiveBit s) tr fun r =>
        { r with sclk := false, sr := accumulate r.sr l, bitcnt := r.bitcnt + 1 } := by
  obtain ⟨l1, d1⟩ := pinEvent_did h (.sclk true)
  have d2 := d1.trans (sampleLine_did d1.live)
  unfold receiveBit
  generalize sampleLine (pinEvent (.sclk true) s) = x at d2
  obtain ⟨b, t⟩ := x
  have d3 := d2.trans (shiftIn_did d2.live b)
  obtain ⟨l4, d4⟩ := pinEvent_did d3.live (.sclk false)
  have d5 := (d3.trans d4).trans (countBit_did d4.live)
  exact ⟨_, b, by simp, by simp [sampledLevels], d5.cast rfl rfl⟩

theorem sampledLevels_append (a b : List PinRecord) :
    sampledLevels (a ++ b) = sampledLevels a ++ sampledLevels b := by simp [sampledLevels]

/-- Bits one after another: the samples accumulate in order (R65). -/
theorem receiveBits_did (is : List Nat) {s : State} (h : Live s) :
    ∃ tr ls, tr.map PinRecord.event = is.flatMap (fun _ => [.sclk true, .sample, .sclk false]) ∧
      sampledLevels tr = ls ∧ ls.length = is.length ∧
      Did s (is.foldl (fun s _ => receiveBit s) s) tr fun r =>
        { r with sclk := if is = [] then r.sclk else false, sr := ls.foldl accumulate r.sr,
                 bitcnt := r.bitcnt + is.length } := by
  induction is generalizing s with
  | nil => exact ⟨[], [], rfl, rfl, rfl, ⟨.refl s, rfl, h⟩⟩
  | cons i is ih =>
    obtain ⟨t1, l1, e1, m1, d1⟩ := receiveBit_did h
    obtain ⟨t2, ls, e2, m2, n2, d2⟩ := ih d1.live
    refine ⟨t1 ++ t2, l1 :: ls, by simp [e1, e2], by simp [sampledLevels_append, m1, m2], by simp [n2],
      (d1.trans d2).cast rfl ?_⟩
    simp
    omega

/-- A byte from eight bits, the first of them bit 7 (R65). -/
theorem byteBits_accumulate (a b c d e f g k : Bool) :
    byteBits ([a, b, c, d, e, f, g, k].foldl accumulate 0) = [a, b, c, d, e, f, g, k] := by
  revert a b c d e f g k; decide

/-- SERIAL_READ inside an operation: 25 events, and `SR` is the byte of the eight samples, the first of them bit 7
(R126, R127). -/
theorem serialReadByte_did {s : State} (h : Live s) :
    ∃ tr v, tr.map PinRecord.event = readEvents ∧ sampledLevels tr = byteBits v ∧
      Did s (serialReadByte s) tr fun r =>
        { r with sclk := false, sdioDir := .input, sr := v, bitcnt := 0 } := by
  obtain ⟨lc, dc⟩ := pinEvent_did h .cfgInKeep
  have d1 := dc.trans (clearSr_did dc.live)
  obtain ⟨tr, ls, e, m, n, d2⟩ := receiveBits_did bitOrder d1.live
  have d3 := (d1.trans d2).trans (endByte_did d2.live)
  refine ⟨_, ls.foldl accumulate 0, ?_, ?_, d3.cast rfl ?_⟩
  · simp [e, readEvents, bitOrder, List.replicate]
  · obtain ⟨a, b, c, d, e', f, g, k, rfl⟩ : ∃ a b c d e' f g k, ls = [a, b, c, d, e', f, g, k] := by
      match ls, n with
      | [a, b, c, d, e', f, g, k], _ => exact ⟨a, b, c, d, e', f, g, k, rfl⟩
    rw [byteBits_accumulate]
    simp only [sampledLevels_append, m]
    simp [sampledLevels]
  · simp [bitOrder, applyPin]

/-! ### Issue and return -/

theorem issueSri_faulted (c : Option RefuseCode) (f : State → State) (s : State)
    (h : s.sri.busFault = true) : issueSri c f s = refuse .sriFaulted s := by simp [issueSri, h]

theorem issueSri_refused (c : RefuseCode) (f : State → State) (s : State)
    (h : s.sri.busFault = false) : issueSri (some c) f s = refuse c s := by simp [issueSri, h]

theorem issueSri_issued (f : State → State) (s : State) (h : s.sri.busFault = false) :
    issueSri none f s = f { s with host.busy := true } := by simp [issueSri, h]

theorem finishSri_busy (v : Value) (s : State) (h : s.host.busy = true) :
    finishSri v s =
      { s with host.busy := false, host.results := s.host.results ++ [.ok v] } :=
  whileBusy_of_busy s _ h

theorem finishSri_idle (v : Value) (s : State) (h : s.host.busy = false) : finishSri v s = s :=
  whileBusy_of_idle s _ h

end Sys2Proof.Machine
end

