-- ==== Sys2Proof/Laws/Line.lean ====
section
/-! SUPPORT. The bus on a line whose drive does not change: the levels of the events, the outcome of the probe, bytes
and whole frames; and frames and reads under any moves but the reset event. -/

namespace Sys2Proof.Machine

/-- An operation is in progress, TARGET's drive is `e`, and it does not change before the next `n` pin events. -/
structure Still (n : Nat) (e : Ext) (s : State) : Prop where
  live : Live s
  ext  : s.env.ext = e
  gaps : gapsAll Move.steady (s.sched.gaps.take n) = true

theorem steady_notReset {m : Move} (h : m.steady = true) : m.notReset = true := by
  cases m <;> simp_all [Move.steady, Move.notReset]

theorem gapsAll_mono {p q : Move → Bool} (hpq : ∀ m, p m = true → q m = true) {gs : List (List Move)}
    (h : gapsAll p gs = true) : gapsAll q gs = true := by
  simp only [gapsAll, List.all_eq_true] at h ⊢
  exact fun g hg m hm => hpq m (h g hg m hm)

theorem gapsAll_take {p : Move → Bool} (n : Nat) {gs : List (List Move)} (h : gapsAll p gs = true) :
    gapsAll p (gs.take n) = true := by
  simp only [gapsAll, List.all_eq_true] at h ⊢
  exact fun g hg => h g (List.mem_of_mem_take hg)

theorem gapsAll_split {p : Move → Bool} (n : Nat) {gs : List (List Move)}
    (h : gapsAll p (gs.take n) = true) (k : gapsAll p (gs.drop n) = true) : gapsAll p gs = true := by
  rw [← List.take_append_drop n gs, gapsAll, List.all_append, Bool.and_eq_true]
  exact ⟨h, k⟩

/-- An operation issued on a drive that does not change at all. -/
theorem Still.issue {s : State} (n : Nat) (h : gapsAll Move.steady s.sched.gaps = true) :
    Still n s.env.ext { s with host.busy := true } :=
  ⟨⟨rfl, gapsAll_mono (fun _ => steady_notReset) h⟩, rfl, gapsAll_take n h⟩

theorem Live.issue {s : State} (h : gapsAll Move.notReset s.sched.gaps = true) :
    Live { s with host.busy := true } := ⟨rfl, h⟩

theorem lineLevel_congr (r : Sri) {v w : Env} (e : v.ext = w.ext) (k : v.keep = w.keep) :
    lineLevel r v = lineLevel r w := by simp only [lineLevel, e, k]

theorem lineLevel_output {r : Sri} {v : Env} {b : Bool} (e : v.ext = .z) (hd : r.sdioDir = .output)
    (hb : r.sdioOut = b) : lineLevel r v = some b := by simp [lineLevel, e, hd, hb]

theorem runMoves_steady (g : List Move) (s : State) (hg : g.all Move.steady = true) :
    (g.foldl runMove s).env.ext = s.env.ext ∧ (g.foldl runMove s).env.keep = s.env.keep := by
  induction g generalizing s with
  | nil => exact ⟨rfl, rfl⟩
  | cons m g ih =>
    simp only [List.all_cons, Bool.and_eq_true] at hg
    obtain ⟨a, b⟩ := ih (runMove s m) hg.2
    have e : (runMove s m).env.ext = s.env.ext ∧ (runMove s m).env.keep = s.env.keep := by
      cases m with
      | consumer => simp [runMove, (consumerStep_frame s).2.2.1]
      | pclk v => exact ⟨rfl, rfl⟩
      | ext e => simp [Move.steady] at hg
      | reset => simp [Move.steady] at hg
    exact ⟨a.trans e.1, b.trans e.2⟩

theorem runGap_still {n : Nat} {e : Ext} {s : State} (h : Still (n + 1) e s) :
    Still n e (runGap s) ∧ (runGap s).env.keep = s.env.keep := by
  have lv := (runGap_live h.live).2.2
  have hs := h.gaps
  unfold runGap at lv ⊢
  cases hg : s.sched.gaps with
  | nil =>
    rw [hg] at lv
    exact ⟨⟨lv, h.ext, by simp [hg]⟩, rfl⟩
  | cons g gs =>
    rw [hg] at lv
    simp only [gapsAll, hg, List.take_succ_cons, List.all_cons, Bool.and_eq_true] at hs
    obtain ⟨a, b⟩ := runMoves_steady g { s with sched.gaps := gs } hs.1
    have hn : g.all Move.notReset = true := by
      simp only [List.all_eq_true] at hs ⊢
      exact fun m hm => steady_notReset (hs.1 m hm)
    have y := (runMoves_frame g { s with sched.gaps := gs } hn).2.2
    exact ⟨⟨lv, a.trans h.ext, by simpa [y] using hs.2⟩, b⟩

theorem pinEvent_still {n : Nat} {e : Ext} {s : State} (h : Still (n + 1) e s) (p : PinEvent) {l : Bool}
    (hl : lineLevel (applyPin p s.sri) s.env = some l) :
    Did s (pinEvent p s) [⟨p, l⟩] (applyPin p) ∧ Still n e (pinEvent p s) ∧
      (pinEvent p s).env.keep = l := by
  obtain ⟨g, k⟩ := runGap_still h
  have d := runGap_did h.live
  have hl' : lineLevel (applyPin p (runGap s).sri) (runGap s).env = some l := by
    rw [d.sri, id, lineLevel_congr _ (g.ext.trans h.ext.symm) k, hl]
  rw [pinEvent_of_busy s p h.live.busy, whileBusy_of_busy _ _ g.live.busy]
  have d2 := pinAct_did g.live p
  rw [resolveLine_of_some _ _ hl'] at d2
  exact ⟨(d.trans d2).cast rfl rfl, ⟨d2.live, by simpa using g.ext, g.gaps⟩,
    by simp [resolveLine_of_some _ _ hl']⟩

theorem sampleLine_still {n : Nat} {e : Ext} {s : State} (h : Still (n + 1) e s) {l : Bool}
    (hl : lineLevel s.sri s.env = some l) :
    (sampleLine s).1 = l ∧ Did s (sampleLine s).2 [⟨.sample, l⟩] id ∧ Still n e (sampleLine s).2 ∧
      (sampleLine s).2.env.keep = l := by
  obtain ⟨g, k⟩ := runGap_still h
  have d := runGap_did h.live
  have hl' : lineLevel (runGap s).sri (runGap s).env = some l := by
    rw [d.sri, id, lineLevel_congr _ (g.ext.trans h.ext.symm) k, hl]
  rw [sampleLine_of_busy s h.live.busy, if_pos g.live.busy]
  have d2 := sampleAct_did g.live
  rw [sampleAct_level, resolveLine_of_some _ _ hl'] at d2
  exact ⟨by simp [resolveLine_of_some _ _ hl'], (d.trans d2).cast rfl rfl,
    ⟨d2.live, by simpa using g.ext, g.gaps⟩, by simp [resolveLine_of_some _ _ hl']⟩

/-! ### The probe (R121) -/

/-- Nobody drives: high under the pull-up, low under the pull-down. -/
theorem probe_undriven {n : Nat} {s : State} (h : Still (n + 5) .z s) :
    ∃ tr, (probe s).1 = 0 ∧ tr.map PinRecord.event = probeEvents ∧ sampledLevels tr = [true, false] ∧
      risingLevels tr = [] ∧ Still n .z (probe s).2 ∧
      Did s (probe s).2 tr fun r => { r with sdioDir := .input, sdioOut := false, sdioPull := .down } := by
  obtain ⟨d1, s1, -⟩ := pinEvent_still h (.cfgIn .up) (l := true)
    (by simp [lineLevel, applyPin, h.ext])
  obtain ⟨a2, d2, s2, -⟩ := sampleLine_still s1 (l := true)
    (by simp [lineLevel, s1.ext, d1.sri, applyPin])
  obtain ⟨d3, s3, k3⟩ := pinEvent_still s2 (.cfgOut false) (l := false)
    (by simp [lineLevel, applyPin, s2.ext])
  obtain ⟨d4, s4, k4⟩ := pinEvent_still s3 (.cfgIn .down) (l := false)
    (by simp [lineLevel, applyPin, s3.ext, k3])
  obtain ⟨a5, d5, s5, -⟩ := sampleLine_still s4 (l := false)
    (by simp [lineLevel, s4.ext, d4.sri, applyPin, k4])
  have hp : probe s = (0, (sampleLine (pinEvent (.cfgIn .down)
      (pinEvent (.cfgOut false) (sampleLine (pinEvent (.cfgIn .up) s)).2))).2) := by
    unfold probe
    simp [a2, a5]
  rw [hp]
  exact ⟨_, rfl, by simp [probeEvents], by simp [sampledLevels], by simp [risingLevels], s5,
    ((((d1.trans d2).trans d3).trans d4).trans d5).cast rfl rfl⟩

/-- Somebody holds the line low: the first check fails. -/
theorem probe_drivenLow {n : Nat} {s : State} (h : Still (n + 2) (.drive false) s) :
    ∃ tr, (probe s).1 = 1 ∧ tr.map PinRecord.event = failedProbeEvents 1 ∧ sampledLevels tr = [false] ∧
      risingLevels tr = [] ∧ Still n (.drive false) (probe s).2 ∧
      Did s (probe s).2 tr fun r => { r with sdioDir := .input, sdioPull := .up } := by
  obtain ⟨d1, s1, -⟩ := pinEvent_still h (.cfgIn .up) (l := false)
    (by simp [lineLevel, applyPin, h.ext])
  obtain ⟨a2, d2, s2, -⟩ := sampleLine_still s1 (l := false)
    (by simp [lineLevel, s1.ext, d1.sri, applyPin])
  have hp : probe s = (1, (sampleLine (pinEvent (.cfgIn .up) s)).2) := by
    unfold probe
    simp [a2]
  rw [hp]
  exact ⟨_, rfl, by simp [failedProbeEvents], by simp [sampledLevels], by simp [risingLevels], s2,
    (d1.trans d2).cast rfl rfl⟩

/-- Somebody holds the line high: the second check fails. -/
theorem probe_drivenHigh {n : Nat} {s : State} (h : Still (n + 5) (.drive true) s) :
    ∃ tr, (probe s).1 = 2 ∧ tr.map PinRecord.event = failedProbeEvents 2 ∧
      sampledLevels tr = [true, true] ∧ risingLevels tr = [] ∧ Still n (.drive true) (probe s).2 ∧
      Did s (probe s).2 tr fun r => { r with sdioDir := .input, sdioOut := false, sdioPull := .down } := by
  obtain ⟨d1, s1, -⟩ := pinEvent_still h (.cfgIn .up) (l := true)
    (by simp [lineLevel, applyPin, h.ext])
  obtain ⟨a2, d2, s2, -⟩ := sampleLine_still s1 (l := true)
    (by simp [lineLevel, s1.ext, d1.sri, applyPin])
  obtain ⟨l3, d3, s3⟩ : ∃ l, Did (sampleLine (pinEvent (.cfgIn .up) s)).2
      (pinEvent (.cfgOut false) (sampleLine (pinEvent (.cfgIn .up) s)).2) [⟨.cfgOut false, l⟩]
      (applyPin (.cfgOut false)) ∧
      Still (n + 2) (.drive true)
        (pinEvent (.cfgOut false) (sampleLine (pinEvent (.cfgIn .up) s)).2) := by
    obtain ⟨g, k⟩ := runGap_still s2
    have d := runGap_did s2.live
    rw [pinEvent_of_busy _ _ s2.live.busy, whileBusy_of_busy _ _ g.live.busy]
    have d2 := pinAct_did g.live (.cfgOut false)
    exact ⟨_, (d.trans d2).cast rfl rfl, ⟨d2.live, by simpa using g.ext, g.gaps⟩⟩
  obtain ⟨d4, s4, -⟩ := pinEvent_still s3 (.cfgIn .down) (l := true)
    (by simp [lineLevel, applyPin, s3.ext])
  obtain ⟨a5, d5, s5, -⟩ := sampleLine_still s4 (l := true)
    (by simp [lineLevel, s4.ext, d4.sri, applyPin])
  have hp : probe s = (2, (sampleLine (pinEvent (.cfgIn .down)
      (pinEvent (.cfgOut false) (sampleLine (pinEvent (.cfgIn .up) s)).2))).2) := by
    unfold probe
    simp [a2, a5]
  rw [hp]
  exact ⟨_, rfl, by simp [failedProbeEvents, probeEvents], by simp [sampledLevels],
    by simp [risingLevels], s5, ((((d1.trans d2).trans d3).trans d4).trans d5).cast rfl rfl⟩

/-! ### Bytes out on an undriven line (R122) -/

theorem risingLevels_append (a b : List PinRecord) :
    risingLevels (a ++ b) = risingLevels a ++ risingLevels b := by simp [risingLevels]

/-- One bit: the level is the pin's through all three events. -/
theorem sendBit_still {n : Nat} {s : State} (h : Still (n + 3) .z s) (p : PinEvent) {b : Bool}
    (hd : (applyPin p s.sri).sdioDir = .output) (hb : (applyPin p s.sri).sdioOut = b) :
    ∃ tr, tr.map PinRecord.event = clocked p ∧ (p ≠ .sclk true → risingLevels tr = [b]) ∧
      Still n .z (sendBit p s) ∧
      Did s (sendBit p s) tr fun r =>
        { applyPin p r with sclk := false, bitcnt := r.bitcnt + 1 } := by
  obtain ⟨d1, s1, -⟩ := pinEvent_still h p (lineLevel_output h.ext hd hb)
  obtain ⟨d2, s2, -⟩ := pinEvent_still s1 (.sclk true) (l := b)
    (lineLevel_output s1.ext (by rw [d1.sri]; exact hd) (by rw [d1.sri]; exact hb))
  obtain ⟨d3, s3, -⟩ := pinEvent_still s2 (.sclk false) (l := b)
    (lineLevel_output s2.ext (by rw [d2.sri, d1.sri]; exact hd) (by rw [d2.sri, d1.sri]; exact hb))
  have dc := countBit_did s3.live
  have hc : sendBit p s = { pinEvent (.sclk false) (pinEvent (.sclk true) (pinEvent p s)) with
      sri.bitcnt := (pinEvent (.sclk false) (pinEvent (.sclk true) (pinEvent p s))).sri.bitcnt + 1 } := by
    rw [sendBit, countBit, whileBusy_of_busy _ _ s3.live.busy]
  refine ⟨_, by simp [clocked], by intro hp; simp [risingLevels, hp], ?_,
    (((d1.trans d2).trans d3).trans dc).cast rfl (by cases p <;> rfl)⟩
  rw [hc]
  exact ⟨⟨s3.live.busy, s3.live.gaps⟩, s3.ext, s3.gaps⟩

/-- Bits after the first: the pin is an output already. -/
theorem sendBits_still (b : Byte) (is : List Nat) (h7 : ∀ i ∈ is, i ≠ 7) {n : Nat} {s : State}
    (h : Still (n + 3 * is.length) .z s) (hd : s.sri.sdioDir = .output) :
    ∃ tr, tr.map PinRecord.event = is.flatMap (fun i => clocked (presentBit b i)) ∧
      risingLevels tr = is.map b.getLsbD ∧
      Still n .z (is.foldl (fun s i => sendBit (presentBit b i) s) s) ∧
      Did s (is.foldl (fun s i => sendBit (presentBit b i) s) s) tr fun r =>
        is.foldl (fun r i =>
          { applyPin (presentBit b i) r with sclk := false, bitcnt := r.bitcnt + 1 }) r := by
  induction is generalizing s with
  | nil => exact ⟨[], rfl, rfl, by simpa using h, ⟨.refl s, rfl, h.live⟩⟩
  | cons i is ih =>
    have hp : presentBit b i = .drive (b.getLsbD i) := by
      simp [presentBit, h7 i (by simp)]
    obtain ⟨t1, e1, r1, s1, d1⟩ := sendBit_still (n := n + 3 * is.length) (by simpa [Nat.mul_add, Nat.add_assoc] using h)
      (presentBit b i) (by simp [hp, applyPin, hd]) (b := b.getLsbD i) (by simp [hp, applyPin])
    obtain ⟨t2, e2, r2, s2, d2⟩ := ih (fun j hj => h7 j (by simp [hj])) s1
      (by rw [d1.sri]; simp [hp, applyPin, hd])
    exact ⟨t1 ++ t2, by simp [e1, e2], by simp [risingLevels_append, r1 (by simp [hp]), r2], s2,
      d1.trans d2⟩

/-- A whole byte: the levels at the rising edges are its bits. -/
theorem sendByte_still {n : Nat} {s : State} (h : Still (n + 24) .z s) (b : Byte) :
    ∃ tr, tr.map PinRecord.event = clockingEvents b ∧ risingLevels tr = byteBits b ∧
      Still n .z (sendByte b s) ∧
      Did s (sendByte b s) tr fun r =>
        { r with sclk := false, sdioDir := .output, sdioOut := b.getLsbD 0, bitcnt := 0 } := by
  obtain ⟨t1, e1, r1, s1, d1⟩ := sendBit_still (n := n + 21) h (presentBit b 7) (by simp [presentBit, applyPin])
    (b := b.getLsbD 7) (by simp [presentBit, applyPin])
  obtain ⟨t2, e2, r2, s2, d2⟩ := sendBits_still b [6, 5, 4, 3, 2, 1, 0] (by decide) (n := n)
    (by simpa using s1) (by rw [d1.sri]; simp [presentBit, applyPin])
  have de := endByte_did s2.live
  have hs : sendByte b s = { bitOrder.foldl (fun s i => sendBit (presentBit b i) s) s with sri.bitcnt := 0 } := by
    rw [sendByte, endByte, whileBusy_of_busy]
    exact s2.live.busy
  refine ⟨_, ?_, ?_, ?_, ((d1.trans d2).trans de).cast rfl rfl⟩
  · simp [e1, e2, clockingEvents, presentBit]
  · simp [risingLevels_append, r1 (by simp [presentBit]), r2, byteBits]
  · rw [hs]
    exact ⟨⟨s2.live.busy, s2.live.gaps⟩, s2.ext, s2.gaps⟩

/-- A byte of a frame on an undriven line. -/
theorem serialWriteByte_still {n : Nat} {s : State} (h : Still (n + 29) .z s) (b : Byte) (done : Nat) :
    ∃ tr, tr.map PinRecord.event = writeEvents b ∧ risingLevels tr = byteBits b ∧
      Still n .z (serialWriteByte b done s) ∧
      Did s (serialWriteByte b done s) tr fun r =>
        { r with sclk := false, sdioDir := .output, sdioOut := b.getLsbD 0, sdioPull := .down,
                 bitcnt := 0 } := by
  obtain ⟨t1, c1, e1, -, r1, s1, d1⟩ := probe_undriven (n := n + 24) h
  obtain ⟨t2, e2, r2, s2, d2⟩ := sendByte_still s1 b
  have hw : serialWriteByte b done s = sendByte b (probe s).2 := by
    unfold serialWriteByte
    simp [c1]
  rw [hw]
  exact ⟨_, by simp [e1, e2, writeEvents], by simp [risingLevels_append, r1, r2], s2,
    (d1.trans d2).cast rfl rfl⟩

/-! ### Whole frames and reads -/

/-- An operation that is over sends nothing more. -/
theorem probe_of_idle {s : State} (h : s.host.busy = false) : probe s = (1, s) := by
  unfold probe
  simp [pinEvent_of_idle s _ h, sampleLine_of_idle s h]

theorem serialWriteByte_of_idle {s : State} (h : s.host.busy = false) (b : Byte) (done : Nat) :
    serialWriteByte b done s = s := by
  unfold serialWriteByte
  simp [probe_of_idle h, whileBusy_of_idle _ _ h]

theorem sendFrame_of_idle (bs : List Byte) (done : Nat) {s : State} (h : s.host.busy = false) :
    sendFrame bs done s = s := by
  induction bs generalizing done with
  | nil => rfl
  | cons b bs ih => rw [sendFrame, serialWriteByte_of_idle h, ih]

theorem receiveBit_of_idle {s : State} (h : s.host.busy = false) : receiveBit s = s := by
  unfold receiveBit
  simp [pinEvent_of_idle s _ h, sampleLine_of_idle s h, shiftIn, countBit, whileBusy_of_idle _ _ h]

theorem serialReadByte_of_idle {s : State} (h : s.host.busy = false) : serialReadByte s = s := by
  have hb : ∀ is : List Nat, is.foldl (fun s _ => receiveBit s) s = s := by
    intro is
    induction is with
    | nil => rfl
    | cons i is ih => rw [List.foldl_cons, receiveBit_of_idle h, ih]
  unfold serialReadByte
  rw [pinEvent_of_idle s _ h, clearSr, whileBusy_of_idle _ _ h, hb, endByte, whileBusy_of_idle _ _ h]

theorem receiveBytes_of_idle (n : Nat) {s : State} (h : s.host.busy = false) : (receiveBytes n s).2 = s := by
  induction n with
  | zero => rfl
  | succ n ih => simp only [receiveBytes, serialReadByte_of_idle h, ih]

/-- A frame on an undriven line goes out whole (R130). -/
theorem sendFrame_still (bs : List Byte) (done : Nat) {n : Nat} {s : State}
    (h : Still (n + 29 * bs.length) .z s) :
    ∃ tr, tr.map PinRecord.event = bs.flatMap writeEvents ∧ risingLevels tr = bs.flatMap byteBits ∧
      Still n .z (sendFrame bs done s) ∧
      Did s (sendFrame bs done s) tr fun r =>
        if bs = [] then r
        else { r with sclk := false, sdioDir := .output, sdioOut := (bs.getLast?.getD 0).getLsbD 0,
                      sdioPull := .down, bitcnt := 0 } := by
  induction bs generalizing done s with
  | nil => exact ⟨[], rfl, rfl, by simpa [sendFrame] using h, ⟨.refl s, rfl, h.live⟩⟩
  | cons b bs ih =>
    obtain ⟨t1, e1, r1, s1, d1⟩ := serialWriteByte_still (n := n + 29 * bs.length)
      (by simpa [Nat.mul_add, Nat.add_assoc] using h) b done
    obtain ⟨t2, e2, r2, s2, d2⟩ := ih (done + 1) s1
    refine ⟨t1 ++ t2, by simp [e1, e2], by simp [risingLevels_append, r1, r2], s2,
      (d1.trans d2).cast rfl ?_⟩
    cases bs <;> simp

/-- Everything a frame can do when no reset event falls in it: it goes out whole, or it ends at the probe of one
byte with BusNotIdle, every byte before it out and no bit of it (R130, R221). -/
theorem sendFrame_did (bs : List Byte) (done : Nat) {s : State} (h : Live s) :
    (∃ tr, tr.map PinRecord.event = bs.flatMap writeEvents ∧
      Did s (sendFrame bs done s) tr fun r =>
        if bs = [] then r
        else { r with sclk := false, sdioDir := .output, sdioOut := (bs.getLast?.getD 0).getLsbD 0,
                      sdioPull := .down, bitcnt := 0 }) ∨
    (∃ t tr cause k f, k < bs.length ∧ (cause = 1 ∨ cause = 2) ∧
      tr.map PinRecord.event = (bs.take k).flatMap writeEvents ++ failedProbeEvents cause ∧
      Did s t tr f ∧ (∀ r : Sri, (f r).busFault = r.busFault ∧ (k = 0 → (f r).sclk = r.sclk)) ∧
      sendFrame bs done s = takeBusNotIdle cause (done + k) t) := by
  induction bs generalizing done s with
  | nil => exact .inl ⟨[], rfl, ⟨.refl s, rfl, h⟩⟩
  | cons b bs ih =>
    obtain ⟨t1, e1, d1⟩ | ⟨t, tr, cause, f, e, d, hf, hw⟩ := serialWriteByte_did h b done
    · obtain ⟨t2, e2, d2⟩ | ⟨t, tr, cause, k, f, hk, hc, e, d, hf, hw⟩ := ih (done + 1) d1.live
      · refine .inl ⟨t1 ++ t2, by simp [e1, e2], (d1.trans d2).cast rfl ?_⟩
        cases bs <;> simp
      · refine .inr ⟨t, t1 ++ tr, cause, k + 1, _, by simp; omega, hc, by simp [e1, e], d1.trans d,
          fun r => ⟨(hf _).1, fun h0 => absurd h0 (by omega)⟩, ?_⟩
        rw [sendFrame, hw, Nat.add_right_comm, Nat.add_assoc]
    · refine .inr ⟨t, tr, cause, 0, f, by simp, hf.imp And.left And.left, by simp [e], d, ?_, ?_⟩
      · intro r
        obtain ⟨-, rfl⟩ | ⟨-, rfl⟩ := hf <;> simp
      · rw [sendFrame, hw, sendFrame_of_idle _ _ rfl]
        rfl

/-- Bytes in, one after another (R133 step 2). -/
theorem receiveBytes_did (n : Nat) {s : State} (h : Live s) :
    ∃ tr, tr.map PinRecord.event = (List.replicate n readEvents).flatten ∧
      sampledLevels tr = (receiveBytes n s).1.flatMap byteBits ∧ (receiveBytes n s).1.length = n ∧
      Did s (receiveBytes n s).2 tr fun r =>
        if n = 0 then r
        else { r with sclk := false, sdioDir := .input, sr := (receiveBytes n s).1.getLast?.getD 0,
                      bitcnt := 0 } := by
  induction n generalizing s with
  | zero => exact ⟨[], rfl, rfl, rfl, ⟨.refl s, rfl, h⟩⟩
  | succ n ih =>
    obtain ⟨t1, v, e1, m1, d1⟩ := serialReadByte_did h
    obtain ⟨t2, e2, m2, n2, d2⟩ := ih d1.live
    have hv : (serialReadByte s).sri.sr = v := by rw [d1.sri]
    refine ⟨t1 ++ t2, by simp [e1, e2, List.replicate_succ], ?_, by simp [receiveBytes, n2], ?_⟩
    · simp [sampledLevels_append, m1, m2, receiveBytes, hv]
    · refine (d1.trans d2).cast rfl ?_
      cases n with
      | zero => simp [receiveBytes, hv]
      | succ n =>
        have : (receiveBytes (n + 1) (serialReadByte s)).1 ≠ [] := by
          intro h0; simp [h0] at n2
        obtain ⟨x, xs, hx⟩ := List.exists_cons_of_ne_nil this
        simp [receiveBytes] at hx
        simp [receiveBytes, hx.1]

end Sys2Proof.Machine
end

