-- ==== Sys2Proof/Laws/Sri.lean ====
section
/-! SUPPORT. SRI operations under any moves of the other agents, the reset event among them: what they keep of the
streamer, and how they end. -/

namespace Sys2Proof.Machine

/-! ### A property of the streamer's part of the state goes through every SRI operation -/

/-- `P` looks only at the configuration, the streamer and its record, and every move of kind `p` keeps it. -/
structure StreamerSide (p : Move → Bool) (P : State → Prop) : Prop where
  congr : ∀ s t : State, t.cfg = s.cfg → t.iqs = s.iqs → t.hist.pushed = s.hist.pushed →
    t.hist.emitted = s.hist.emitted → t.hist.dWrites = s.hist.dWrites → P s → P t
  move : ∀ (s : State) (m : Move), p m = true → P s → P (runMove s m)

/-- `f` keeps `P` while every scheduled move is of kind `p`. -/
def Keeps (p : Move → Bool) (P : State → Prop) (f : State → State) : Prop :=
  ∀ s, P s ∧ gapsAll p s.sched.gaps = true → P (f s) ∧ gapsAll p (f s).sched.gaps = true

section

variable {p : Move → Bool} {P : State → Prop}

theorem Keeps.comp {f g : State → State} (hf : Keeps p P f) (hg : Keeps p P g) :
    Keeps p P fun s => g (f s) := fun s h => hg _ (hf s h)

theorem Keeps.foldl {ι : Type} {f : State → ι → State} (hf : ∀ i, Keeps p P (f · i)) (is : List ι) :
    Keeps p P (is.foldl f) := by
  induction is with
  | nil => exact fun s h => h
  | cons i is ih => exact fun s h => ih _ (hf i s h)

theorem Keeps.whileBusy {f : State → State} (hf : Keeps p P f) : Keeps p P (whileBusy f) := by
  intro s h
  unfold Machine.whileBusy
  split
  · exact hf s h
  · exact h

theorem runMove_sched (s : State) (m : Move) : (runMove s m).sched = s.sched := by
  cases m with
  | consumer => exact (consumerStep_frame s).2.2.2.2.1
  | _ => rfl

/-- An update outside the streamer's side and the schedule. -/
theorem StreamerSide.pure (hP : StreamerSide p P) {f : State → State} (hc : ∀ s, (f s).cfg = s.cfg)
    (hi : ∀ s, (f s).iqs = s.iqs) (hp : ∀ s, (f s).hist.pushed = s.hist.pushed)
    (he : ∀ s, (f s).hist.emitted = s.hist.emitted) (hd : ∀ s, (f s).hist.dWrites = s.hist.dWrites)
    (hs : ∀ s, (f s).sched = s.sched) : Keeps p P f :=
  fun s h => ⟨hP.congr s _ (hc s) (hi s) (hp s) (he s) (hd s) h.1, by rw [hs]; exact h.2⟩

theorem StreamerSide.countBit (hP : StreamerSide p P) : Keeps p P countBit :=
  Keeps.whileBusy (hP.pure (fun _ => rfl) (fun _ => rfl) (fun _ => rfl) (fun _ => rfl) (fun _ => rfl) fun _ => rfl)

theorem StreamerSide.endByte (hP : StreamerSide p P) : Keeps p P endByte :=
  Keeps.whileBusy (hP.pure (fun _ => rfl) (fun _ => rfl) (fun _ => rfl) (fun _ => rfl) (fun _ => rfl) fun _ => rfl)

theorem StreamerSide.clearSr (hP : StreamerSide p P) : Keeps p P clearSr :=
  Keeps.whileBusy (hP.pure (fun _ => rfl) (fun _ => rfl) (fun _ => rfl) (fun _ => rfl) (fun _ => rfl) fun _ => rfl)

theorem StreamerSide.shiftIn (hP : StreamerSide p P) (b : Bool) : Keeps p P (shiftIn b) :=
  Keeps.whileBusy (hP.pure (fun _ => rfl) (fun _ => rfl) (fun _ => rfl) (fun _ => rfl) (fun _ => rfl) fun _ => rfl)

theorem StreamerSide.takeBusNotIdle (hP : StreamerSide p P) (c : BitVec 2) (n : Nat) :
    Keeps p P (whileBusy (takeBusNotIdle c n)) :=
  Keeps.whileBusy (hP.pure (fun _ => rfl) (fun _ => rfl) (fun _ => rfl) (fun _ => rfl) (fun _ => rfl) fun _ => rfl)

theorem StreamerSide.recordMemWrite (hP : StreamerSide p P) (a : RegAddr) (bs : List Byte) :
    Keeps p P (recordMemWrite a bs) :=
  Keeps.whileBusy (hP.pure (fun _ => rfl) (fun _ => rfl) (fun _ => rfl) (fun _ => rfl) (fun _ => rfl) fun _ => rfl)

theorem StreamerSide.runGap (hP : StreamerSide p P) : Keeps p P runGap := by
  intro s h
  unfold Machine.runGap
  cases hg : s.sched.gaps with
  | nil => exact h
  | cons g gs =>
    have ha := h.2
    simp only [gapsAll, hg, List.all_cons, Bool.and_eq_true] at ha
    have moves : ∀ (g : List Move) (u : State), g.all p = true → P u →
        P (g.foldl runMove u) ∧ (g.foldl runMove u).sched = u.sched := by
      intro g
      induction g with
      | nil => exact fun u _ hu => ⟨hu, rfl⟩
      | cons m g ih =>
        intro u hm hu
        simp only [List.all_cons, Bool.and_eq_true] at hm
        obtain ⟨a, b⟩ := ih (runMove u m) hm.2 (hP.move u m hm.1 hu)
        exact ⟨a, b.trans (runMove_sched u m)⟩
    obtain ⟨a, b⟩ := moves g { s with sched.gaps := gs } ha.1 (hP.congr s _ rfl rfl rfl rfl rfl h.1)
    exact ⟨a, by rw [b]; exact ha.2⟩

theorem StreamerSide.pinEvent (hP : StreamerSide p P) (e : PinEvent) : Keeps p P (pinEvent e) :=
  (hP.runGap.comp (hP.pure (f := pinAct e) (fun _ => rfl) (fun _ => rfl) (fun _ => rfl) (fun _ => rfl)
    (fun _ => rfl) fun _ => rfl).whileBusy).whileBusy

theorem StreamerSide.sampleLine (hP : StreamerSide p P) : Keeps p P fun s => (sampleLine s).2 := by
  intro s h
  unfold Machine.sampleLine
  dsimp only
  split
  · have g := hP.runGap s h
    split
    · exact hP.pure (f := fun s => (sampleAct s).2) (fun _ => rfl) (fun _ => rfl) (fun _ => rfl)
        (fun _ => rfl) (fun _ => rfl) (fun _ => rfl) _ g
    · exact g
  · exact h

theorem StreamerSide.probe (hP : StreamerSide p P) : Keeps p P fun s => (probe s).2 := by
  intro s h
  have h1 := hP.sampleLine _ (hP.pinEvent (.cfgIn .up) s h)
  have h2 := hP.sampleLine _ (hP.pinEvent (.cfgIn .down) _ (hP.pinEvent (.cfgOut false) _ h1))
  unfold Machine.probe
  dsimp only
  split
  · exact h1
  · split <;> exact h2

theorem StreamerSide.sendBit (hP : StreamerSide p P) (e : PinEvent) : Keeps p P (sendBit e) :=
  ((hP.pinEvent e).comp ((hP.pinEvent (.sclk true)).comp (hP.pinEvent (.sclk false)))).comp hP.countBit

theorem StreamerSide.sendByte (hP : StreamerSide p P) (b : Byte) : Keeps p P (sendByte b) :=
  (Keeps.foldl (f := fun s i => Machine.sendBit (presentBit b i) s)
    (fun i => hP.sendBit (presentBit b i)) bitOrder).comp hP.endByte

theorem StreamerSide.serialWriteByte (hP : StreamerSide p P) (b : Byte) (done : Nat) :
    Keeps p P (serialWriteByte b done) := by
  intro s h
  have hp := hP.probe s h
  unfold Machine.serialWriteByte
  dsimp only
  split
  · exact hP.sendByte b _ hp
  · exact hP.takeBusNotIdle _ _ _ hp

theorem StreamerSide.receiveBit (hP : StreamerSide p P) : Keeps p P receiveBit := fun s h =>
  hP.countBit _ (hP.pinEvent (.sclk false) _ (hP.shiftIn _ _ (hP.sampleLine _ (hP.pinEvent (.sclk true) s h))))

theorem StreamerSide.serialReadByte (hP : StreamerSide p P) : Keeps p P serialReadByte := by
  intro s h
  have h1 := hP.clearSr _ (hP.pinEvent .cfgInKeep s h)
  have h2 := Keeps.foldl (f := fun s (_ : Nat) => Machine.receiveBit s) (fun _ => hP.receiveBit) bitOrder _ h1
  unfold Machine.serialReadByte
  generalize bitOrder = is at h2 ⊢
  exact hP.endByte _ h2

theorem StreamerSide.sendFrame (hP : StreamerSide p P) (bs : List Byte) (done : Nat) :
    Keeps p P (sendFrame bs done) := by
  induction bs generalizing done with
  | nil => exact fun s h => h
  | cons b bs ih => exact fun s h => ih _ _ (hP.serialWriteByte b done s h)

theorem StreamerSide.receiveBytes (hP : StreamerSide p P) (n : Nat) :
    Keeps p P fun s => (receiveBytes n s).2 := by
  induction n with
  | zero => exact fun s h => h
  | succ n ih => exact fun s h => ih _ (hP.serialReadByte s h)

theorem StreamerSide.finishSri (hP : StreamerSide p P) (v : Value) : Keeps p P (finishSri v) :=
  Keeps.whileBusy (hP.pure (fun _ => rfl) (fun _ => rfl) (fun _ => rfl) (fun _ => rfl) (fun _ => rfl) fun _ => rfl)

theorem StreamerSide.issueSri (hP : StreamerSide p P) (c : Option RefuseCode) {f : State → State}
    (hf : Keeps p P f) : Keeps p P (issueSri c f) := by
  intro s h
  have hr : ∀ c, Keeps p P (refuse c) := fun _ =>
    hP.pure (fun _ => rfl) (fun _ => rfl) (fun _ => rfl) (fun _ => rfl) (fun _ => rfl) fun _ => rfl
  unfold Machine.issueSri
  split
  · exact hr _ s h
  · split
    · exact hr _ s h
    · exact hf _ ⟨hP.congr s _ rfl rfl rfl rfl rfl h.1, h.2⟩

/-- No SRI operation touches the streamer: what the other agents' moves keep, it keeps (R83). -/
theorem StreamerSide.exec (hP : StreamerSide p P) {i : Instr} {s t : State} (hi : isSri i = true)
    (hg : gapsAll p s.sched.gaps = true) (h : P s) (he : exec i s = .next t) : P t := by
  cases i <;> simp only [isSri, Bool.false_eq_true] at hi <;>
    simp only [Machine.exec, execIsBusIdle, execSerialWrite, execSerialRead, execWriteReg, execReadReg,
      execCmdWrite, execCmdRead, Host.Outcome.next.injEq] at he <;> subst he
  case isBusIdle => exact (hP.issueSri _ (fun s h => hP.finishSri _ _ (hP.probe s h)) s ⟨h, hg⟩).1
  case serialWrite b =>
    exact (hP.issueSri _ (fun s h => hP.finishSri _ _ (hP.serialWriteByte _ _ s h)) s ⟨h, hg⟩).1
  case serialRead =>
    exact (hP.issueSri _ (fun s h => hP.finishSri _ _ (hP.serialReadByte s h)) s ⟨h, hg⟩).1
  case writeReg a l =>
    exact (hP.issueSri _ (fun s h => hP.finishSri _ _ (hP.recordMemWrite _ _ _ (hP.sendFrame _ _ s h))) s ⟨h, hg⟩).1
  case readReg a w =>
    exact (hP.issueSri _ (fun s h => hP.finishSri _ _ (hP.receiveBytes _ _ (hP.serialWriteByte _ _ s h)))
      s ⟨h, hg⟩).1
  case cmdWrite a =>
    exact (hP.issueSri _ (fun s h => hP.finishSri _ _ (hP.serialWriteByte _ _ s h)) s ⟨h, hg⟩).1
  case cmdRead a =>
    exact (hP.issueSri _ (fun s h => hP.finishSri _ _ (hP.serialWriteByte _ _ s h)) s ⟨h, hg⟩).1

end

/-! ### How a part of an operation ends -/

/-- A part of an operation run from `s` leaves it going on, the SRI changed by `f`, or abandoned by a reset event. -/
def Ends (s t : State) (f : Sri → Sri) : Prop :=
  (t.host.busy = true ∧ t.sri = f s.sri) ∨ (t.host.busy = false ∧ SriAtReset t.sri)

/-- Parts one after another: an operation that is over does nothing more. -/
theorem Ends.step {s t : State} {f g : Sri → Sri} {k : State → State} (h : Ends s t f)
    (hk : t.host.busy = true → Ends t (k t) g) (hi : t.host.busy = false → k t = t) :
    Ends s (k t) fun r => g (f r) := by
  obtain ⟨b, e⟩ | ⟨b, e⟩ := h
  · obtain ⟨b', e'⟩ | h' := hk b
    · exact .inl ⟨b', by rw [e', e]⟩
    · exact .inr h'
  · rw [hi b]
    exact .inr ⟨b, e⟩

theorem runMove_ends {s : State} (m : Move) (h : s.host.busy = true) : Ends s (runMove s m) id := by
  cases m with
  | reset => exact .inr ⟨rfl, resetEvent_bus s⟩
  | consumer =>
    obtain ⟨-, b, c, -⟩ := runMove_frame s .consumer rfl
    exact .inl ⟨by rw [c]; exact h, b⟩
  | ext e => exact .inl ⟨h, rfl⟩
  | pclk v => exact .inl ⟨h, rfl⟩

/-- After a reset event nothing an agent does before HOST's next operation disturbs the SRI. -/
theorem runMove_idle {s : State} (m : Move) (h : s.host.busy = false ∧ SriAtReset s.sri) :
    (runMove s m).host.busy = false ∧ SriAtReset (runMove s m).sri := by
  cases m with
  | reset => exact ⟨rfl, resetEvent_bus s⟩
  | consumer =>
    obtain ⟨-, b, c, -⟩ := runMove_frame s .consumer rfl
    rw [b, c]; exact h
  | ext e => exact h
  | pclk v => exact h

theorem runGap_ends {s : State} (h : s.host.busy = true) : Ends s (runGap s) id := by
  have idle : ∀ (g : List Move) (u : State), u.host.busy = false ∧ SriAtReset u.sri →
      (g.foldl runMove u).host.busy = false ∧ SriAtReset (g.foldl runMove u).sri := by
    intro g
    induction g with
    | nil => exact fun u hu => hu
    | cons m g ih => exact fun u hu => ih _ (runMove_idle m hu)
  have moves : ∀ (g : List Move) (u : State), u.host.busy = true → u.sri = s.sri →
      Ends s (g.foldl runMove u) id := by
    intro g
    induction g with
    | nil => exact fun u hu he => .inl ⟨hu, he⟩
    | cons m g ih =>
      intro u hu he
      obtain ⟨b, e⟩ | hr := runMove_ends m hu
      · exact ih _ b (e.trans he)
      · exact .inr (idle g _ hr)
  unfold runGap
  cases hg : s.sched.gaps with
  | nil => exact .inl ⟨h, rfl⟩
  | cons g gs => exact moves g _ h rfl

theorem pinEvent_ends {s : State} (e : PinEvent) (h : s.host.busy = true) :
    Ends s (pinEvent e s) (applyPin e) := by
  rw [pinEvent_of_busy s e h]
  exact (runGap_ends h).step (g := applyPin e)
    (fun b => .inl ⟨by rw [whileBusy_of_busy _ _ b]; exact b, by rw [whileBusy_of_busy _ _ b]; rfl⟩)
    (fun b => whileBusy_of_idle _ _ b)

theorem sampleLine_ends {s : State} (h : s.host.busy = true) : Ends s (sampleLine s).2 id := by
  rw [sampleLine_of_busy s h]
  obtain ⟨b, e⟩ | ⟨b, e⟩ := runGap_ends h
  · rw [if_pos b]
    exact .inl ⟨b, e⟩
  · rw [if_neg (by simp [b])]
    exact .inr ⟨b, e⟩

theorem sendBit_of_idle {s : State} (p : PinEvent) (h : s.host.busy = false) : sendBit p s = s := by
  simp [sendBit, pinEvent_of_idle s _ h, countBit, whileBusy_of_idle _ _ h]

/-- An update of the SRI that is a part of the operation in progress. -/
theorem update_ends {s : State} (f : Sri → Sri) (h : s.host.busy = true) :
    Ends s (whileBusy (fun s => { s with sri := f s.sri }) s) f := by
  rw [whileBusy_of_busy _ _ h]
  exact .inl ⟨h, rfl⟩

theorem endByte_ends {s : State} (h : s.host.busy = true) :
    Ends s (endByte s) fun r => { r with bitcnt := 0 } :=
  update_ends (fun r => { r with bitcnt := 0 }) h

theorem sendBit_ends {s : State} (p : PinEvent) (h : s.host.busy = true) :
    Ends s (sendBit p s) fun r => { applyPin p r with sclk := false, bitcnt := r.bitcnt + 1 } := by
  have := (((pinEvent_ends p h).step (pinEvent_ends (.sclk true)) (pinEvent_of_idle _ _)).step
    (pinEvent_ends (.sclk false)) (pinEvent_of_idle _ _)).step
    (update_ends fun r => { r with bitcnt := r.bitcnt + 1 }) (whileBusy_of_idle _ _)
  obtain ⟨b, e⟩ | hr := this
  · exact .inl ⟨b, e.trans (by cases p <;> rfl)⟩
  · exact .inr hr

theorem sendBits_ends (b : Byte) (is : List Nat) {s : State} (h : s.host.busy = true) :
    Ends s (is.foldl (fun s i => sendBit (presentBit b i) s) s) fun r => is.foldl (fun r i =>
      { applyPin (presentBit b i) r with sclk := false, bitcnt := r.bitcnt + 1 }) r := by
  have idle : ∀ (is : List Nat) (u : State), u.host.busy = false →
      is.foldl (fun s i => sendBit (presentBit b i) s) u = u := by
    intro is
    induction is with
    | nil => exact fun u _ => rfl
    | cons i is ih => exact fun u hu => by rw [List.foldl_cons, sendBit_of_idle _ hu, ih u hu]
  induction is generalizing s with
  | nil => exact .inl ⟨h, rfl⟩
  | cons i is ih =>
    exact (sendBit_ends (presentBit b i) h).step
      (k := fun u => is.foldl (fun s i => sendBit (presentBit b i) s) u) (fun b => ih b) (idle is _)

theorem sendByte_of_idle {s : State} (b : Byte) (h : s.host.busy = false) : sendByte b s = s := by
  have idle : ∀ (is : List Nat), is.foldl (fun s i => sendBit (presentBit b i) s) s = s := by
    intro is
    induction is with
    | nil => rfl
    | cons i is ih => rw [List.foldl_cons, sendBit_of_idle _ h, ih]
  rw [sendByte, idle, endByte, whileBusy_of_idle _ _ h]

theorem sendByte_ends {s : State} (b : Byte) (h : s.host.busy = true) :
    Ends s (sendByte b s) fun r =>
      { r with sclk := false, sdioDir := .output, sdioOut := b.getLsbD 0, bitcnt := 0 } :=
  (sendBits_ends b bitOrder h).step (k := endByte) endByte_ends (whileBusy_of_idle _ _)

theorem probe_ends {s : State} (h : s.host.busy = true) :
    Ends s (probe s).2 fun r => { r with
      sdioDir := .input
      sdioOut := if (probe s).1 = 1 then r.sdioOut else false
      sdioPull := if (probe s).1 = 1 then .up else .down } := by
  have h1 := (pinEvent_ends (.cfgIn .up) h).step (k := fun s => (sampleLine s).2) sampleLine_ends
    (fun b => by rw [sampleLine_of_idle _ b])
  have h2 := ((h1.step (pinEvent_ends (.cfgOut false)) (pinEvent_of_idle _ _)).step
    (pinEvent_ends (.cfgIn .down)) (pinEvent_of_idle _ _)).step (k := fun s => (sampleLine s).2)
    sampleLine_ends (fun b => by rw [sampleLine_of_idle _ b])
  unfold probe
  dsimp only
  split
  · exact h1
  · split <;> exact h2

theorem receiveBit_ends {s : State} (h : s.host.busy = true) :
    ∃ l, Ends s (receiveBit s) fun r =>
      { r with sclk := false, sr := accumulate r.sr l, bitcnt := r.bitcnt + 1 } := by
  have h1 := (pinEvent_ends (.sclk true) h).step (k := fun s => (sampleLine s).2) sampleLine_ends
    (fun b => by rw [sampleLine_of_idle _ b])
  refine ⟨(sampleLine (pinEvent (.sclk true) s)).1, ?_⟩
  exact ((h1.step (k := shiftIn (sampleLine (pinEvent (.sclk true) s)).1)
    (update_ends fun r => { r with sr := accumulate r.sr (sampleLine (pinEvent (.sclk true) s)).1 })
    (whileBusy_of_idle _ _)).step (pinEvent_ends (.sclk false)) (pinEvent_of_idle _ _)).step
    (k := countBit) (update_ends fun r => { r with bitcnt := r.bitcnt + 1 }) (whileBusy_of_idle _ _)

theorem serialReadByte_ends {s : State} (h : s.host.busy = true) :
    ∃ v, Ends s (serialReadByte s) fun r =>
      { r with sclk := false, sdioDir := .input, sr := v, bitcnt := 0 } := by
  have idle : ∀ (is : List Nat) (u : State), u.host.busy = false →
      is.foldl (fun s _ => receiveBit s) u = u := by
    intro is
    induction is with
    | nil => exact fun u _ => rfl
    | cons i is ih => exact fun u hu => by rw [List.foldl_cons, receiveBit_of_idle hu, ih u hu]
  have bits : ∀ (is : List Nat) (u : State), u.host.busy = true → ∃ ls : List Bool,
      Ends u (is.foldl (fun s _ => receiveBit s) u) fun r =>
        { r with sclk := if is = [] then r.sclk else false, sr := ls.foldl accumulate r.sr,
                 bitcnt := r.bitcnt + is.length } := by
    intro is
    induction is with
    | nil => exact fun u hu => ⟨[], .inl ⟨hu, rfl⟩⟩
    | cons i is ih =>
      intro u hu
      obtain ⟨l, e⟩ := receiveBit_ends hu
      obtain ⟨b, e⟩ | ⟨b, e⟩ := e
      · obtain ⟨ls, e'⟩ := ih _ b
        refine ⟨l :: ls, ?_⟩
        obtain ⟨b', e'⟩ | e' := e'
        · refine .inl ⟨b', e'.trans ?_⟩
          rw [e]
          simp
          omega
        · exact .inr e'
      · exact ⟨[], by rw [List.foldl_cons, idle is _ b]; exact .inr ⟨b, e⟩⟩
  unfold serialReadByte
  have h1 := (pinEvent_ends .cfgInKeep h).step (k := clearSr) (update_ends fun r => { r with sr := 0 })
    (whileBusy_of_idle _ _)
  obtain ⟨b, e⟩ | ⟨b, e⟩ := h1
  · obtain ⟨ls, e2⟩ := bits bitOrder _ b
    refine ⟨ls.foldl accumulate 0, ?_⟩
    have h3 := e2.step (k := endByte) endByte_ends (whileBusy_of_idle _ _)
    obtain ⟨b3, e3⟩ | h3 := h3
    · exact .inl ⟨b3, e3.trans (by rw [e]; rfl)⟩
    · exact .inr h3
  · refine ⟨0, ?_⟩
    rw [idle bitOrder _ b, endByte, whileBusy_of_idle _ _ b]
    exact .inr ⟨b, e⟩

/-! ### How an operation leaves the SRI -/

/-- The SRI as it is between operations (R24, R28, R128). -/
structure Quiet (r : Sri) : Prop where
  clock   : r.sclk = false
  bits    : r.bitcnt = 0
  cause   : r.busFault = false ↔ r.busFaultCause = 0
  noThree : r.busFaultCause ≠ 3

theorem SriAtReset.quiet {r : Sri} (h : SriAtReset r) : Quiet r :=
  ⟨h.sclk, h.bitcnt, by simp [h.busFault, h.busFaultCause], by simp [h.busFaultCause]⟩

/-- Quiet, and unfaulted while an operation is in progress. -/
def QuietOp (s : State) : Prop := Quiet s.sri ∧ (s.host.busy = true → s.sri.busFault = false)

theorem Ends.quietOp {s t : State} {f : Sri → Sri} (h : Ends s t f) (hb : s.host.busy = true) (q : QuietOp s)
    (hf : ∀ r : Sri, (f r).sclk = false ∧ (f r).bitcnt = 0 ∧ (f r).busFault = r.busFault ∧
      (f r).busFaultCause = r.busFaultCause) : QuietOp t := by
  obtain ⟨-, e⟩ | ⟨b, e⟩ := h
  · obtain ⟨a, b, c, d⟩ := hf s.sri
    exact ⟨⟨by rw [e, a], by rw [e, b], by rw [e, c, d]; exact q.1.cause, by rw [e, d]; exact q.1.noThree⟩,
      fun _ => by rw [e, c]; exact q.2 hb⟩
  · exact ⟨e.quiet, fun h => by simp [b] at h⟩

/-- The probe leaves the clock and the bit counter as they were. -/
theorem probe_quiet {s : State} (q : QuietOp s) : QuietOp (probe s).2 := by
  cases hb : s.host.busy
  · rw [probe_of_idle hb]; exact q
  · obtain ⟨b, e⟩ | ⟨b, e⟩ := probe_ends hb
    · exact ⟨⟨by rw [e]; exact q.1.clock, by rw [e]; exact q.1.bits, by rw [e]; exact q.1.cause,
        by rw [e]; exact q.1.noThree⟩, fun _ => by rw [e]; exact q.2 hb⟩
    · exact ⟨e.quiet, fun h => by simp [b] at h⟩

theorem probe_cause (s : State) : (probe s).1 = 0 ∨ (probe s).1 = 1 ∨ (probe s).1 = 2 := by
  unfold probe
  dsimp only
  split
  · exact .inr (.inl rfl)
  · split
    · exact .inr (.inr rfl)
    · exact .inl rfl

theorem serialWriteByte_quiet {s : State} (b : Byte) (done : Nat) (q : QuietOp s) :
    QuietOp (serialWriteByte b done s) := by
  have qp := probe_quiet q
  unfold serialWriteByte
  dsimp only
  split
  · cases hb : (probe s).2.host.busy
    · rw [sendByte_of_idle b hb]; exact qp
    · exact (sendByte_ends b hb).quietOp hb qp fun r => ⟨rfl, rfl, rfl, rfl⟩
  · rename_i hc
    cases hb : (probe s).2.host.busy
    · rw [whileBusy_of_idle _ _ hb]; exact qp
    · rw [whileBusy_of_busy _ _ hb]
      obtain h0 | h1 | h1 := probe_cause s
      · exact absurd h0 hc
      all_goals
        rw [h1]
        exact ⟨⟨qp.1.clock, qp.1.bits, by simp, by simp⟩, fun h => by simp at h⟩

theorem sendFrame_quiet (bs : List Byte) (done : Nat) {s : State} (q : QuietOp s) :
    QuietOp (sendFrame bs done s) := by
  induction bs generalizing done s with
  | nil => exact q
  | cons b bs ih => exact ih _ (serialWriteByte_quiet b done q)

theorem serialReadByte_quiet {s : State} (q : QuietOp s) : QuietOp (serialReadByte s) := by
  cases hb : s.host.busy
  · rw [serialReadByte_of_idle hb]; exact q
  · obtain ⟨v, e⟩ := serialReadByte_ends hb
    exact e.quietOp hb q fun r => ⟨rfl, rfl, rfl, rfl⟩

theorem receiveBytes_quiet (n : Nat) {s : State} (q : QuietOp s) : QuietOp (receiveBytes n s).2 := by
  induction n generalizing s with
  | zero => exact q
  | succ n ih => exact ih (serialReadByte_quiet q)

theorem recordMemWrite_quiet (a : RegAddr) (bs : List Byte) {s : State} (q : QuietOp s) :
    QuietOp (recordMemWrite a bs s) := by
  unfold recordMemWrite whileBusy
  split <;> exact q

theorem finishSri_quiet (v : Value) {s : State} (q : QuietOp s) : Quiet (finishSri v s).sri := by
  unfold finishSri whileBusy
  split <;> exact q.1

theorem issueSri_quiet (c : Option RefuseCode) {f : State → State} (hf : ∀ s, QuietOp s → Quiet (f s).sri)
    {s : State} (q : Quiet s.sri) : Quiet (issueSri c f s).sri := by
  unfold issueSri
  split
  · exact q
  · rename_i hb
    split
    · exact q
    · exact hf _ ⟨q, fun _ => by simpa using hb⟩

/-- Every SRI operation leaves the SRI quiet, whatever the other agents do (R128, R28). -/
theorem exec_quiet {i : Instr} {s t : State} (hi : isSri i = true) (q : Quiet s.sri)
    (he : exec i s = .next t) : Quiet t.sri := by
  cases i <;> simp only [isSri, Bool.false_eq_true] at hi <;>
    simp only [exec, execIsBusIdle, execSerialWrite, execSerialRead, execWriteReg, execReadReg,
      execCmdWrite, execCmdRead, Host.Outcome.next.injEq] at he <;> subst he
  case isBusIdle => exact issueSri_quiet _ (fun s h => finishSri_quiet _ (probe_quiet h)) q
  case serialWrite b => exact issueSri_quiet _ (fun s h => finishSri_quiet _ (serialWriteByte_quiet _ _ h)) q
  case serialRead => exact issueSri_quiet _ (fun s h => finishSri_quiet _ (serialReadByte_quiet h)) q
  case writeReg a l =>
    exact issueSri_quiet _ (fun s h => finishSri_quiet _ (recordMemWrite_quiet _ _ (sendFrame_quiet _ _ h))) q
  case readReg a w =>
    exact issueSri_quiet _
      (fun s h => finishSri_quiet _ (receiveBytes_quiet _ (serialWriteByte_quiet _ _ h))) q
  case cmdWrite a => exact issueSri_quiet _ (fun s h => finishSri_quiet _ (serialWriteByte_quiet _ _ h)) q
  case cmdRead a => exact issueSri_quiet _ (fun s h => finishSri_quiet _ (serialWriteByte_quiet _ _ h)) q

/-- An SRI operation is over when it ends. -/
theorem finishSri_idle_after (v : Value) (s : State) : (finishSri v s).host.busy = false := by
  unfold finishSri whileBusy
  split
  · rfl
  · rename_i h; simpa using h

theorem issueSri_idle (c : Option RefuseCode) {f : State → State} (hf : ∀ s, (f s).host.busy = false)
    {s : State} (h : s.host.busy = false) : (issueSri c f s).host.busy = false := by
  unfold issueSri
  split
  · exact h
  · split
    · exact h
    · exact hf _

theorem exec_sri_idle {i : Instr} {s t : State} (hi : isSri i = true) (h : s.host.busy = false)
    (he : exec i s = .next t) : t.host.busy = false := by
  cases i <;> simp only [isSri, Bool.false_eq_true] at hi <;>
    simp only [exec, execIsBusIdle, execSerialWrite, execSerialRead, execWriteReg, execReadReg,
      execCmdWrite, execCmdRead, Host.Outcome.next.injEq] at he <;> subst he <;>
    exact issueSri_idle _ (fun s => finishSri_idle_after _ _) h

end Sys2Proof.Machine
end

