-- ==== Sys2Proof/Laws/History.lean ====
section
/-! SUPPORT. Nothing the machine does takes anything out of the history. -/

namespace Sys2Proof.Machine

/-- From `s` to `t` the event history only grew (R238). -/
structure Grows (s t : State) : Prop where
  pins      : s.hist.pins <+: t.hist.pins
  dWrites   : s.hist.dWrites <+: t.hist.dWrites
  memWrites : s.hist.memWrites <+: t.hist.memWrites
  results   : s.host.results <+: t.host.results

/-- A change of anything but the history. -/
theorem Grows.same {s t : State} (h : t.hist = s.hist) (r : t.host.results = s.host.results) : Grows s t := by
  constructor <;> simp [h, r]

theorem Grows.refl (s : State) : Grows s s := .same rfl rfl

theorem Grows.trans {s t u : State} (h : Grows s t) (g : Grows t u) : Grows s u :=
  ⟨h.pins.trans g.pins, h.dWrites.trans g.dWrites, h.memWrites.trans g.memWrites, h.results.trans g.results⟩

theorem shiftStep_grows (l : Lane) (n : StreamState) (s : State) : Grows s (shiftStep l n s) := by
  obtain ⟨-, -, e⟩ | ⟨q, -, e⟩ := shiftStep_cases l n s <;> rw [e]
  · exact .same rfl rfl
  · exact ⟨List.prefix_rfl, List.prefix_append _ _, List.prefix_rfl, List.prefix_rfl⟩

theorem waitStep_grows (b : Bool) (n : StreamState) (s : State) : Grows s (waitStep b n s) := by
  unfold waitStep
  split <;> exact .same rfl rfl

theorem consumerStep_grows (s : State) : Grows s (consumerStep s) := by
  cases ha : s.iqs.active
  · rw [consumerStep_inactive s ha]; exact .refl s
  · obtain ⟨-, e⟩ | ⟨-, e⟩ | ⟨-, e⟩ | ⟨-, e⟩ := consumerStep_cases s ha <;> rw [e]
    · exact waitStep_grows _ _ s
    · exact shiftStep_grows _ _ s
    · exact waitStep_grows _ _ s
    · exact shiftStep_grows _ _ s

theorem runMove_grows (s : State) (m : Move) : Grows s (runMove s m) := by
  cases m with
  | consumer => exact consumerStep_grows s
  | ext e => exact .same rfl rfl
  | pclk v => exact .same rfl rfl
  | reset => exact ⟨List.prefix_rfl, List.prefix_append _ _, List.prefix_rfl, List.prefix_rfl⟩

theorem runMoves_grows (g : List Move) (s : State) : Grows s (g.foldl runMove s) := by
  induction g generalizing s with
  | nil => exact .refl s
  | cons m g ih => exact (runMove_grows s m).trans (ih _)

theorem runGap_grows (s : State) : Grows s (runGap s) := by
  unfold runGap
  split
  · exact .refl s
  · rename_i g gs _
    exact Grows.trans (t := { s with sched.gaps := gs }) (.same rfl rfl) (runMoves_grows g _)

theorem whileBusy_grows {f : State → State} (hf : ∀ s, Grows s (f s)) (s : State) : Grows s (whileBusy f s) := by
  unfold whileBusy
  split
  · exact hf s
  · exact .refl s

theorem pinAct_grows (e : PinEvent) (s : State) : Grows s (pinAct e s) :=
  ⟨List.prefix_append _ _, List.prefix_rfl, List.prefix_rfl, List.prefix_rfl⟩

theorem pinEvent_grows (e : PinEvent) (s : State) : Grows s (pinEvent e s) :=
  whileBusy_grows (fun s => (runGap_grows s).trans (whileBusy_grows (pinAct_grows e) _)) s

theorem sampleLine_grows (s : State) : Grows s (sampleLine s).2 := by
  unfold sampleLine
  split
  · refine (runGap_grows s).trans ?_
    dsimp only
    split
    · exact ⟨List.prefix_append _ _, List.prefix_rfl, List.prefix_rfl, List.prefix_rfl⟩
    · exact .refl _
  · exact .refl s

/-- A part of an operation that is not a pin event writes only the SRI. -/
theorem update_grows (f : Sri → Sri) (s : State) : Grows s (whileBusy (fun s => { s with sri := f s.sri }) s) :=
  whileBusy_grows (f := fun s => { s with sri := f s.sri }) (fun _ => .same rfl rfl) s

theorem countBit_grows (s : State) : Grows s (countBit s) :=
  update_grows (fun r => { r with bitcnt := r.bitcnt + 1 }) s

theorem endByte_grows (s : State) : Grows s (endByte s) := update_grows (fun r => { r with bitcnt := 0 }) s

theorem clearSr_grows (s : State) : Grows s (clearSr s) := update_grows (fun r => { r with sr := 0 }) s

theorem shiftIn_grows (b : Bool) (s : State) : Grows s (shiftIn b s) :=
  update_grows (fun r => { r with sr := accumulate r.sr b }) s

theorem probe_grows (s : State) : Grows s (probe s).2 := by
  have h1 := (pinEvent_grows (.cfgIn .up) s).trans (sampleLine_grows _)
  have h2 := ((h1.trans (pinEvent_grows (.cfgOut false) _)).trans (pinEvent_grows (.cfgIn .down) _)).trans
    (sampleLine_grows _)
  unfold probe
  dsimp only
  split
  · exact h1
  · split <;> exact h2

theorem sendBit_grows (p : PinEvent) (s : State) : Grows s (sendBit p s) :=
  (((pinEvent_grows p s).trans (pinEvent_grows _ _)).trans (pinEvent_grows _ _)).trans (countBit_grows _)

theorem foldl_grows {ι : Type} {f : State → ι → State} (hf : ∀ s i, Grows s (f s i)) (is : List ι) (s : State) :
    Grows s (is.foldl f s) := by
  induction is generalizing s with
  | nil => exact .refl s
  | cons i is ih => exact (hf s i).trans (ih _)

theorem sendByte_grows (b : Byte) (s : State) : Grows s (sendByte b s) :=
  (foldl_grows (fun s i => sendBit_grows (presentBit b i) s) bitOrder s).trans (endByte_grows _)

theorem serialWriteByte_grows (b : Byte) (done : Nat) (s : State) : Grows s (serialWriteByte b done s) := by
  refine (probe_grows s).trans ?_
  unfold serialWriteByte
  dsimp only
  split
  · exact sendByte_grows b _
  · exact whileBusy_grows (fun s => by constructor <;> simp [takeBusNotIdle]) _

theorem receiveBit_grows (s : State) : Grows s (receiveBit s) :=
  ((((pinEvent_grows _ s).trans (sampleLine_grows _)).trans (shiftIn_grows _ _)).trans
    (pinEvent_grows _ _)).trans (countBit_grows _)

theorem serialReadByte_grows (s : State) : Grows s (serialReadByte s) :=
  (((pinEvent_grows _ s).trans (clearSr_grows _)).trans
    (foldl_grows (fun s _ => receiveBit_grows s) bitOrder _)).trans (endByte_grows _)

theorem sendFrame_grows (bs : List Byte) (done : Nat) (s : State) : Grows s (sendFrame bs done s) := by
  induction bs generalizing done s with
  | nil => exact .refl s
  | cons b bs ih => exact (serialWriteByte_grows b done s).trans (ih _ _)

theorem receiveBytes_grows (n : Nat) (s : State) : Grows s (receiveBytes n s).2 := by
  induction n generalizing s with
  | zero => exact .refl s
  | succ n ih => exact (serialReadByte_grows s).trans (ih _)

theorem recordMemWrite_grows (a : RegAddr) (bs : List Byte) (s : State) : Grows s (recordMemWrite a bs s) :=
  whileBusy_grows (f := fun s => { s with hist.memWrites := s.hist.memWrites ++ [⟨a, bs⟩] })
    (fun s => by constructor <;> simp) s

theorem finishSri_grows (v : Value) (s : State) : Grows s (finishSri v s) :=
  whileBusy_grows
    (f := fun s => { s with host.busy := false, host.results := s.host.results ++ [.ok v] })
    (fun s => by constructor <;> simp) s

theorem issueSri_grows (c : Option RefuseCode) {f : State → State} (hf : ∀ s, Grows s (f s)) (s : State) :
    Grows s (issueSri c f s) := by
  have hr : ∀ c, Grows s (refuse c s) := fun _ =>
    ⟨List.prefix_rfl, List.prefix_rfl, List.prefix_rfl, List.prefix_append _ _⟩
  unfold issueSri
  split
  · exact hr _
  · split
    · exact hr _
    · exact Grows.trans (t := { s with host.busy := true }) (.same rfl rfl) (hf _)

end Sys2Proof.Machine
end

