-- ==== Sys2Proof/Laws/Abandon.lean ====
section
/-! SUPPORT. An SRI operation with a reset event in one of its gaps, beside the same operation without it: the two go
along together until that gap, then the first is over. -/

namespace Sys2Proof.Machine

/-! ### Moves do not look at the schedule -/

theorem consumerStep_gaps (s : State) (g : List (List Move)) :
    consumerStep { s with sched.gaps := g } = { consumerStep s with sched.gaps := g } := by
  cases ha : s.iqs.active
  · rw [consumerStep_inactive _ (by exact ha), consumerStep_inactive s ha]
  · cases hs : s.iqs.state <;>
      simp only [consumerStep, hs, whenSelected, ha, and_self, if_true, stepWaitILow, stepShiftI,
        stepWaitQHigh, stepShiftQ, waitStep, shiftStep] <;> split <;> rfl

theorem runMove_gaps (s : State) (m : Move) (g : List (List Move)) :
    runMove { s with sched.gaps := g } m = { runMove s m with sched.gaps := g } := by
  cases m with
  | consumer => exact consumerStep_gaps s g
  | _ => rfl

theorem runMoves_gaps (ms : List Move) (s : State) (g : List (List Move)) :
    ms.foldl runMove { s with sched.gaps := g } = { ms.foldl runMove s with sched.gaps := g } := by
  induction ms generalizing s with
  | nil => rfl
  | cons m ms ih => rw [List.foldl_cons, runMove_gaps, ih, List.foldl_cons]

/-! ### A gap with a reset event in it -/

/-- The block is at reset and no operation is in progress, with the results and the records of HOST's operations as in
`s`. -/
structure Stopped (s t : State) : Prop where
  busy      : t.host.busy = false
  sri       : SriAtReset t.sri
  streamer  : StreamerAtReset t.iqs
  results   : t.host.results = s.host.results
  memWrites : t.hist.memWrites = s.hist.memWrites
  pins      : t.hist.pins = s.hist.pins
  sched     : t.sched = s.sched

theorem Stopped.of_reset (s : State) : Stopped s (resetEvent s) :=
  ⟨rfl, resetEvent_bus s, resetEvent_streamer s, rfl, rfl, rfl, rfl⟩

/-- After a reset event no move starts anything again. -/
theorem Stopped.runMove {s t : State} (h : Stopped s t) (m : Move) : Stopped s (runMove t m) := by
  cases m with
  | consumer => rw [Machine.runMove, consumerStep_inactive t h.streamer.active]; exact h
  | ext e => exact ⟨h.busy, h.sri, h.streamer, h.results, h.memWrites, h.pins, h.sched⟩
  | pclk v => exact ⟨h.busy, h.sri, h.streamer, h.results, h.memWrites, h.pins, h.sched⟩
  | reset =>
    have r := Stopped.of_reset t
    exact ⟨r.busy, r.sri, r.streamer, h.results, h.memWrites, h.pins, h.sched⟩

theorem runMoves_reset (g : List Move) (s : State) (hg : .reset ∈ g) : Stopped s (g.foldl runMove s) := by
  have after : ∀ (g : List Move) (t : State), Stopped s t → Stopped s (g.foldl runMove t) := by
    intro g
    induction g with
    | nil => exact fun t h => h
    | cons m g ih => exact fun t h => ih _ (h.runMove m)
  have upTo : ∀ (g : List Move) (t : State), .reset ∈ g → t.host.results = s.host.results →
      t.hist.memWrites = s.hist.memWrites → t.hist.pins = s.hist.pins → t.sched = s.sched →
      Stopped s (g.foldl runMove t) := by
    intro g
    induction g with
    | nil => intro t h; simp at h
    | cons m g ih =>
      intro t h r w p c
      by_cases hm : m = .reset
      · subst hm
        have k := Stopped.of_reset t
        exact after g _ ⟨k.busy, k.sri, k.streamer, r, w, p, c⟩
      · have hn : m.notReset = true := by cases m <;> simp_all [Move.notReset]
        obtain ⟨-, -, kh, kc, kp, kw, -⟩ := runMove_frame t m hn
        have hg : .reset ∈ g := by
          rcases List.mem_cons.mp h with e | e
          · exact absurd e.symm hm
          · exact e
        exact ih _ hg (by rw [kh, r]) (by rw [kw, w]) (by rw [kp, p]) (by rw [kc, c])
  exact upTo g s hg rfl rfl rfl rfl

/-! ### Two runs of one operation -/

section

variable (s : State) (pre : List (List Move)) (gap : List Move) (gs : List (List Move))

/-- Not yet at the gap of the reset event: the two states are the same but for the gaps still ahead, and as many gaps
are gone as there were pin events. -/
structure Along (a b : State) : Prop where
  same  : a = { b with sched.gaps := b.sched.gaps ++ gap :: gs }
  spent : ∃ tr, b.hist.pins = s.hist.pins ++ tr ∧ tr.length ≤ pre.length ∧
    b.sched.gaps = pre.drop tr.length

/-- Nothing returned and nothing written to the target yet. -/
structure Fresh (b : State) : Prop where
  results   : b.host.results = s.host.results
  memWrites : b.hist.memWrites = s.hist.memWrites

/-- Past that gap: the one run is over, with the events before the gap and nothing else; the other has more. -/
structure Cut (a b : State) : Prop where
  busy      : a.host.busy = false
  sri       : SriAtReset a.sri
  streamer  : StreamerAtReset a.iqs
  results   : a.host.results = s.host.results
  memWrites : a.hist.memWrites = s.hist.memWrites
  gaps      : a.sched.gaps = gs
  events    : ∃ tr, b.hist.pins = s.hist.pins ++ tr ∧ pre.length < tr.length ∧
    a.hist.pins = s.hist.pins ++ tr.take pre.length

/-- The two runs in the middle of the operation, with the values they read (which count only while it goes on). -/
def Pace {α : Type} (a b : α × State) : Prop :=
  (Along s pre gap gs a.2 b.2 ∧ (b.2.host.busy = true → Fresh s b.2 ∧ a.1 = b.1)) ∨
    Cut s pre gs a.2 b.2

/-- A part of an SRI operation, from what was read before it to what it reads: nothing if the operation is over, and in
step otherwise. -/
structure Part {α β : Type} (f : α → State → β × State) : Prop where
  idle  : ∀ x u, u.host.busy = false → (f x u).2 = u
  grows : ∀ x u, Grows u (f x u).2
  run   : ∀ x a b, Along s pre gap gs a b → b.host.busy = true → Fresh s b → Pace s pre gap gs (f x a) (f x b)

variable {s pre gap gs}

theorem Along.busy {a b : State} (h : Along s pre gap gs a b) : a.host.busy = b.host.busy := by rw [h.same]

theorem Cut.grow {a b c : State} (h : Cut s pre gs a b) (g : Grows b c) : Cut s pre gs a c := by
  obtain ⟨tr, e, l, p⟩ := h.events
  obtain ⟨more, m⟩ := g.pins
  refine ⟨h.busy, h.sri, h.streamer, h.results, h.memWrites, h.gaps, tr ++ more, ?_, ?_, ?_⟩
  · rw [← m, e, List.append_assoc]
  · simp; omega
  · rw [p, List.take_append_of_le_length (by omega)]

/-- A part run in both. -/
theorem Part.step {α β : Type} {f : α → State → β × State} (hf : Part s pre gap gs f) {a b : α × State}
    (h : Pace s pre gap gs a b) : Pace s pre gap gs (f a.1 a.2) (f b.1 b.2) := by
  obtain ⟨al, k⟩ | c := h
  · cases hb : b.2.host.busy
    · refine .inl ?_
      rw [hf.idle _ _ (al.busy.trans hb), hf.idle _ _ hb, hb]
      exact ⟨al, by simp⟩
    · obtain ⟨fr, e⟩ := k hb
      rw [e]
      exact hf.run _ _ _ al hb fr
  · refine .inr ?_
    rw [hf.idle _ _ c.busy]
    exact c.grow (hf.grows _ _)

theorem Part.comp {α β γ : Type} {f : α → State → β × State} {g : β → State → γ × State}
    (hf : Part s pre gap gs f) (hg : Part s pre gap gs g) :
    Part s pre gap gs fun x u => g (f x u).1 (f x u).2 where
  idle x u h := by rw [hg.idle _ _ (by rw [hf.idle x u h]; exact h), hf.idle x u h]
  grows x u := (hf.grows x u).trans (hg.grows _ _)
  run x a b al hb fr := hg.step (hf.run x a b al hb fr)

theorem Part.branch {α β : Type} {f g : α → State → β × State} (p : α → Prop) [DecidablePred p]
    (hf : Part s pre gap gs f) (hg : Part s pre gap gs g) :
    Part s pre gap gs fun x u => if p x then f x u else g x u where
  idle x u h := by split; exacts [hf.idle x u h, hg.idle x u h]
  grows x u := by split; exacts [hf.grows x u, hg.grows x u]
  run x a b al hb fr := by split; exacts [hf.run x a b al hb fr, hg.run x a b al hb fr]

/-- What was read before stays known. -/
theorem Part.keep {α β γ : Type} {f : α → State → β × State} (hf : Part s pre gap gs f) :
    Part s pre gap gs fun (x : γ × α) u => ((x.1, (f x.2 u).1), (f x.2 u).2) where
  idle x u h := hf.idle x.2 u h
  grows x u := hf.grows x.2 u
  run x a b al hb fr := by
    obtain ⟨al', k⟩ | c := hf.run x.2 a b al hb fr
    · exact .inl ⟨al', fun hb' => ⟨(k hb').1, by rw [(k hb').2]⟩⟩
    · exact .inr c

/-- A value taken from the SRI, which is the same in both. -/
theorem Part.look {α β : Type} (g : α → Sri → β) : Part s pre gap gs fun x u => (g x u.sri, u) where
  idle _ _ _ := rfl
  grows _ u := .refl u
  run x a b al hb fr := .inl ⟨al, fun _ => ⟨fr, by rw [al.same]⟩⟩

theorem Part.const {α β : Type} (v : β) : Part s pre gap gs fun (_ : α) u => (v, u) :=
  .look fun _ _ => v

/-- An update of the SRI between two pin events. -/
theorem Part.update {α : Type} (f : α → Sri → Sri) :
    Part s pre gap gs fun x u => ((), whileBusy (fun u => { u with sri := f x u.sri }) u) where
  idle x u h := whileBusy_of_idle u (fun u => { u with sri := f x u.sri }) h
  grows x u := update_grows (f x) u
  run x a b al hb fr := by
    rw [whileBusy_of_busy _ _ (al.busy.trans hb), whileBusy_of_busy _ _ hb]
    exact .inl ⟨⟨by rw [al.same], al.spent⟩, fun _ => ⟨⟨fr.results, fr.memWrites⟩, rfl⟩⟩

theorem Part.fault {α : Type} (cause : α → BitVec 2) (done : Nat) :
    Part s pre gap gs fun x u => ((), whileBusy (takeBusNotIdle (cause x) done) u) where
  idle x u h := whileBusy_of_idle u (takeBusNotIdle (cause x) done) h
  grows x u := whileBusy_grows (fun s => by constructor <;> simp [takeBusNotIdle]) u
  run x a b al hb fr := by
    rw [whileBusy_of_busy _ _ (al.busy.trans hb), whileBusy_of_busy _ _ hb]
    exact .inl ⟨⟨by rw [al.same]; rfl, al.spent⟩, fun h => by simp [takeBusNotIdle] at h⟩

/-- The gap before an event: another one gone in both, or the one with the reset event. -/
theorem Along.runGap {a b : State} (al : Along s pre gap gs a b) (hpre : gapsAll Move.notReset pre = true)
    (hgap : .reset ∈ gap) (hb : b.host.busy = true) (fr : Fresh s b) :
    (Machine.runGap b).host.busy = true ∧ Fresh s (Machine.runGap b) ∧
    (((∃ tr, (Machine.runGap b).hist.pins = s.hist.pins ++ tr ∧ tr.length < pre.length ∧
        (Machine.runGap b).sched.gaps = pre.drop (tr.length + 1)) ∧
      Machine.runGap a = { Machine.runGap b with sched.gaps := (Machine.runGap b).sched.gaps ++ gap :: gs }) ∨
      (Machine.runGap a).host.busy = false ∧
      ∀ c : State, (∃ r, c.hist.pins = (Machine.runGap b).hist.pins ++ [r]) → Cut s pre gs (Machine.runGap a) c) := by
  obtain ⟨tr, e, l, g⟩ := al.spent
  have hlive : Live b := ⟨hb, by
    rw [g]
    simp only [gapsAll, List.all_eq_true] at hpre ⊢
    exact fun x hx => hpre x (List.mem_of_mem_drop hx)⟩
  obtain ⟨w, ws, wl⟩ := runGap_live hlive
  refine ⟨wl.busy, ⟨by rw [w.host, fr.results], by rw [w.memWrites, fr.memWrites]⟩, ?_⟩
  rcases Nat.lt_or_eq_of_le l with hl | hl
  · refine .inl ?_
    rw [List.drop_eq_getElem_cons hl] at g
    have hB : Machine.runGap b = (pre[tr.length]).foldl runMove { b with sched.gaps := pre.drop (tr.length + 1) } := by
      rw [Machine.runGap, g]
    have hA : Machine.runGap a = (pre[tr.length]).foldl runMove
        { b with sched.gaps := pre.drop (tr.length + 1) ++ gap :: gs } := by
      rw [Machine.runGap, al.same]
      simp only [g, List.cons_append]
    have hs : (Machine.runGap b).sched.gaps = pre.drop (tr.length + 1) := by
      rw [hB, runMoves_gaps]
    refine ⟨⟨tr, by rw [w.pins, e, List.append_nil], hl, hs⟩, ?_⟩
    rw [hs, hA, hB, runMoves_gaps _ b (_ ++ _), runMoves_gaps _ b (pre.drop _)]
  · refine .inr ?_
    have g0 : b.sched.gaps = [] := by rw [g, hl]; simp
    have hB : Machine.runGap b = b := by rw [Machine.runGap, g0]
    have hA : Machine.runGap a = gap.foldl runMove { b with sched.gaps := gs } := by
      rw [Machine.runGap, al.same]
      simp only [g0, List.nil_append]
    have st := runMoves_reset gap { b with sched.gaps := gs } hgap
    rw [hA, hB]
    refine ⟨st.busy, ?_⟩
    rintro c ⟨r, hr⟩
    refine ⟨st.busy, st.sri, st.streamer, st.results.trans fr.results, st.memWrites.trans fr.memWrites,
      by rw [st.sched], tr ++ [r], by rw [hr, e, List.append_assoc], by simp [hl], ?_⟩
    rw [st.pins, ← hl]
    simpa using e

theorem Part.pin {α : Type} (hpre : gapsAll Move.notReset pre = true) (hgap : .reset ∈ gap) (e : PinEvent) :
    Part s pre gap gs fun (_ : α) u => ((), pinEvent e u) where
  idle _ u h := pinEvent_of_idle u e h
  grows _ u := pinEvent_grows e u
  run x a b al hb fr := by
    obtain ⟨kb, kf, ⟨⟨tr, ep, el, eg⟩, ea⟩ | ⟨ka, kc⟩⟩ := al.runGap hpre hgap hb fr
    · have kab : (runGap a).host.busy = true := by rw [ea]; exact kb
      rw [pinEvent_of_busy _ _ (al.busy.trans hb), pinEvent_of_busy _ _ hb, whileBusy_of_busy _ _ kab,
        whileBusy_of_busy _ _ kb]
      exact .inl ⟨⟨by rw [ea]; rfl, tr ++ [⟨e, (pinAct e (runGap b)).env.keep⟩],
          by rw [← List.append_assoc, ← ep]; rfl, by simpa using el, by simpa using eg⟩,
        fun _ => ⟨⟨kf.results, kf.memWrites⟩, rfl⟩⟩
    · rw [pinEvent_of_busy _ _ (al.busy.trans hb), pinEvent_of_busy _ _ hb, whileBusy_of_idle _ _ ka,
        whileBusy_of_busy _ _ kb]
      exact .inr (kc _ ⟨_, rfl⟩)

theorem Part.sample {α : Type} (hpre : gapsAll Move.notReset pre = true) (hgap : .reset ∈ gap) :
    Part s pre gap gs fun (_ : α) u => sampleLine u where
  idle _ u h := by rw [sampleLine_of_idle u h]
  grows _ u := sampleLine_grows u
  run x a b al hb fr := by
    obtain ⟨kb, kf, ⟨⟨tr, ep, el, eg⟩, ea⟩ | ⟨ka, kc⟩⟩ := al.runGap hpre hgap hb fr
    · have kab : (runGap a).host.busy = true := by rw [ea]; exact kb
      rw [sampleLine_of_busy _ (al.busy.trans hb), sampleLine_of_busy _ hb, if_pos kab, if_pos kb]
      exact .inl ⟨⟨by rw [ea]; rfl, tr ++ [⟨.sample, (sampleAct (runGap b)).1⟩],
          by rw [← List.append_assoc, ← ep]; rfl, by simpa using el, by simpa using eg⟩,
        fun _ => ⟨⟨kf.results, kf.memWrites⟩, by rw [ea]; rfl⟩⟩
    · rw [sampleLine_of_busy _ (al.busy.trans hb), sampleLine_of_busy _ hb, if_neg (by simp [ka]), if_pos kb]
      exact .inr (kc _ ⟨_, rfl⟩)

/-! ### The parts of the operations -/

theorem Part.foldl {ι : Type} {f : ι → State → State} (hf : ∀ i, Part s pre gap gs fun (_ : Unit) u => ((), f i u))
    (is : List ι) : Part s pre gap gs fun (_ : Unit) u => ((), is.foldl (fun u i => f i u) u) := by
  induction is with
  | nil => exact .const ()
  | cons i is ih => exact (hf i).comp ih

variable (hpre : gapsAll Move.notReset pre = true) (hgap : .reset ∈ gap)
include hpre hgap

theorem Part.probe {α : Type} : Part s pre gap gs fun (_ : α) u => Machine.probe u := by
  have high : Part s pre gap gs fun (_ : Bool) u =>
      let (b, u) := sampleLine (pinEvent (.cfgIn .down) (pinEvent (.cfgOut false) u))
      ((if b = true then 2 else 0 : BitVec 2), u) :=
    (((Part.pin hpre hgap (.cfgOut false)).comp (.pin hpre hgap (.cfgIn .down))).comp
      (.sample hpre hgap)).comp (.look fun b _ => if b = true then 2 else 0)
  have all := ((Part.pin (α := α) hpre hgap (.cfgIn .up)).comp (.sample hpre hgap)).comp
    (.branch (· = false) (.const (α := Bool) (1 : BitVec 2)) high)
  convert all using 3 with x u
  unfold Machine.probe
  dsimp only
  split
  · rfl
  · split <;> simp

theorem Part.sendBit (e : PinEvent) : Part s pre gap gs fun (_ : Unit) u => ((), Machine.sendBit e u) :=
  (((Part.pin hpre hgap e).comp (.pin hpre hgap (.sclk true))).comp (.pin hpre hgap (.sclk false))).comp
    (.update fun _ r => { r with bitcnt := r.bitcnt + 1 })

theorem Part.sendByte {α : Type} (b : Byte) : Part s pre gap gs fun (_ : α) u => ((), Machine.sendByte b u) :=
  ((Part.const ()).comp (Part.foldl (fun i => Part.sendBit hpre hgap (presentBit b i)) bitOrder)).comp
    (.update fun _ r => { r with bitcnt := 0 })

theorem Part.serialWriteByte {α : Type} (b : Byte) (done : Nat) :
    Part s pre gap gs fun (_ : α) u => ((), Machine.serialWriteByte b done u) := by
  have all := (Part.probe hpre hgap (α := α) (s := s) (gs := gs)).comp
    (.branch (· = 0) (Part.sendByte hpre hgap b) (.fault id done))
  convert all using 3 with x u
  unfold Machine.serialWriteByte
  dsimp only
  split <;> rfl

theorem Part.receiveBit : Part s pre gap gs fun (_ : Unit) u => ((), Machine.receiveBit u) :=
  ((((Part.pin hpre hgap (.sclk true)).comp (.sample hpre hgap)).comp
    (.update fun b r => { r with sr := accumulate r.sr b })).comp (.pin hpre hgap (.sclk false))).comp
    (.update fun _ r => { r with bitcnt := r.bitcnt + 1 })

/-- A byte in, and what `SR` then holds. -/
theorem Part.serialReadByte {α : Type} :
    Part s pre gap gs fun (_ : α) u => ((Machine.serialReadByte u).sri.sr, Machine.serialReadByte u) := by
  have all := (((Part.pin (s := s) (gs := gs) (α := α) hpre hgap .cfgInKeep).comp
    (.update fun _ r => { r with sr := 0 })).comp (Part.foldl (fun (_ : Nat) => Part.receiveBit hpre hgap) bitOrder)).comp
    (.update fun _ r => { r with bitcnt := 0 })
  unfold Machine.serialReadByte
  generalize bitOrder = is at all ⊢
  exact all.comp (.look fun _ r => r.sr)

theorem Part.sendFrame (bs : List Byte) (done : Nat) :
    Part s pre gap gs fun (_ : Unit) u => ((), Machine.sendFrame bs done u) := by
  induction bs generalizing done with
  | nil => exact .const ()
  | cons b bs ih => exact (Part.serialWriteByte hpre hgap b done).comp (ih _)

theorem Part.receiveBytes {α : Type} (n : Nat) : Part s pre gap gs fun (_ : α) u => Machine.receiveBytes n u := by
  induction n generalizing α with
  | zero => exact .const []
  | succ n ih =>
    have all := ((Part.serialReadByte (s := s) (gs := gs) (α := α) hpre hgap).comp
      ((Part.look fun v _ => (v, v)).comp (.keep (ih (α := Byte))))).comp (.look fun x _ => x.1 :: x.2)
    simp only [Machine.receiveBytes]
    generalize Machine.serialReadByte = read at all ⊢
    exact all

omit hpre hgap

/-- The end of an operation: the value is returned in both, or in the one that is not over. -/
theorem Pace.finish {α : Type} {a b : α × State} (h : Pace s pre gap gs a b) (v : α → Value) :
    Along s pre gap gs (finishSri (v a.1) a.2) (finishSri (v b.1) b.2) ∨
      Cut s pre gs (finishSri (v a.1) a.2) (finishSri (v b.1) b.2) := by
  obtain ⟨al, k⟩ | c := h
  · refine .inl ?_
    cases hb : b.2.host.busy
    · rw [finishSri_idle _ _ hb, finishSri_idle _ _ (al.busy.trans hb)]
      exact al
    · rw [finishSri_busy _ _ hb, finishSri_busy _ _ (al.busy.trans hb), (k hb).2]
      exact ⟨by rw [al.same], al.spent⟩
  · rw [finishSri_idle _ _ c.busy]
    exact .inr (c.grow (finishSri_grows _ _))

/-- The end of WRITE_REG: the frame is recorded and OK returned in both, or in the one that is not over. -/
theorem Pace.finishFrame {a b : Unit × State} (h : Pace s pre gap gs a b) (addr : RegAddr) (bytes : List Byte)
    (v : Value) :
    Along s pre gap gs (finishSri v (recordMemWrite addr bytes a.2)) (finishSri v (recordMemWrite addr bytes b.2)) ∨
      Cut s pre gs (finishSri v (recordMemWrite addr bytes a.2)) (finishSri v (recordMemWrite addr bytes b.2)) := by
  obtain ⟨al, k⟩ | c := h
  · refine .inl ?_
    cases hb : b.2.host.busy
    · have ha := al.busy.trans hb
      rw [recordMemWrite, recordMemWrite, whileBusy_of_idle _ _ hb, whileBusy_of_idle _ _ ha, finishSri_idle _ _ hb,
        finishSri_idle _ _ ha]
      exact al
    · rw [recordMemWrite, recordMemWrite, whileBusy_of_busy _ _ hb, whileBusy_of_busy _ _ (al.busy.trans hb),
        finishSri_busy _ _ (by exact al.busy.trans hb), finishSri_busy _ _ (by exact hb)]
      exact ⟨by rw [al.same], al.spent⟩
  · rw [recordMemWrite, whileBusy_of_idle _ _ c.busy, finishSri_idle _ _ c.busy]
    exact .inr (c.grow ((recordMemWrite_grows _ _ _).trans (finishSri_grows _ _)))

/-- A whole operation: the gaps `pre`, then the one with the reset event, beside the gaps `pre` alone. -/
theorem issueSri_abandons (c : Option RefuseCode) (body : State → State)
    (hs : s.sched.gaps = pre ++ gap :: gs)
    (hbody : ∀ a b : State, Pace s pre gap gs ((), a) ((), b) →
      Along s pre gap gs (body a) (body b) ∨ Cut s pre gs (body a) (body b)) :
    Along s pre gap gs (issueSri c body s) (issueSri c body { s with sched.gaps := pre }) ∨
    Cut s pre gs (issueSri c body s) (issueSri c body { s with sched.gaps := pre }) := by
  have start : ∀ b r, Along s pre gap gs { s with host.busy := b, host.results := r }
      { s with sched.gaps := pre, host.busy := b, host.results := r } :=
    fun b r => ⟨by dsimp only; rw [← hs], [], by simp, by simp, by simp⟩
  unfold issueSri
  dsimp only
  split
  · exact .inl (start _ _)
  · split
    · exact .inl (start _ _)
    · exact hbody _ _ (.inl ⟨start _ _, fun _ => ⟨⟨rfl, rfl⟩, rfl⟩⟩)

end

end Sys2Proof.Machine
end

