-- ==== Sys2Proof/Laws/PerInstr.lean ====
section
/-! SUPPORT. Per instruction: the code its encoding carries, under the mask of its code space, is its row of the
operation table (`30_encoding.md` R100, R101, R91). -/

namespace Sys2Proof.Laws.RowMatch

/-- The row of the table that an instruction's encoding matches is its own. -/
def Statement (i : Instr) : Prop := (encode i).code &&& tableMask (encode i).format = tableMatch i

theorem isBusIdle : Statement .isBusIdle := by unfold Statement; decide
theorem serialWrite (b : Int) : Statement (.serialWrite b) := by
  simp [Statement, encode, hostRequest, tableMask, tableMatch]
theorem serialRead : Statement .serialRead := by unfold Statement; decide
theorem writeReg (addr : Int) (payload : List Int) : Statement (.writeReg addr payload) := by
  simp [Statement, encode, hostRequest, tableMask, tableMatch]
theorem readReg (addr width : Int) : Statement (.readReg addr width) := by
  simp [Statement, encode, hostRequest, tableMask, tableMatch]
theorem toFtw (freq sysclk : Rat) : Statement (.toFtw freq sysclk) := by
  simp [Statement, encode, hostRequest, tableMask, tableMatch]
theorem ftwBytes (ftw : Int) : Statement (.ftwBytes ftw) := by
  simp [Statement, encode, hostRequest, tableMask, tableMatch]
theorem push (w : Int) : Statement (.push w) := by
  simp [Statement, encode, hostRequest, tableMask, tableMatch]
theorem activate : Statement .activate := by unfold Statement; decide
theorem deactivate : Statement .deactivate := by unfold Statement; decide
theorem readStatus (n : Int) : Statement (.readStatus n) := by
  simp [Statement, encode, hostRequest, tableMask, tableMatch]
theorem clearUnderrun : Statement .clearUnderrun := by unfold Statement; decide
theorem resetStreamer : Statement .resetStreamer := by unfold Statement; decide
theorem qclip (v : Int) : Statement (.qclip v) := by
  simp [Statement, encode, hostRequest, tableMask, tableMatch]
theorem pack (i q : Int) : Statement (.pack i q) := by
  simp [Statement, encode, hostRequest, tableMask, tableMatch]
theorem assembleWord (bytes : List Int) : Statement (.assembleWord bytes) := by
  simp [Statement, encode, hostRequest, tableMask, tableMatch]
theorem cWaitILow : Statement .cWaitILow := by unfold Statement; decide
theorem cShiftI : Statement .cShiftI := by unfold Statement; decide
theorem cWaitQHigh : Statement .cWaitQHigh := by unfold Statement; decide
theorem cShiftQ : Statement .cShiftQ := by unfold Statement; decide
theorem cmdWrite (addr : RegAddr) : Statement (.cmdWrite addr) := by
  revert addr; unfold Statement; decide
theorem cmdRead (addr : RegAddr) : Statement (.cmdRead addr) := by
  revert addr; unfold Statement; decide

end Sys2Proof.Laws.RowMatch
end

