-- ==== Sys2Proof/Laws/Step.lean ====
section
/-! SUPPORT. What a step can be, and what the operations outside the SRI leave alone. -/

namespace Sys2Proof.Machine

/-- The step of a state is the machine's when that state is the one selected, and nothing otherwise (log 17). -/
theorem whenSelected_cases (st : StreamState) (f : State → State) (s : State) :
    whenSelected st f s = s ∨
    (s.iqs.active = true ∧ s.iqs.state = st ∧ whenSelected st f s = f s) := by
  unfold whenSelected
  split
  · rename_i h
    exact .inr ⟨h.1, h.2, rfl⟩
  · exact .inl rfl

/-- Everything a CONSUMER step can do: nothing, or CONSUMER's turn. -/
theorem exec_consumer {i : Instr} {s t : State}
    (hi : i = .cWaitILow ∨ i = .cShiftI ∨ i = .cWaitQHigh ∨ i = .cShiftQ) (h : exec i s = .next t) :
    t = s ∨ t = consumerStep s := by
  rcases hi with rfl | rfl | rfl | rfl <;>
    simp only [exec, execCWaitILow, execCShiftI, execCWaitQHigh, execCShiftQ,
      Host.Outcome.next.injEq] at h <;> subst h
  · obtain e | ⟨_, b, e⟩ := whenSelected_cases .waitILow stepWaitILow s
    · exact .inl e
    · exact .inr (by simp [consumerStep, b])
  · obtain e | ⟨_, b, e⟩ := whenSelected_cases .shiftI stepShiftI s
    · exact .inl e
    · exact .inr (by simp [consumerStep, b])
  · obtain e | ⟨_, b, e⟩ := whenSelected_cases .waitQHigh stepWaitQHigh s
    · exact .inl e
    · exact .inr (by simp [consumerStep, b])
  · obtain e | ⟨_, b, e⟩ := whenSelected_cases .shiftQ stepShiftQ s
    · exact .inl e
    · exact .inr (by simp [consumerStep, b])

/-- An operation outside the SRI leaves the SRI, the pins and the configuration alone (R83, R72). -/
theorem exec_outside_sri {i : Instr} {s t : State} (hi : isSri i = false) (he : exec i s = .next t) :
    t.sri = s.sri ∧ t.cfg = s.cfg ∧ t.env = s.env ∧ t.sched = s.sched ∧ t.host.busy = s.host.busy ∧
    t.hist.pins = s.hist.pins ∧ t.hist.memWrites = s.hist.memWrites := by
  by_cases hc : i = .cWaitILow ∨ i = .cShiftI ∨ i = .cWaitQHigh ∨ i = .cShiftQ
  · rcases exec_consumer hc he with rfl | rfl
    · exact ⟨rfl, rfl, rfl, rfl, rfl, rfl, rfl⟩
    · obtain ⟨a, b, c, d, e, f, g, -⟩ := consumerStep_frame s
      exact ⟨b, a, c, e, by rw [d], f, g⟩
  · simp only [not_or] at hc
    cases i <;> simp [isSri] at hi hc <;>
      simp only [exec, execToFtw, execFtwBytes, execPush, execActivate, execDeactivate, execReadStatus,
        execClearUnderrun, execResetStreamer, execQclip, execPack, execAssembleWord,
        Host.Outcome.next.injEq] at he <;> subst he
    all_goals (repeat' split) <;> exact ⟨rfl, rfl, rfl, rfl, rfl, rfl, rfl⟩

/-- Everything a step can be: from `s` less its turn (and less HOST's next request), nothing, one instruction, or one
move of the environment or the reset event. -/
theorem step_cases {s t : State} (h : step s = .next t) :
    ∃ u : State, u.cfg = s.cfg ∧ u.sri = s.sri ∧ u.iqs = s.iqs ∧ u.env = s.env ∧ u.hist = s.hist ∧
      u.host.busy = s.host.busy ∧ u.host.held = s.host.held ∧ u.host.results = s.host.results ∧
      u.sched.gaps = s.sched.gaps ∧
      (t = u ∨
        (∃ i, exec i u = .next t ∧
          (s.sched.turns.head? = some .host ∨ s.sched.turns.head? = some (.move .consumer))) ∨
        ∃ m, m ≠ .consumer ∧ s.sched.turns.head? = some (.move m) ∧ t = runMove u m) := by
  have run : ∀ (r : Request) (u : State), runRequest r u = .next t → ∃ i, exec i u = .next t := by
    intro r u hu
    unfold runRequest at hu
    split at hu
    · exact ⟨_, hu⟩
    · simp at hu
  unfold step at h
  split at h
  · simp only [Host.Outcome.next.injEq] at h
    exact ⟨s, rfl, rfl, rfl, rfl, rfl, rfl, rfl, rfl, rfl, .inl h.symm⟩
  · rename_i x ts ht
    rw [ht]
    unfold runTurn at h
    split at h
    · unfold hostTurn at h
      split at h
      · exact ⟨{ s with sched.turns := ts }, rfl, rfl, rfl, rfl, rfl, rfl, rfl, rfl, rfl,
          .inr (.inl ⟨_, h, by simp⟩)⟩
      · split at h
        · simp only [Host.Outcome.next.injEq] at h
          exact ⟨{ s with sched.turns := ts }, rfl, rfl, rfl, rfl, rfl, rfl, rfl, rfl, rfl,
            .inl h.symm⟩
        · split at h
          · simp at h
          · obtain ⟨i, hi⟩ := run _ _ h
            refine ⟨_, ?_, ?_, ?_, ?_, ?_, ?_, ?_, ?_, ?_, .inr (.inl ⟨i, hi, by simp⟩)⟩ <;> rfl
    · unfold consumerTurn at h
      split at h
      · obtain ⟨i, hi⟩ := run _ _ h
        refine ⟨_, ?_, ?_, ?_, ?_, ?_, ?_, ?_, ?_, ?_, .inr (.inl ⟨i, hi, by simp⟩)⟩ <;> rfl
      · simp only [Host.Outcome.next.injEq] at h
        exact ⟨{ s with sched.turns := ts }, rfl, rfl, rfl, rfl, rfl, rfl, rfl, rfl, rfl, .inl h.symm⟩
    all_goals
      simp only [Host.Outcome.next.injEq] at h
      exact ⟨{ s with sched.turns := ts }, rfl, rfl, rfl, rfl, rfl, rfl, rfl, rfl, rfl,
        .inr (.inr ⟨_, by simp, by simp, h.symm⟩)⟩

end Sys2Proof.Machine
end

