-- ==== Sys2Proof/Tests/Slice0.lean ====
section
/-! SUPPORT. The model's own tests: ill-formed operands, decoding of codes written out, one or two worked vectors of
`95_test_vectors.md` per instruction, and a witness for every statement that has hypotheses. -/

namespace Sys2Proof.Tests
open Sys2Proof.Machine

/-! ### WellFormed refuses each kind of ill-formed operand (R103) -/

theorem test_wf_serialWrite : Instr.wf .default (.serialWrite 256) = false := by decide
theorem test_wf_writeReg_addr : Instr.wf .default (.writeReg 128 [0]) = false := by decide
theorem test_wf_writeReg_empty : Instr.wf .default (.writeReg 14 []) = false := by decide
theorem test_wf_writeReg_long :
    Instr.wf .default (.writeReg 14 [0, 0, 0, 0, 0, 0, 0, 0, 0]) = false := by decide
theorem test_wf_writeReg_element : Instr.wf .default (.writeReg 14 [1, 256]) = false := by decide
theorem test_wf_readReg_addr : Instr.wf .default (.readReg (-1) 1) = false := by decide
theorem test_wf_readReg_width : Instr.wf .default (.readReg 14 0) = false := by decide
theorem test_wf_toFtw : Instr.wf .default (.toFtw 100000 0) = false := by decide +kernel
theorem test_wf_ftwBytes : Instr.wf .default (.ftwBytes 0x100000000) = false := by decide
theorem test_wf_push : Instr.wf .default (.push 0x100000000) = false := by decide
theorem test_wf_readStatus : Instr.wf .default (.readStatus 3) = false := by decide
theorem test_wf_pack_i : Instr.wf .default (.pack 16 0) = false := by decide
theorem test_wf_pack_q : Instr.wf .default (.pack 0 (-1)) = false := by decide
theorem test_wf_assembleWord_length : Instr.wf .default (.assembleWord [8, 8, 8]) = false := by decide
theorem test_wf_assembleWord_element :
    Instr.wf .default (.assembleWord [8, 8, 8, 256]) = false := by decide

/-! ### Decoding: the codes of R100, R101 and R91, written out -/

theorem test_decode_sri :
    decode ⟨.hostop4, 0b0000, []⟩ = .instr .isBusIdle ∧
    decode ⟨.hostop4, 0b0001, [0xA5]⟩ = .instr (.serialWrite 0xA5) ∧
    decode ⟨.hostop4, 0b0010, []⟩ = .instr .serialRead ∧
    decode ⟨.hostop4, 0b0011, [0x0E, 2, 0x01, 0x06]⟩ = .instr (.writeReg 0x0E [0x01, 0x06]) ∧
    decode ⟨.hostop4, 0b0100, [0x0E, 4]⟩ = .instr (.readReg 0x0E 4) := by decide

theorem test_decode_ftw :
    decode ⟨.hostop4, 0b0101, [100000, 0, 25000000, 0]⟩ = .instr (.toFtw 100000 25000000) ∧
    decode ⟨.hostop4, 0b0110, [0x010624DD]⟩ = .instr (.ftwBytes 0x010624DD) := by decide +kernel

theorem test_decode_iqs :
    decode ⟨.hostop4, 0b0111, [0x08080808]⟩ = .instr (.push 0x08080808) ∧
    decode ⟨.hostop4, 0b1000, []⟩ = .instr .activate ∧
    decode ⟨.hostop4, 0b1001, []⟩ = .instr .deactivate ∧
    decode ⟨.hostop4, 0b1010, [2]⟩ = .instr (.readStatus 2) ∧
    decode ⟨.hostop4, 0b1011, []⟩ = .instr .clearUnderrun ∧
    decode ⟨.hostop4, 0b1100, []⟩ = .instr .resetStreamer := by decide

theorem test_decode_pack :
    decode ⟨.hostop4, 0b1101, [-1]⟩ = .instr (.qclip (-1)) ∧
    decode ⟨.hostop4, 0b1110, [3, 12]⟩ = .instr (.pack 3 12) ∧
    decode ⟨.hostop4, 0b1111, [4, 8, 8, 8, 8]⟩ = .instr (.assembleWord [8, 8, 8, 8]) := by decide

theorem test_decode_st2 :
    decode ⟨.st2, 0b00, []⟩ = .instr .cWaitILow ∧ decode ⟨.st2, 0b01, []⟩ = .instr .cShiftI ∧
    decode ⟨.st2, 0b10, []⟩ = .instr .cWaitQHigh ∧ decode ⟨.st2, 0b11, []⟩ = .instr .cShiftQ := by decide

/-- V35 to V37, V41 to V43: the command bytes 0E, 7F, 8E, FF. -/
theorem test_decode_cmd8 :
    decode ⟨.cmd8, 0b00001110, []⟩ = .instr (.cmdWrite 14) ∧
    decode ⟨.cmd8, 0b01111111, []⟩ = .instr (.cmdWrite 127) ∧
    decode ⟨.cmd8, 0b10001110, []⟩ = .instr (.cmdRead 14) ∧
    decode ⟨.cmd8, 0b11111111, []⟩ = .instr (.cmdRead 127) := by decide

theorem test_decode_rejects :
    decode ⟨.hostop4, 16, []⟩ = .reject .noSuchCode ∧ decode ⟨.st2, 4, []⟩ = .reject .noSuchCode ∧
    decode ⟨.hostop4, 0b0111, []⟩ = .reject .missingOperand ∧
    decode ⟨.hostop4, 0b1000, [0]⟩ = .reject .trailingOperand ∧
    decode ⟨.hostop4, 0b0011, [14, 2, 0]⟩ = .reject .badLength ∧
    decode ⟨.hostop4, 0b0101, [2, 1, 1, 0]⟩ = .reject .badFraction := by decide +kernel

/-- A bare table word in the three widths the table gives (log 3). -/
theorem test_tableWord :
    decodeTableWord 4 0xE = some (.pack 0 0) ∧ decodeTableWord 2 0b01 = some .cShiftI ∧
    decodeTableWord 8 0x8E = some (.cmdRead 14) ∧ decodeTableWord 8 0x1E = some (.cmdWrite 30) ∧
    decodeTableWord 8 0x07 = some (.push 0) ∧ decodeTableWord 8 256 = none := by decide

/-! ### One step of each instruction -/

/-- The next state, `s` itself if there is none. -/
def nextOr (s : State) : Host.Outcome State Fault Refusal → State
  | .next t => t
  | .fault _ => s
  | .refused _ => s

/-- The state after one instruction. -/
def after (i : Instr) (s : State) : State := nextOr s (exec i s)

/-- The last result returned. -/
def last (s : State) : Option Result := s.host.results.getLast?

/-- After reset, with TARGET's drive as given. -/
def driven (e : Ext) : State := { State.reset with env.ext := e }

/-- After reset, with the moves before the first, the second, ... pin event as given. -/
def moved (gaps : List (List Move)) : State := { State.reset with sched.gaps := gaps }

/-- After reset, with the streamer as given. -/
def streaming (q : Iqs) : State := { State.reset with iqs := q }

/-- `bits` driven one a pulse, from just before each rising edge (three events a bit). -/
def presented (bits : List Bool) : List (List Move) :=
  bits.flatMap fun b => [[.ext (.drive b)], [], []]

/-- V72: eight idle words in the queue. -/
def full : Iqs :=
  { Iqs.reset with fifo := Vector.replicate 8 0x08080808, level := 8 }

/-- V74. -/
def started : Iqs := { full with active := true }

/-- V76. -/
def starting : Iqs := { started with state := .shiftI }

/-- V77. -/
def shifting : Iqs :=
  { started with state := .waitQHigh, d := 8, osr := 0x00808080, osrCnt := 7, level := 7, rd := 1 }

/-- V81 after its first step: active, in `SHIFT_I`, nothing to emit. -/
def hungry : Iqs := { Iqs.reset with active := true, state := .shiftI }

/-- V81 after its second step. -/
def starved : Iqs := { hungry with underrun := true, starved := true, underrunCount := 1 }

/-- V1 -/
theorem test_isBusIdle_floating :
    last (after .isBusIdle State.reset) = some (.ok (.bool true)) ∧
    sriStatus (after .isBusIdle State.reset).sri = 0x00000000 := by decide +kernel

/-- V3 -/
theorem test_isBusIdle_high :
    last (after .isBusIdle (driven (.drive true))) = some (.ok (.bool false)) ∧
    sriStatus (after .isBusIdle (driven (.drive true))).sri = 0x00000000 := by decide +kernel

/-- V10 -/
theorem test_serialWrite :
    risingLevels (after (.serialWrite 0xA5) State.reset).hist.pins =
      [true, false, true, false, false, true, false, true] ∧
    (after (.serialWrite 0xA5) State.reset).hist.pins.length = 29 ∧
    sriStatus (after (.serialWrite 0xA5) State.reset).sri = 0x00000006 := by decide +kernel

/-- V18 -/
theorem test_serialWrite_low :
    last (after (.serialWrite 0xA5) (driven (.drive false))) = some (.busNotIdle 1 0) ∧
    (after (.serialWrite 0xA5) (driven (.drive false))).hist.pins.length = 2 ∧
    sriStatus (after (.serialWrite 0xA5) (driven (.drive false))).sri = 0x00000038 := by decide +kernel

/-- V25 -/
theorem test_serialRead :
    let s := after .serialRead (moved ([] :: presented [true, true, false, false, true, false, true, false]))
    last s = some (.ok (.byte 0xCA)) ∧ s.hist.pins.length = 25 ∧ (sriStatus s.sri).extractLsb' 7 8 = 0xCA := by
  decide +kernel

/-- V28: undriven, the pull-down holds a line that was last low. -/
theorem test_serialRead_undriven :
    last (after .serialRead { State.reset with sri.sdioDir := .output }) = some (.ok (.byte 0x00)) := by
  decide +kernel

/-- V35 -/
theorem test_writeReg :
    let s := after (.writeReg 0x0E [0x01, 0x06, 0x24, 0xDD]) State.reset
    last s = some (.ok .unit) ∧ s.hist.pins.length = 145 ∧ sriStatus s.sri = 0x00000006 ∧
    risingLevels s.hist.pins = [0x0E, 0x01, 0x06, 0x24, 0xDD].flatMap byteBits := by decide +kernel

/-- V47: the line is held low from event 59 on. -/
theorem test_writeReg_faults :
    let s := after (.writeReg 0x0E [0x01, 0x06, 0x24, 0xDD])
      (moved (List.replicate 58 [] ++ [[.ext (.drive false)]]))
    last s = some (.busNotIdle 1 2) ∧ s.hist.pins.length = 60 ∧ sriStatus s.sri = 0x0000003C := by
  decide +kernel

/-- V41 -/
theorem test_readReg :
    let s := after (.readReg 0x0E 4) (moved (List.replicate 29 [] ++
      [0x01, 0x06, 0x24, 0xDD].flatMap fun b => [] :: presented (byteBits b)))
    last s = some (.ok (.bytes [0x01, 0x06, 0x24, 0xDD])) ∧ s.hist.pins.length = 129 ∧
    sriStatus s.sri = 0x00006E80 := by decide +kernel

/-- V46 -/
theorem test_readReg_refused :
    last (after (.readReg 128 1) State.reset) = some (.refused .addrRange) := by decide +kernel

/-- V53 and V61: rounding up, and a negative word. -/
theorem test_toFtw :
    last (after (.toFtw 1 25000000) State.reset) = some (.ok (.word 0x000000AC)) ∧
    last (after (.toFtw (-1) 25000000) State.reset) = some (.ok (.word 0xFFFFFF54)) := by decide +kernel

/-- V64: a tie, under either rule. -/
theorem test_toFtw_tie :
    last (after (.toFtw 5 8589934592) State.reset) = some (.ok (.word 2)) ∧
    last (after (.toFtw 5 8589934592) { State.reset with cfg.roundTie := .halfAway }) =
      some (.ok (.word 3)) := by decide +kernel

/-- V50 -/
theorem test_ftwBytes :
    last (after (.ftwBytes 0x010624DD) State.reset) = some (.ok (.bytes [0x01, 0x06, 0x24, 0xDD])) := by
  decide +kernel

/-- V67 -/
theorem test_ftwBytes_refused :
    last (after (.ftwBytes 0x100000000) State.reset) = some (.refused .operandRange) := by decide +kernel

/-- V71 -/
theorem test_push :
    let s := after (.push 0x08080808) State.reset
    last s = some (.ok .unit) ∧ s.iqs.wr = 1 ∧ s.iqs.fifo[0] = 0x08080808 ∧
    iqsStatus s.iqs = 0x00000020 := by decide +kernel

/-- V73 -/
theorem test_push_held :
    let s := after (.push 0x08080808) (streaming full)
    last s = none ∧ s.host.held = some 0x08080808 ∧ s.iqs = full := by decide +kernel

/-- V74 -/
theorem test_activate :
    iqsStatus (after .activate (streaming full)).iqs = 0x00000111 := by decide +kernel

/-- V85 -/
theorem test_deactivate :
    iqsStatus (after .deactivate (streaming { Iqs.reset with
      active := true, osr := 0x00087654, osrCnt := 5, state := .waitQHigh, d := 3 })).iqs = 0x0001AC08 := by
  decide +kernel

/-- V70 and V81. -/
theorem test_readStatus :
    last (after (.readStatus 0) State.reset) = some (.ok (.word 0x00000008)) ∧
    last (after (.readStatus 0) (streaming starved)) = some (.ok (.word 0x0000020F)) ∧
    last (after (.readStatus 1) (streaming starved)) = some (.ok (.word 1)) := by decide +kernel

/-- V17: the SRI after a failed write. -/
theorem test_readStatus_sri :
    last (after (.readStatus 2) (after (.serialWrite 0xA5) (driven (.drive true)))) =
      some (.ok (.word 0x00000050)) := by decide +kernel

/-- V83 -/
theorem test_clearUnderrun :
    iqsStatus (after .clearUnderrun (streaming starved)).iqs = 0x0000020D ∧
    (after .clearUnderrun (streaming starved)).iqs.underrunCount = 1 := by decide +kernel

/-- V88 -/
theorem test_resetStreamer :
    iqsStatus (after .resetStreamer (streaming starved)).iqs = 0x00000008 ∧
    (after .resetStreamer (streaming shifting)).iqs.osr = 0x00808080 := by decide +kernel

/-- V102, V103 -/
theorem test_qclip :
    last (after (.qclip (-1)) State.reset) = some (.ok (.clip 0 true)) ∧
    last (after (.qclip 16) State.reset) = some (.ok (.clip 15 true)) ∧
    last (after (.qclip 15) State.reset) = some (.ok (.clip 15 false)) := by decide +kernel

/-- V112 -/
theorem test_pack : last (after (.pack 3 12) State.reset) = some (.ok (.byte 0xC3)) := by decide +kernel

/-- V113 -/
theorem test_pack_refused : last (after (.pack 16 0) State.reset) = some (.refused .operandRange) := by
  decide +kernel

/-- V115 -/
theorem test_assembleWord :
    last (after (.assembleWord [0x21, 0x43, 0x65, 0x87]) State.reset) = some (.ok (.words [0x87654321])) ∧
    last (after (.assembleWord [0x21, 0x43, 0x65, 0x87])
      { State.reset with cfg.nibbleOrder := .msnFirst }) = some (.ok (.words [0x12345678])) := by
  decide +kernel

/-- V118 -/
theorem test_assembleWord_refused :
    last (after (.assembleWord [8, 8, 8]) State.reset) = some (.refused .operandRange) := by decide +kernel

/-- V75, V76 -/
theorem test_cWaitILow :
    (after .cWaitILow { streaming started with env.pclk := true }).iqs = started ∧
    iqsStatus (after .cWaitILow (streaming started)).iqs = 0x00000311 := by decide +kernel

/-- V77 -/
theorem test_cShiftI :
    (after .cShiftI (streaming starting)).iqs = shifting ∧
    iqsStatus shifting = 0x00043CE1 := by decide +kernel

/-- V81, V82 -/
theorem test_cShiftI_starves :
    (after .cShiftI (streaming hungry)).iqs = starved ∧ iqsStatus starved = 0x0000020F ∧
    (after .cShiftI (streaming starved)).iqs = starved := by decide +kernel

/-- V78, V79 -/
theorem test_cWaitQHigh :
    (after .cWaitQHigh (streaming shifting)).iqs = shifting ∧
    iqsStatus (after .cWaitQHigh { streaming shifting with env.pclk := true }).iqs = 0x00043EE1 := by
  decide +kernel

/-- V80 -/
theorem test_cShiftQ :
    let q := (after .cShiftQ (streaming { shifting with state := .shiftQ })).iqs
    q.osr = 0x00080808 ∧ q.d = 0 ∧ iqsStatus q = 0x000030E1 := by decide +kernel

/-- V91: under `MSN_FIRST` the second nibble of `0x87654321` is 7. -/
theorem test_cShiftQ_msnFirst :
    (after .cShiftQ { streaming { hungry with state := .shiftQ, osr := 0x76543210, osrCnt := 7 } with
      cfg.nibbleOrder := .msnFirst }).iqs.d = 7 := by decide +kernel

/-- V15 -/
theorem test_cmdWrite :
    risingLevels (after (.cmdWrite 14) State.reset).hist.pins =
      [false, false, false, false, true, true, true, false] ∧
    sriStatus (after (.cmdWrite 14) State.reset).sri = 0x00000002 := by decide +kernel

/-- V16 -/
theorem test_cmdRead :
    risingLevels (after (.cmdRead 14) State.reset).hist.pins =
      [true, false, false, false, true, true, true, false] ∧
    sriStatus (after (.cmdRead 14) State.reset).sri = 0x00000002 := by decide +kernel

/-- R106, V50, V112: the sequences of the pseudo-operations, and what is refused inside one. -/
theorem test_pseudo :
    preloadIdle .lsnFirst = List.replicate 8 (.push 0x08080808) ∧
    writeFtw .halfEven 0x0E 100000 25000000 =
      [.toFtw 100000 25000000, .ftwBytes 0x010624DD, .writeReg 0x0E [0x01, 0x06, 0x24, 0xDD]] ∧
    writeFtw .halfEven 0x0E 100000 0 = [.toFtw 100000 0] ∧
    packSamples [(8, 8), (15, 0)] = .ok (.bytes [0x88, 0x0F]) ∧
    packSamples [(8, 8), (16, 0)] = .refused .operandRange ∧ offsetBinary (-9) = .qclip (-1) := by
  decide +kernel

/-- R238: the nibble emitted before a reset event inside an SRI operation stays on `D`'s record. -/
theorem test_dWrites_reset :
    (after .serialRead { streaming starting with sched.gaps := [[.consumer], [.reset]] }).hist.dWrites =
      [⟨.shift .i, 8⟩, ⟨.reset, 0⟩] := by decide +kernel

/-! ### Steps from reset with a table word placed (log 1, log 3) -/

theorem test_fetch_push :
    (nextOr State.reset (step (State.reset.withFetchWord 8 0x07))).iqs.level = 1 := by decide +kernel

theorem test_fetch_consumer :
    (nextOr State.reset (step (State.reset.withFetchWord 2 0b00))).iqs.state = .shiftI := by decide +kernel

theorem test_fetch_command :
    (nextOr State.reset (step (State.reset.withFetchWord 8 0x8E))).hist.pins.length = 29 := by
  decide +kernel

/-! ### Witnesses: a state and operands that meet the hypotheses of each statement that has some, clause by clause, at
the boundaries of its ranges -/

/-- After reset, with these turns ahead. -/
def turned (ts : List Turn) : State := { State.reset with sched.turns := ts }

/-- After a bus fault of cause 1. -/
def faulted : State := { State.reset with sri.busFault := true, sri.busFaultCause := 1 }

theorem exec_after (i : Instr) (s : State) : exec i s = .next (after i s) := by cases i <;> rfl

theorem witness_EncodeOfDecodeIsTheRequest :
    decode ⟨.hostop4, 0b1110, [3, 12]⟩ = .instr (.pack 3 12) ∧ decode ⟨.st2, 3, []⟩ = .instr .cShiftQ ∧
    decode ⟨.cmd8, 255, []⟩ = .instr (.cmdRead 127) := by decide

theorem witness_AddressOutOfRangeIsRefused :
    State.reset.sri.busFault = false ∧ ((-1 : Int) < 0 ∨ (127 : Int) < -1) ∧
    ((128 : Int) < 0 ∨ (127 : Int) < 128) := by decide

theorem witness_OperandOutOfRangeIsRefused :
    State.reset.sri.busFault = false ∧ ((-1 : Int) < 0 ∨ (255 : Int) < -1) ∧ ((256 : Int) < 0 ∨ (255 : Int) < 256) ∧
    (0 : Int) ≤ 0 ∧ (0 : Int) ≤ 127 ∧ (127 : Int) ≤ 127 ∧ ([] : List Int).length = 0 ∧
    State.reset.cfg.widthMax < (List.replicate 9 (0 : Int)).length ∧
    (∃ v ∈ [(256 : Int)], v < 0 ∨ 255 < v) ∧ (∃ v ∈ [(-1 : Int)], v < 0 ∨ 255 < v) ∧
    ((0 : Int) < 1 ∨ (State.reset.cfg.widthMax : Int) < 0) ∧
    ((9 : Int) < 1 ∨ (State.reset.cfg.widthMax : Int) < 9) ∧
    ((-1 : Int) < 0 ∨ (2 : Int) ^ 32 ≤ -1) ∧ ((4294967296 : Int) < 0 ∨ (2 : Int) ^ 32 ≤ 4294967296) ∧
    ((-1 : Int) < 0 ∨ (2 : Int) < -1) ∧ ((3 : Int) < 0 ∨ (2 : Int) < 3) := by decide

theorem witness_SriIsRefusedAfterABusFault :
    faulted.sri.busFault = true ∧ isSri .serialRead = true ∧ isSri (.readStatus 2) = false ∧
    State.reset.sri.busFault = false ∧ Instr.activate ≠ .readStatus 2 ∧ isSri .activate = false := by decide

theorem witness_RefusedExactlyWhenIllFormed :
    State.reset.sri.busFault = false ∧ Instr.wf State.reset.cfg (.serialWrite 256) = false ∧
    Instr.wf State.reset.cfg (.serialWrite 255) = true := by decide

theorem witness_StepRunsTheNextHostOperation :
    let s := { turned [.host] with host.program := [⟨.hostop4, 0b0111, [1]⟩] }
    s.sched.turns = [.host] ∧ s.host.held = none ∧ s.host.program = [⟨.hostop4, 0b0111, [1]⟩] ∧
    Format.hostop4 ≠ .st2 ∧ decode ⟨.hostop4, 0b0111, [1]⟩ = .instr (.push 1) := by decide

theorem witness_StepRunsTheSelectedConsumerStep :
    (turned [.move .consumer]).sched.turns = [.move .consumer] ∧
    (turned [.move .consumer]).iqs.active = false ∧
    { turned [.move .consumer] with iqs := starting }.iqs.active = true ∧
    decode ⟨.st2, starting.state.code.setWidth 8, []⟩ = .instr .cShiftI := by decide

theorem witness_StepOfTheEnvironment :
    State.reset.sched.turns = [] ∧
    (turned [.move (.ext (.drive true))]).sched.turns = [.move (.ext (.drive true))] ∧
    lineLevel State.reset.sri { State.reset.env with ext := .drive true } = some true ∧
    (turned [.move (.ext .z)]).sched.turns = [.move (.ext .z)] ∧
    lineLevel State.reset.sri { State.reset.env with ext := .z, keep := true } = none ∧
    (turned [.move (.pclk true)]).sched.turns = [.move (.pclk true)] ∧
    (turned [.host]).sched.turns = [.host] ∧ (turned [.host]).host.held = none ∧
    (turned [.host]).host.program = [] ∧
    (let g : List Move := [.consumer, .ext (.drive true), .pclk true]
     { moved [g] with host.busy := true }.host.busy = true ∧ (moved [g]).sched.gaps = [g] ∧
      g.all Move.notReset = true) ∧
    { State.reset with host.busy := true }.host.busy = true ∧ State.reset.sched.gaps = [] := by decide

theorem witness_HeldPushWaitsForRoom :
    let s := { turned [.host] with host.held := some 1 }
    (0 : Int) ≤ 4294967295 ∧ (4294967295 : Int) < 2 ^ 32 ∧ full.level = 8 ∧ s.host.held = some 1 ∧
    s.sched.turns = [.host] ∧ { s with iqs := full }.iqs.level = 8 ∧
    { s with iqs := shifting }.iqs.level < 8 := by decide

theorem witness_ResetStateOfTheSri : (turned [.move .reset]).sched.turns = [.move .reset] := by decide

theorem witness_ResetStateOfTheStreamer :
    { turned [.move .reset] with iqs := starved }.sched.turns = [.move .reset] := by decide

/-- The reset event in the third gap of a SERIAL_WRITE, `pre` the two gaps before it. -/
theorem witness_ResetEventAbandonsWhatIsGoingOn_later :
    let pre : List (List Move) := [[.consumer], [.pclk true]]
    let s := moved (pre ++ [.ext .z, .reset] :: [[.consumer]])
    let u := after (.serialWrite 0xA5) { s with sched.gaps := pre }
    isSri (.serialWrite 0xA5) = true ∧ s.sched.gaps = pre ++ [.ext .z, .reset] :: [[.consumer]] ∧
    gapsAll Move.notReset pre = true ∧ .reset ∈ [Move.ext .z, .reset] ∧
    exec (.serialWrite 0xA5) { s with sched.gaps := pre } = .next u ∧
    u.hist.pins = s.hist.pins ++ u.hist.pins ∧ pre.length < u.hist.pins.length :=
  ⟨rfl, rfl, by decide, by decide, exec_after _ _, rfl, by decide +kernel⟩

/-- The operation takes BusNotIdle after two events, before the gap of the reset event. -/
theorem witness_ResetEventAbandonsWhatIsGoingOn_over :
    let pre : List (List Move) := [[.ext (.drive false)], []]
    let s := moved (pre ++ [.reset] :: [])
    let u := after (.serialWrite 0xA5) { s with sched.gaps := pre }
    s.sched.gaps = pre ++ [.reset] :: [] ∧ gapsAll Move.notReset pre = true ∧
    exec (.serialWrite 0xA5) { s with sched.gaps := pre } = .next u ∧
    u.hist.pins = s.hist.pins ++ u.hist.pins ∧ u.hist.pins.length ≤ pre.length :=
  ⟨rfl, by decide, exec_after _ _, rfl, by decide +kernel⟩

theorem witness_ResetEventAbandonsWhatIsGoingOn :
    { turned [.move .reset] with host.held := some 1 }.sched.turns = [.move .reset] ∧
    isSri (.writeReg 127 [255]) = true ∧ Instr.wf (moved [[.reset]]).cfg (.writeReg 127 [255]) = true ∧
    (moved [[.reset]]).sri.busFault = false ∧ (moved [[.reset]]).sched.gaps = [.reset] :: [] := by decide

theorem witness_UnwrittenContentsAreNeverRead :
    exec .cShiftI (streaming hungry) = .next (after .cShiftI (streaming hungry)) ∧
    (streaming hungry).iqs.osrCnt = 0 ∧ (streaming hungry).iqs.level = 0 := ⟨rfl, rfl, rfl⟩

/-- One word queued, and other contents in the seven slots outside the queue. -/
theorem witness_UnwrittenContentsAreNeverRead_queued :
    let s := streaming { starting with level := 1 }
    let f : Vector Word 8 := (Vector.replicate 8 (0xFFFFFFFF : Word)).set 0 0x08080808
    exec .cShiftI s = .next (after .cShiftI s) ∧ f ≠ s.iqs.fifo ∧
    ∀ k < s.iqs.level, f[s.iqs.rd + Fin.ofNat 8 k] = s.iqs.fifo[s.iqs.rd + Fin.ofNat 8 k] :=
  ⟨rfl, by decide, by decide⟩

theorem witness_PushAppendsAtTheTail :
    (0 : Int) ≤ 0 ∧ (4294967295 : Int) < 2 ^ 32 ∧ (streaming shifting).iqs.level < 8 ∧
    (streaming full).iqs.level = 8 ∧ ((-1 : Int) < 0 ∨ (2 : Int) ^ 32 ≤ -1) ∧
    ((4294967296 : Int) < 0 ∨ (2 : Int) ^ 32 ≤ 4294967296) := by decide

theorem witness_DeactivateHaltsTheConsumer : (streaming full).iqs.active = false := by decide

theorem witness_StatusRegisterLayout :
    (streaming { full with osrCnt := 8 }).iqs.level ≤ 8 ∧ (streaming { full with osrCnt := 8 }).iqs.osrCnt ≤ 8 ∧
    ((-1 : Int) < 0 ∨ (2 : Int) < -1) ∧ ((3 : Int) < 0 ∨ (2 : Int) < 3) := by decide

theorem witness_ClearUnderrunClearsTheFlagAlone :
    (streaming starved).iqs.starved = true ∧ (streaming starved).iqs.osrCnt = 0 ∧
    (streaming starved).iqs.level = 0 := by decide

theorem witness_WaitStepsTestTheLevel :
    (streaming started).iqs.active = true ∧ (streaming started).iqs.state = .waitILow ∧
    (streaming shifting).iqs.active = true ∧ (streaming shifting).iqs.state = .waitQHigh := by decide

/-- The clauses of `Shift()`: starved again, starved for the first time, a nibble of `OSR`, a nibble of the head word,
under either order. -/
theorem witness_ShiftStepsEmitOneNibble :
    (starved.active = true ∧ starved.state = .shiftI ∧ starved.osrCnt = 0 ∧ starved.level = 0 ∧
      starved.starved = true) ∧
    (hungry.active = true ∧ hungry.state = .shiftI ∧ hungry.osrCnt = 0 ∧ hungry.level = 0 ∧
      hungry.starved = false) ∧
    (let q := { shifting with state := StreamState.shiftQ }
     q.active = true ∧ q.state = .shiftQ ∧ q.osrCnt ≠ 0) ∧
    (starting.active = true ∧ starting.state = .shiftI ∧ starting.osrCnt = 0 ∧ starting.level ≠ 0 ∧
      (0x08080808 : Word) = starting.fifo[starting.rd]) ∧
    (streaming starting).cfg.nibbleOrder = .lsnFirst ∧
    (8 : Nibble) = (0x08080808 : Word).extractLsb' 0 4 ∧
    { streaming starting with cfg.nibbleOrder := .msnFirst }.cfg.nibbleOrder = .msnFirst ∧
    (0 : Nibble) = (0x08080808 : Word).extractLsb' 28 4 := by decide

theorem hungry_inv : StreamInv (streaming hungry) := by constructor <;> decide

theorem witness_UnderrunOnlyWhenANibbleIsMissing :
    StreamInv (streaming hungry) ∧ (streaming hungry).iqs.active = true ∧
    (streaming hungry).iqs.state = .shiftI ∧ (streaming hungry).iqs.osrCnt = 0 ∧
    (streaming hungry).iqs.level = 0 ∧ (streaming hungry).iqs.starved = false ∧ isSri .cShiftI = false ∧
    exec .cShiftI (streaming hungry) = .next (after .cShiftI (streaming hungry)) ∧
    (after .cShiftI (streaming hungry)).iqs.underrun = true ∧ (streaming hungry).iqs.underrun = false ∧
    (streaming hungry).iqs.underrunCount.toNat < (after .cShiftI (streaming hungry)).iqs.underrunCount.toNat ∧
    (runMove (streaming hungry) .consumer).iqs.underrun = true :=
  ⟨hungry_inv, rfl, rfl, rfl, rfl, rfl, rfl, rfl, by decide, rfl, by decide, by decide⟩

theorem witness_UnderrunCountNeverDecreases :
    Instr.cShiftI ≠ .resetStreamer ∧ gapsAll Move.notReset (moved [[.consumer]]).sched.gaps = true ∧
    exec .serialRead (moved [[.consumer]]) = .next (after .serialRead (moved [[.consumer]])) :=
  ⟨by decide, by decide, rfl⟩

theorem witness_NonEmptyQueueNeverUnderruns :
    0 < (streaming { hungry with level := 1, wr := 1 }).iqs.level ∧
    exec .cShiftI (streaming { hungry with level := 1, wr := 1 }) =
      .next (after .cShiftI (streaming { hungry with level := 1, wr := 1 })) := ⟨by decide, rfl⟩

theorem witness_StateMovesAlongTheCycle :
    isSri .cShiftI = false ∧ Instr.cShiftI ≠ .resetStreamer ∧
    exec .cShiftI (streaming starting) = .next (after .cShiftI (streaming starting)) :=
  ⟨by decide, by decide, rfl⟩

/-- One state of the line for each row of R30's table. -/
theorem witness_LevelOfTheDataLine :
    (driven (.drive true)).env.ext = .drive true ∧ State.reset.sri.sdioDir = .input ∧
    { State.reset.sri with sdioDir := .output, sdioOut := true }.sdioDir = .output ∧
    true = { State.reset.sri with sdioDir := .output, sdioOut := true }.sdioOut ∧
    true ≠ { State.reset.sri with sdioDir := .output }.sdioOut ∧ State.reset.env.ext = .z ∧
    { State.reset.sri with sdioPull := .up }.sdioPull = .up ∧ State.reset.sri.sdioPull = .down ∧
    State.reset.env.keep = false ∧ { State.reset.env with keep := true }.keep = true ∧
    lineLevel (applyPin (.cfgIn .up) State.reset.sri) State.reset.env = some true ∧
    lineLevel (applyPin (.cfgIn .down) State.reset.sri) { State.reset.env with keep := true } = none ∧
    lineLevel State.reset.sri State.reset.env = some false ∧
    lineLevel State.reset.sri { State.reset.env with ext := .drive false } = some false ∧
    lineLevel State.reset.sri { State.reset.env with keep := true } = none := by decide

/-- Moves of CONSUMER and PCLK_SOURCE during the operation are allowed. -/
def calm (e : Ext) : State := { driven e with sched.gaps := [[.consumer], [.pclk true, .consumer]] }

/-- Every kind of move but the reset event. -/
def busyLine : State := moved [[.ext (.drive true)], [.consumer], [.pclk true, .ext .z]]

theorem witness_ProbeOutcomeByDrive :
    busyLine.sri.busFault = false ∧ gapsAll Move.notReset busyLine.sched.gaps = true ∧
    (calm .z).sri.busFault = false ∧ gapsAll Move.steady (calm .z).sched.gaps = true ∧
    (calm .z).env.ext = .z ∧ (calm (.drive false)).env.ext = .drive false ∧
    (calm (.drive true)).env.ext = .drive true := by decide

theorem witness_SerialWriteOnAnUndrivenLine :
    (calm .z).sri.busFault = false ∧ (0 : Int) ≤ 255 ∧ (255 : Int) ≤ 255 ∧ (0 : Int) ≤ 0 ∧
    (calm .z).env.ext = .z ∧ gapsAll Move.steady (calm .z).sched.gaps = true := by decide

theorem witness_SerialWriteOnADrivenLineFaults :
    (calm (.drive true)).sri.busFault = false ∧ (0 : Int) ≤ 255 ∧ (255 : Int) ≤ 255 ∧
    (calm (.drive true)).env.ext = .drive true ∧ (calm (.drive false)).env.ext = .drive false ∧
    gapsAll Move.steady (calm (.drive true)).sched.gaps = true := by decide

theorem witness_SerialWriteIsWholeOrNothing :
    busyLine.sri.busFault = false ∧ (0 : Int) ≤ 0 ∧ (255 : Int) ≤ 255 ∧
    gapsAll Move.notReset busyLine.sched.gaps = true := by decide

theorem witness_SerialReadReturnsTheSamples :
    busyLine.sri.busFault = false ∧ gapsAll Move.notReset busyLine.sched.gaps = true := by decide

/-- S1: `0xA5` out on an undriven line, and the levels of its rising edges back in. -/
theorem witness_LoopbackReproducesTheByte :
    let s := State.reset
    let u := moved ([] :: presented [true, false, true, false, false, true, false, true])
    s.sri.busFault = false ∧ (0 : Int) ≤ 0xA5 ∧ (0xA5 : Int) ≤ 255 ∧ s.env.ext = .z ∧
    gapsAll Move.steady s.sched.gaps = true ∧
    exec (.serialWrite 0xA5) s = .next (after (.serialWrite 0xA5) s) ∧
    (after (.serialWrite 0xA5) s).hist.pins = s.hist.pins ++ (after (.serialWrite 0xA5) s).hist.pins ∧
    u.sri.busFault = false ∧ gapsAll Move.notReset u.sched.gaps = true ∧
    exec .serialRead u = .next (after .serialRead u) ∧
    (after .serialRead u).hist.pins = u.hist.pins ++ (after .serialRead u).hist.pins ∧
    sampledLevels (after .serialRead u).hist.pins = risingLevels (after (.serialWrite 0xA5) s).hist.pins :=
  ⟨rfl, by decide, by decide, rfl, rfl, exec_after _ _, rfl, rfl, by decide, exec_after _ _, rfl,
    by decide +kernel⟩

theorem witness_WriteRegSendsTheFrame :
    (calm .z).sri.busFault = false ∧ (0 : Int) ≤ 0 ∧ (127 : Int) ≤ 127 ∧ 1 ≤ [(255 : Int)].length ∧
    (List.replicate 8 (0 : Int)).length ≤ (calm .z).cfg.widthMax ∧
    (∀ v ∈ [(0 : Int), 255], 0 ≤ v ∧ v ≤ 255) ∧ (calm .z).env.ext = .z ∧
    gapsAll Move.steady (calm .z).sched.gaps = true := by decide

theorem witness_WriteRegFaultsPrecisely :
    busyLine.sri.busFault = false ∧ (0 : Int) ≤ 0 ∧ (127 : Int) ≤ 127 ∧ 1 ≤ [(255 : Int)].length ∧
    (List.replicate 8 (0 : Int)).length ≤ busyLine.cfg.widthMax ∧
    (∀ v ∈ [(0 : Int), 255], 0 ≤ v ∧ v ≤ 255) ∧ gapsAll Move.notReset busyLine.sched.gaps = true := by decide

/-- P2: nobody drives during the command byte, then TARGET answers. -/
theorem witness_ReadRegReturnsWhatTheLineCarries :
    let s := moved (List.replicate 29 [] ++ [[], [.ext (.drive true)], [.consumer]])
    s.sri.busFault = false ∧ (0 : Int) ≤ 0 ∧ (127 : Int) ≤ 127 ∧ (1 : Int) ≤ 1 ∧
    (8 : Int) ≤ s.cfg.widthMax ∧ s.env.ext = .z ∧ gapsAll Move.steady (s.sched.gaps.take 29) = true ∧
    gapsAll Move.notReset (s.sched.gaps.drop 29) = true := by decide

theorem witness_ReadRegFaultsOnlyBeforeTheCommand :
    busyLine.sri.busFault = false ∧ (0 : Int) ≤ 0 ∧ (127 : Int) ≤ 127 ∧ (1 : Int) ≤ 1 ∧
    (8 : Int) ≤ busyLine.cfg.widthMax ∧ gapsAll Move.notReset busyLine.sched.gaps = true := by decide

theorem witness_CommandByteIsOneSerialWrite :
    (calm .z).sri.busFault = false ∧ (calm .z).env.ext = .z ∧
    gapsAll Move.steady (calm .z).sched.gaps = true := by decide

theorem witness_DataMovesOnlyWhileTheClockIsLow :
    isSri (.serialWrite 0xA5) = true ∧ State.reset.sri.sclk = false ∧
    exec (.serialWrite 0xA5) State.reset = .next (after (.serialWrite 0xA5) State.reset) ∧
    (after (.serialWrite 0xA5) State.reset).hist.pins =
      State.reset.hist.pins ++ (after (.serialWrite 0xA5) State.reset).hist.pins :=
  ⟨rfl, rfl, exec_after _ _, rfl⟩

/-- Two states that differ in the streamer alone; TARGET's moves only; an operation of the streamer. -/
theorem witness_SriAndStreamerAreIndependent :
    SameBut State.reset (streaming starved) ∧ State.reset ≠ streaming starved ∧ isSri .serialRead = true ∧
    exec .serialRead State.reset = .next (after .serialRead State.reset) ∧
    exec .serialRead (streaming starved) = .next (after .serialRead (streaming starved)) ∧
    gapsAll Move.environment (moved [[.ext (.drive true)], [.pclk true]]).sched.gaps = true ∧
    isSri (.push 1) = false ∧ (∀ n, Instr.push 1 ≠ .readStatus n) ∧
    exec (.push 1) State.reset = .next (after (.push 1) State.reset) :=
  ⟨⟨rfl, rfl, rfl, rfl, rfl, rfl, rfl⟩, by decide, rfl, exec_after _ _, exec_after _ _, by decide, rfl,
    by simp, exec_after _ _⟩

theorem witness_SriOperationsLeaveTheRest :
    isSri .isBusIdle = true ∧ gapsAll Move.notReset busyLine.sched.gaps = true ∧
    exec .isBusIdle busyLine = .next (after .isBusIdle busyLine) ∧
    (∀ addr payload, Instr.isBusIdle ≠ .writeReg addr payload) :=
  ⟨rfl, by decide, exec_after _ _, by simp⟩

theorem witness_ToFtwIsTheNearestInteger :
    (0 : Rat) < 25000000 ∧ (0 : Rat) ≤ 0 ∧ (-1 : Rat) ≤ 0 ∧
    |(1 : Rat) * 2 ^ 32 / 8589934592 - (0 : Int)| = 1 / 2 := by
  refine ⟨by norm_num, le_refl _, by norm_num, ?_⟩
  norm_num [abs_of_pos]

theorem exec_toFtw {f c : Rat} {w : Word} (hc : ¬ c.num ≤ 0) (hw : ftwValue .halfEven f c = w) :
    exec (.toFtw f c) State.reset =
      .next { State.reset with host.results := State.reset.host.results ++ [.ok (.word w)] } := by
  subst hw
  simp only [exec, execToFtw, if_neg hc]
  rfl

/-- V53 and the next frequency. -/
theorem witness_TuningWordIsMonotonic :
    (0 : Rat) ≤ 1 ∧ (1 : Rat) ≤ 2 ∧ (2 : Rat) < 25000000 / 2 ∧
    exec (.toFtw 1 25000000) State.reset =
      .next { State.reset with host.results := State.reset.host.results ++ [.ok (.word 0x000000AC)] } ∧
    exec (.toFtw 2 25000000) State.reset =
      .next { State.reset with host.results := State.reset.host.results ++ [.ok (.word 0x00000158)] } :=
  ⟨by norm_num, by norm_num, by norm_num, exec_toFtw (by decide +kernel) (by decide +kernel),
    exec_toFtw (by decide +kernel) (by decide +kernel)⟩

/-- V51. -/
theorem witness_TuningWordRoundTrip :
    (0 : Rat) < 25000000 ∧
    exec (.toFtw 12500000 25000000) State.reset =
      .next { State.reset with host.results := State.reset.host.results ++ [.ok (.word 0x80000000)] } ∧
    (-(1 / 2) : Rat) < 12500000 * 2 ^ 32 / 25000000 ∧
    (12500000 * 2 ^ 32 / 25000000 : Rat) < 2 ^ 32 - 1 / 2 ∧ (12500000 : Rat) = 25000000 / 2 :=
  ⟨by norm_num, exec_toFtw (by decide +kernel) (by decide +kernel), by norm_num, by norm_num, by norm_num⟩

theorem witness_FtwBytesAreBigEndian :
    (0 : Int) ≤ 0 ∧ (4294967295 : Int) < 2 ^ 32 ∧ ((-1 : Int) < 0 ∨ (2 : Int) ^ 32 ≤ -1) ∧
    ((4294967296 : Int) < 0 ∨ (2 : Int) ^ 32 ≤ 4294967296) := by decide

theorem witness_PackIsABijection :
    (0 : Int) ≤ 0 ∧ (15 : Int) ≤ 15 ∧ ((-1 : Int) < 0 ∨ (15 : Int) < -1 ∨ (0 : Int) < 0 ∨ (15 : Int) < 0) ∧
    ((0 : Int) < 0 ∨ (15 : Int) < 0 ∨ (16 : Int) < 0 ∨ (15 : Int) < 16) := by decide

theorem witness_AssembleWordPacksFourBytes :
    let l : List Int := [0, 255, 1, 254]
    l.length % 4 = 0 ∧ (∀ v ∈ l, 0 ≤ v ∧ v ≤ 255) ∧ l[4 * 0]? = some 0 ∧ l[4 * 0 + 1]? = some 255 ∧
    l[4 * 0 + 2]? = some 1 ∧ l[4 * 0 + 3]? = some 254 ∧ [(0xFE01FF00 : Word)][0]? = some 0xFE01FF00 ∧
    [(8 : Int), 8, 8].length % 4 ≠ 0 ∧ (∃ v ∈ [(256 : Int)], v < 0 ∨ 255 < v) ∧
    (∃ v ∈ [(-1 : Int)], v < 0 ∨ 255 < v) := by decide

theorem witness_PackedSamplesKeepTheirOrder :
    [((8, 8) : Nibble × Nibble), (15, 0), (0, 15), (15, 0)].length % 4 = 0 := by decide

/-- A streaming state with CONSUMER's turn next: one idle word pushed, one nibble of it emitted. -/
def running : State :=
  { turned [.move .consumer] with
    iqs := { Iqs.reset with
      active := true, state := .waitQHigh, wr := 1, rd := 1, osr := 0x00808080, osrCnt := 7, d := 8 }
    env.pclk := true
    hist.pushed := [0x08080808]
    hist.emitted := [(.i, 8)]
    hist.dWrites := [⟨.shift .i, 8⟩] }

theorem running_inv : Inv running :=
  ⟨by constructor <;> decide, by constructor <;> decide, by constructor <;> decide,
    by constructor <;> decide⟩

/-- The state after one step. -/
def stepped (s : State) : State := nextOr s (step s)

theorem witness_EveryStepKeepsTheInvariant :
    Inv running ∧ step running = .next (stepped running) ∧ stepped running ≠ running :=
  ⟨running_inv, rfl, by decide⟩

theorem witness_EmissionLawOfEveryStep :
    StreamInv running ∧ EmissionLaw running ∧ step running = .next (stepped running) :=
  ⟨running_inv.stream, running_inv.emission, rfl⟩

theorem witness_BusFaultStaysUntilReset :
    let s := { faulted with
      sched.turns := [.host], host.program := [⟨.hostop4, 0b0010, []⟩] }
    let u := { faulted with sched.turns := [.move .reset] }
    s.sri.busFault = true ∧ step s = .next (stepped s) ∧ s.sched.turns.head? ≠ some (.move .reset) ∧
    u.sri.busFault = true ∧ step u = .next (stepped u) ∧ u.sched.turns.head? = some (.move .reset) :=
  ⟨rfl, rfl, by decide, rfl, rfl, rfl⟩

theorem witness_ConfigurationNeverChanges : step running = .next (stepped running) := rfl

theorem witness_EveryInstructionAnswersANextState : State.reset.host.busy = false := rfl

/-- A step in which something is written to `D`. -/
theorem witness_HistoryIsNeverErased :
    step running = .next (stepped running) ∧
    (runMove (streaming starting) .consumer).hist.dWrites ≠ (streaming starting).hist.dWrites :=
  ⟨rfl, by decide⟩

theorem witness_PseudoOperationsDoTheirExpansions :
    (0 : Rat) ≤ 0 ∧ (-1 : Rat) ≤ 0 ∧ (0 : Rat) < 25000000 := ⟨le_refl _, by norm_num, by norm_num⟩

end Sys2Proof.Tests
end

section
/-! What a turn of the schedule does, one rule for each kind of turn, and when the moves of a gap are made
(`00_scope.md` R9, R12, R13); then the two statements of the family `00_scope.md`. -/

namespace Sys2Proof.Machine

/-! ### Turns -/

theorem step_of_no_turns {s : State} (h : s.sched.turns = []) : step s = .next s := by
  rw [step, h]

theorem step_of_turn {s : State} {t : Turn} {ts : List Turn} (h : s.sched.turns = t :: ts) :
    step s = runTurn t { s with sched.turns := ts } := by
  rw [step, h]

theorem runRequest_of_decode {r : Request} {i : Instr} (s : State) (h : decode r = .instr i) :
    runRequest r s = exec i s := by
  rw [runRequest, h]

/-- HOST, not held, issues the next request of its program; it has no `ST2` requests (R101). -/
theorem hostTurn_of_request {s : State} {r : Request} {rs : List Request} (hheld : s.host.held = none)
    (hprog : s.host.program = r :: rs) (hfmt : r.format ≠ .st2) :
    hostTurn s = runRequest r { s with host.program := rs } := by
  simp only [hostTurn, hheld, hprog, if_neg hfmt]

theorem hostTurn_of_nothing_to_issue {s : State} (hheld : s.host.held = none)
    (hprog : s.host.program = []) : hostTurn s = .next s := by
  simp only [hostTurn, hheld, hprog]

/-! ### `KEEP <- LINE` (R30) -/

theorem resolveLine_of_none {r : Sri} {v : Env} (h : lineLevel r v = none) :
    resolveLine r v = (Config.freeBit v.draws, { v with draws := v.draws + 1 }) := by
  rw [resolveLine, h]

theorem retainLine_of_some {r : Sri} {v : Env} {l : Bool} (h : lineLevel r v = some l) :
    retainLine r v = { v with keep := l } := by
  rw [retainLine, resolveLine_of_some r v h]

theorem retainLine_of_none {r : Sri} {v : Env} (h : lineLevel r v = none) :
    retainLine r v = { v with keep := Config.freeBit v.draws, draws := v.draws + 1 } := by
  rw [retainLine, resolveLine_of_none h]

/-! ### The moves before an event of an SRI operation (R9) -/

theorem runGap_of_no_gaps {s : State} (h : s.sched.gaps = []) : runGap s = s := by
  rw [runGap, h]

theorem runGap_of_gap {s : State} {g : List Move} {gs : List (List Move)} (h : s.sched.gaps = g :: gs) :
    runGap s = g.foldl runMove { s with sched.gaps := gs } := by
  rw [runGap, h]

/-- The moves of the gap can only end the operation (R250); while it is still going after them, the event happens. -/
theorem event_after_gap {s t : State} (hbusy : s.host.busy = true) (hgap : runGap s = t)
    (hstill : t.host.busy = true) (e : PinEvent) :
    pinEvent e s = pinAct e t ∧ sampleLine s = sampleAct t := by
  subst hgap
  exact ⟨by rw [pinEvent_of_busy s e hbusy, whileBusy_of_busy _ _ hstill],
    by rw [sampleLine_of_busy s hbusy, if_pos hstill]⟩

/-! ### The statements -/

/-- Settles O9: HOST's turn takes the request, and the request runs what it decodes to. -/
theorem stepRunsTheNextHostOperation : Obligations.StepRunsTheNextHostOperation := by
  intro s ts r rs i hturns hheld hprog hfmt hdec
  calc step s
      _ = hostTurn { s with sched.turns := ts } := step_of_turn hturns
      _ = runRequest r { s with sched.turns := ts, host.program := rs } :=
        hostTurn_of_request hheld hprog hfmt
      _ = exec i { s with sched.turns := ts, host.program := rs } := runRequest_of_decode _ hdec

/-- Settles O11: the rule of each kind of turn; and of the events, because moves other than the reset event leave
HOST inside its operation (`runMoves_frame`). -/
theorem stepOfTheEnvironment : Obligations.StepOfTheEnvironment := by
  intro s ts
  refine ⟨step_of_no_turns, ?drive, ?drawn, ?pclk, ?idle, ?gap, ?noGaps⟩
  case drive =>
    intro e l hturns hline
    rw [step_of_turn hturns]
    simp only [runTurn, runMove, retainLine_of_some hline]
  case drawn =>
    intro e hturns hline
    rw [step_of_turn hturns]
    simp only [runTurn, runMove, retainLine_of_none hline]
  case pclk =>
    intro v hturns
    rw [step_of_turn hturns, runTurn, runMove]
  case idle =>
    intro hturns hheld hprog
    exact (step_of_turn hturns).trans (hostTurn_of_nothing_to_issue hheld hprog)
  case gap =>
    intro e g gs hbusy hgaps hmoves
    obtain ⟨went, -, -⟩ := runMoves_frame g { s with sched.gaps := gs } hmoves
    exact event_after_gap hbusy (runGap_of_gap hgaps) (by rw [went.host]; exact hbusy) e
  case noGaps =>
    intro e hbusy hgaps
    exact event_after_gap hbusy (runGap_of_no_gaps hgaps) hbusy e

end Sys2Proof.Machine
end

section
/-! What an operation outside the SRI can do to the streamer, what a step keeps of the streamer and of the idle bus, and
what a bus fault leaves of the SRI (`10_state.md`, `42_streamer.md` R165 to R184); then the statements of the family
`10_state.md`. -/

namespace Sys2Proof.Machine

/-! ### What an operation outside the SRI does to the streamer -/

/-- One of the four instructions of CONSUMER (R101). -/
def IsConsumerStep (i : Instr) : Prop :=
  i = .cWaitILow ∨ i = .cShiftI ∨ i = .cWaitQHigh ∨ i = .cShiftQ

/-- What an operation outside the SRI has done to the streamer and its record, from `s` to `t`. -/
inductive StreamerChange (i : Instr) (s t : State) : Prop
  /-- At most ACTIVE and UNDERRUN are written, and UNDERRUN is not set: the functions, refusals, a held PUSH, ACTIVATE,
  DEACTIVATE, CLEAR_UNDERRUN. -/
  | flags (active underrun : Bool) (unset : underrun = true → s.iqs.underrun = true)
      (iqs : t.iqs = { s.iqs with active := active, underrun := underrun }) (hist : t.hist = s.hist)
  /-- A PUSH with room (R160). -/
  | push (w : Word) (room : s.iqs.level < 8) (iqs : t.iqs = (enqueue w s).iqs)
      (hist : t.hist = (enqueue w s).hist)
  /-- RESET_STREAMER (R184). -/
  | restart (instr : i = .resetStreamer) (iqs : t.iqs = s.iqs.restarted)
      (hist : t.hist = restartRecord .restart s.hist)
  /-- CONSUMER's turn (R165). -/
  | consume (instr : IsConsumerStep i) (turn : t = consumerStep s)

theorem exec_streamerChange {i : Instr} {s t : State} (hi : isSri i = false) (he : exec i s = .next t) :
    StreamerChange i s t := by
  by_cases hc : IsConsumerStep i
  · obtain rfl | turn := exec_consumer hc he
    · exact .flags _ _ id rfl rfl
    · exact .consume hc turn
  · cases i <;> simp [isSri, IsConsumerStep] at hi hc <;>
      simp only [exec, execToFtw, execFtwBytes, execPush, execActivate, execDeactivate, execReadStatus,
        execClearUnderrun, execResetStreamer, execQclip, execPack, execAssembleWord,
        Host.Outcome.next.injEq] at he <;> subst he
    case push w =>
      split
      · exact .flags _ _ id rfl rfl
      · split
        · next room => exact .push (toWord w) room rfl rfl
        · exact .flags _ _ id rfl rfl
    case resetStreamer => exact .restart rfl rfl rfl
    case clearUnderrun => exact .flags _ false (by simp) rfl rfl
    case activate | deactivate | qclip => exact .flags _ _ id rfl rfl
    case toFtw | ftwBytes | readStatus | pack | assembleWord => split <;> exact .flags _ _ id rfl rfl

/-! ### The laws of the streamer (R36, R40, R174, R238) -/

/-- The streamer's part of the machine's invariant. -/
structure StreamerLaws (s : State) : Prop where
  stream   : StreamInv s
  emission : EmissionLaw s
  record   : DRecord s

/-- Every move of the other agents keeps the laws, the reset event among them; so every SRI operation does
(`StreamerSide.exec`). -/
theorem streamerLaws_side : StreamerSide (fun _ => true) StreamerLaws where
  congr _ _ cfg iqs pushed emitted dWrites h :=
    ⟨h.stream.congr iqs, h.emission.congr iqs cfg pushed emitted, h.record.congr iqs emitted dWrites⟩
  move _ m _ h := ⟨h.stream.runMove m, h.emission.runMove h.stream m, h.record.runMove m⟩

/-- A state with the same configuration, streamer and record has the same laws. -/
theorem StreamerLaws.congr {s t : State} (h : StreamerLaws s) (cfg : t.cfg = s.cfg) (iqs : t.iqs = s.iqs)
    (hist : t.hist = s.hist) : StreamerLaws t :=
  streamerLaws_side.congr s t cfg iqs (by rw [hist]) (by rw [hist]) (by rw [hist]) h

theorem StreamerLaws.enqueue {s : State} (h : StreamerLaws s) (room : s.iqs.level < 8) (w : Word) :
    StreamerLaws (enqueue w s) :=
  ⟨h.stream.enqueue room w, h.emission.enqueue h.stream room w, h.record.sameD rfl rfl rfl⟩

theorem StreamerLaws.of_change {i : Instr} {s t : State} (h : StreamerLaws s) (cfg : t.cfg = s.cfg)
    (c : StreamerChange i s t) : StreamerLaws t := by
  cases c with
  | flags a u unset iqs hist =>
    have flagged : StreamerLaws { s with iqs.active := a, iqs.underrun := u } := by
      obtain ⟨⟨level, osrCnt, ring, parity, starved, counted⟩, ⟨nibbles, lanes⟩, record⟩ := h
      exact ⟨⟨level, osrCnt, ring, parity, starved, fun hu => counted (unset hu)⟩, ⟨nibbles, lanes⟩,
        record.sameD rfl rfl rfl⟩
    exact flagged.congr cfg iqs hist
  | push w room iqs hist => exact (h.enqueue room w).congr cfg iqs hist
  | restart _ iqs hist =>
    have cleared : StreamerLaws (restartStreamer s) :=
      ⟨(restarted_atReset s.iqs).streamInv, (restarted_atReset s.iqs).emissionLaw rfl rfl,
        .restarted .restart rfl rfl (restartStreamer_dWrites s)⟩
    exact cleared.congr cfg iqs hist
  | consume _ turn =>
    rw [turn]
    exact streamerLaws_side.move s .consumer rfl h

theorem exec_keeps_streamerLaws {i : Instr} {s t : State} (h : StreamerLaws s) (he : exec i s = .next t) :
    StreamerLaws t := by
  cases hi : isSri i
  case false =>
    obtain ⟨-, cfg, -⟩ := exec_outside_sri hi he
    exact h.of_change cfg (exec_streamerChange hi he)
  case true => exact streamerLaws_side.exec hi (by simp [gapsAll]) h he

/-! ### The idle bus (R24, R28, R128) -/

theorem busInv_iff (s : State) : BusInv s ↔ s.host.busy = false ∧ Quiet s.sri :=
  ⟨fun h => ⟨h.idle, h.clock, h.bits, h.cause, h.noThree⟩,
    fun ⟨idle, q⟩ => ⟨idle, q.clock, q.bits, q.cause, q.noThree⟩⟩

theorem BusInv.congr {s t : State} (h : BusInv s) (busy : t.host.busy = s.host.busy) (sri : t.sri = s.sri) :
    BusInv t := by
  rw [busInv_iff, busy, sri]
  exact (busInv_iff s).mp h

theorem exec_keeps_busInv {i : Instr} {s t : State} (h : BusInv s) (he : exec i s = .next t) : BusInv t := by
  cases hi : isSri i
  case false =>
    obtain ⟨sri, -, -, -, busy, -⟩ := exec_outside_sri hi he
    exact h.congr busy sri
  case true =>
    obtain ⟨idle, quiet⟩ := (busInv_iff s).mp h
    exact (busInv_iff t).mpr ⟨exec_sri_idle hi idle he, exec_quiet hi quiet he⟩

theorem BusInv.runMove {s : State} (h : BusInv s) (m : Move) : BusInv (runMove s m) := by
  cases hm : m.notReset
  case false =>
    cases m <;> simp only [Move.notReset, Bool.true_eq_false] at hm
    exact (busInv_iff _).mpr ⟨rfl, (resetEvent_bus s).quiet⟩
  case true =>
    obtain ⟨-, sri, host, -⟩ := runMove_frame s m hm
    exact h.congr (by rw [host]) sri

/-! ### The invariant of the machine -/

theorem inv_iff (s : State) : Inv s ↔ StreamerLaws s ∧ BusInv s :=
  ⟨fun h => ⟨⟨h.stream, h.emission, h.record⟩, h.bus⟩, fun ⟨l, b⟩ => ⟨l.stream, l.emission, l.record, b⟩⟩

/-- Settles O54: a step is nothing, one instruction or one move (`step_cases`), and each keeps the laws of the streamer
and the idle bus. -/
theorem everyStepKeepsTheInvariant : Obligations.EveryStepKeepsTheInvariant := by
  intro s t hinv hstep
  obtain ⟨u, cfg, sri, iqs, -, hist, busy, -, -, -, what⟩ := step_cases hstep
  obtain ⟨laws, bus⟩ := (inv_iff s).mp hinv
  replace laws : StreamerLaws u := laws.congr cfg iqs hist
  replace bus : BusInv u := bus.congr busy sri
  rw [inv_iff]
  obtain rfl | ⟨i, he, -⟩ | ⟨m, -, -, rfl⟩ := what
  · exact ⟨laws, bus⟩
  · exact ⟨exec_keeps_streamerLaws laws he, exec_keeps_busInv bus he⟩
  · exact ⟨streamerLaws_side.move u m rfl laws, bus.runMove m⟩

/-- Settles O53: the streamer and the SRI are at their reset values (R251, R252), and the records are empty. -/
theorem invariantAtReset : Obligations.InvariantAtReset := by
  have streamer : StreamerAtReset State.reset.iqs := by constructor <;> rfl
  have sri : SriAtReset State.reset.sri := by constructor <;> rfl
  refine (inv_iff _).mpr ⟨⟨streamer.streamInv, streamer.emissionLaw rfl rfl, ?record⟩,
    (busInv_iff _).mpr ⟨rfl, sri.quiet⟩⟩
  case record => exact ⟨rfl, List.nil_suffix⟩

/-! ### Contents nothing has written (R22, R35) -/

/-- The state with other contents in `OSR`. -/
def State.withOsr (x : Word) (s : State) : State := { s with iqs.osr := x }

/-- The state with other contents in the queue's slots. -/
def State.withSlots (f : Vector Word 8) (s : State) : State := { s with iqs.fifo := f }

/-- The four CONSUMER instructions are steps of two forms, each taken when its STATE is the one selected. -/
theorem exec_consumer_form {i : Instr} (hi : IsConsumerStep i) :
    ∃ (st : StreamState) (f : State → State),
      ((∃ b n, f = waitStep b n) ∨ ∃ l n, f = shiftStep l n) ∧
      ∀ s, exec i s = .next (whenSelected st f s) := by
  obtain rfl | rfl | rfl | rfl := hi
  · exact ⟨_, stepWaitILow, .inl ⟨_, _, rfl⟩, fun _ => rfl⟩
  · exact ⟨_, stepShiftI, .inr ⟨_, _, rfl⟩, fun _ => rfl⟩
  · exact ⟨_, stepWaitQHigh, .inl ⟨_, _, rfl⟩, fun _ => rfl⟩
  · exact ⟨_, stepShiftQ, .inr ⟨_, _, rfl⟩, fun _ => rfl⟩

/-- Whether a step is selected depends on ACTIVE and STATE alone (R165). -/
theorem whenSelected_pair (st : StreamState) (f : State → State) {s s' : State}
    (ha : s'.iqs.active = s.iqs.active) (hs : s'.iqs.state = s.iqs.state) :
    (whenSelected st f s = s ∧ whenSelected st f s' = s') ∨
    (whenSelected st f s = f s ∧ whenSelected st f s' = f s') := by
  unfold whenSelected
  rw [ha, hs]
  split
  · exact .inr ⟨rfl, rfl⟩
  · exact .inl ⟨rfl, rfl⟩

theorem waitStep_withOsr (b : Bool) (n : StreamState) (x : Word) (s : State) :
    waitStep b n (s.withOsr x) = (waitStep b n s).withOsr x := by
  unfold waitStep State.withOsr
  dsimp only
  split <;> rfl

theorem waitStep_withSlots (b : Bool) (n : StreamState) (f : Vector Word 8) (s : State) :
    waitStep b n (s.withSlots f) = (waitStep b n s).withSlots f := by
  unfold waitStep State.withSlots
  dsimp only
  split <;> rfl

theorem starve_withOsr (x : Word) (q : Iqs) : Iqs.starve { q with osr := x } = { q.starve with osr := x } := by
  unfold Iqs.starve
  dsimp only
  split <;> rfl

theorem starve_withSlots (f : Vector Word 8) (q : Iqs) :
    Iqs.starve { q with fifo := f } = { q.starve with fifo := f } := by
  unfold Iqs.starve
  dsimp only
  split <;> rfl

/-- The state after a SHIFT step whose nibble comes from the streamer `q` (R170 steps 2 to 4). -/
def State.emitting (l : Lane) (n : StreamState) (s : State) (q : Iqs) : State :=
  { s with
    iqs := { emitNibble s.cfg q with state := n }
    hist.emitted := s.hist.emitted ++ [(l, (emitNibble s.cfg q).d)]
    hist.dWrites := s.hist.dWrites ++ [⟨.shift l, (emitNibble s.cfg q).d⟩] }

section

variable (l : Lane) (n : StreamState) {s : State}

theorem shiftStep_stalls (hc : s.iqs.osrCnt = 0) (hl : s.iqs.level = 0) :
    shiftStep l n s = { s with iqs := s.iqs.starve } := by
  rw [shiftStep, shifted_stalls _ _ hc hl]

theorem shiftStep_dequeues (hc : s.iqs.osrCnt = 0) (hl : s.iqs.level ≠ 0) :
    shiftStep l n s = s.emitting l n (dequeue s.iqs) := by
  rw [shiftStep, shifted_dequeues _ _ hc hl]; rfl

theorem shiftStep_emits (hc : s.iqs.osrCnt ≠ 0) : shiftStep l n s = s.emitting l n s.iqs := by
  rw [shiftStep, shifted_emits _ _ hc]; rfl

/-- With `OSR_CNT = 0` the dequeue overwrites `OSR`, or a starved step leaves it (R170). -/
theorem shiftStep_withOsr (x : Word) (hc : s.iqs.osrCnt = 0) :
    shiftStep l n (s.withOsr x) = shiftStep l n s ∨
    shiftStep l n (s.withOsr x) = (shiftStep l n s).withOsr x := by
  by_cases hl : s.iqs.level = 0
  · right
    rw [shiftStep_stalls l n hc hl, shiftStep_stalls (s := s.withOsr x) l n hc hl]
    exact congrArg (fun q => { s with iqs := q }) (starve_withOsr x s.iqs)
  · left
    rw [shiftStep_dequeues l n hc hl, shiftStep_dequeues (s := s.withOsr x) l n hc hl]
    rfl

/-- A SHIFT step reads at most the head slot, and that only at `LEVEL > 0` (R170). -/
theorem shiftStep_withSlots {f : Vector Word 8} (head : s.iqs.level ≠ 0 → f[s.iqs.rd] = s.iqs.fifo[s.iqs.rd]) :
    shiftStep l n (s.withSlots f) = (shiftStep l n s).withSlots f := by
  by_cases hc : s.iqs.osrCnt = 0
  · by_cases hl : s.iqs.level = 0
    · rw [shiftStep_stalls l n hc hl, shiftStep_stalls (s := s.withSlots f) l n hc hl]
      exact congrArg (fun q => { s with iqs := q }) (starve_withSlots f s.iqs)
    · have loaded : dequeue (s.withSlots f).iqs = { dequeue s.iqs with fifo := f } := by
        simp only [dequeue, State.withSlots, head hl]
      rw [shiftStep_dequeues l n hc hl, shiftStep_dequeues (s := s.withSlots f) l n hc hl, loaded]
      rfl
  · rw [shiftStep_emits l n hc, shiftStep_emits (s := s.withSlots f) l n hc]
    rfl

end

/-- Settles O16: a WAIT step reads neither, a SHIFT step reads `OSR` only after loading it and of the queue only the
head. -/
theorem unwrittenContentsAreNeverRead : Obligations.UnwrittenContentsAreNeverRead := by
  intro i s t hi he
  obtain ⟨st, step, form, hexec⟩ := exec_consumer_form hi
  obtain rfl : whenSelected st step s = t := Host.Outcome.next.inj ((hexec s).symm.trans he)
  refine ⟨fun x hc => ?osr, fun f same => ?slots⟩
  case osr =>
    have stepped : step (s.withOsr x) = step s ∨ step (s.withOsr x) = (step s).withOsr x := by
      obtain ⟨b, n, rfl⟩ | ⟨l, n, rfl⟩ := form
      · exact .inr (waitStep_withOsr b n x s)
      · exact shiftStep_withOsr l n x hc
    simp only [hexec, Host.Outcome.next.injEq]
    obtain ⟨e, e'⟩ | ⟨e, e'⟩ := whenSelected_pair st step (s := s) (s' := s.withOsr x) rfl rfl
    · rw [e]; exact .inr e'
    · rw [e]; exact stepped.imp e'.trans e'.trans
  case slots =>
    have stepped : step (s.withSlots f) = (step s).withSlots f := by
      obtain ⟨b, n, rfl⟩ | ⟨l, n, rfl⟩ := form
      · exact waitStep_withSlots b n f s
      · exact shiftStep_withSlots l n fun hl => by simpa using same 0 (by omega)
    simp only [hexec, Host.Outcome.next.injEq]
    obtain ⟨e, e'⟩ | ⟨e, e'⟩ := whenSelected_pair st step (s := s) (s' := s.withSlots f) rfl rfl
    · rw [e]; exact e'
    · rw [e]; exact e'.trans stepped

/-! ### UNDERRUN_COUNT (R27, R40 (e)) -/

theorem starve_underrunCount_le (q : Iqs) : q.underrunCount.toNat ≤ q.starve.underrunCount.toNat := by
  unfold Iqs.starve
  split
  · exact Nat.le_refl _
  · exact saturatingSucc_le q.underrunCount

theorem shiftStep_underrunCount_le (l : Lane) (n : StreamState) (s : State) :
    s.iqs.underrunCount.toNat ≤ (shiftStep l n s).iqs.underrunCount.toNat := by
  obtain ⟨-, -, e⟩ | ⟨q, ⟨-, -, rfl⟩ | ⟨-, rfl⟩, e⟩ := shiftStep_cases l n s <;> rw [e]
  · exact starve_underrunCount_le s.iqs
  · exact Nat.le_refl _
  · exact Nat.le_refl _

theorem waitStep_underrunCount (b : Bool) (n : StreamState) (s : State) :
    (waitStep b n s).iqs.underrunCount = s.iqs.underrunCount := by
  unfold waitStep; split <;> rfl

theorem consumerStep_underrunCount_le (s : State) :
    s.iqs.underrunCount.toNat ≤ (consumerStep s).iqs.underrunCount.toNat := by
  cases ha : s.iqs.active
  · rw [consumerStep_inactive s ha]
  · obtain ⟨-, e⟩ | ⟨-, e⟩ | ⟨-, e⟩ | ⟨-, e⟩ := consumerStep_cases s ha <;> rw [e]
    · exact (congrArg BitVec.toNat (waitStep_underrunCount _ _ s)).ge
    · exact shiftStep_underrunCount_le _ _ s
    · exact (congrArg BitVec.toNat (waitStep_underrunCount _ _ s)).ge
    · exact shiftStep_underrunCount_le _ _ s

/-- "At least `n` underruns are counted" is kept by every move but the reset event, so by every SRI operation without
one in its gaps. -/
theorem underrunCount_side (n : Nat) :
    StreamerSide Move.notReset fun s => n ≤ s.iqs.underrunCount.toNat where
  congr _ _ _ iqs _ _ _ h := by rw [iqs]; exact h
  move s m hm h := by
    cases m with
    | consumer => exact h.trans (consumerStep_underrunCount_le s)
    | ext _ => exact h
    | pclk _ => exact h
    | reset => simp [Move.notReset] at hm

/-- Settles O26: only a starved SHIFT step writes UNDERRUN_COUNT (RESET_STREAMER and the reset event apart), and it
counts up or stays at the top. -/
theorem underrunCountNeverDecreases : Obligations.UnderrunCountNeverDecreases := by
  intro i s t hi hgaps he
  cases hsri : isSri i
  case true => exact (underrunCount_side _).exec hsri hgaps (Nat.le_refl _) he
  case false =>
    cases exec_streamerChange hsri he with
    | flags _ _ _ iqs _ => rw [iqs]
    | push w _ iqs _ => rw [iqs, enqueue_underrunCount]
    | restart instr _ _ => exact absurd instr hi
    | consume _ turn => rw [turn]; exact consumerStep_underrunCount_le s

/-! ### STATE (R23, R175) -/

theorem waitStep_state (b : Bool) (n : StreamState) (s : State) :
    (waitStep b n s).iqs.state = s.iqs.state ∨ (waitStep b n s).iqs.state = n ∧ s.env.pclk = b := by
  unfold waitStep
  split
  · next hp => exact .inr ⟨rfl, hp⟩
  · exact .inl rfl

theorem shiftStep_state (l : Lane) (n : StreamState) (s : State) :
    (shiftStep l n s).iqs.state = s.iqs.state ∨
    (shiftStep l n s).iqs.state = n ∧ ∃ x, (shiftStep l n s).hist.emitted = s.hist.emitted ++ [(l, x)] := by
  obtain ⟨-, -, e⟩ | ⟨q, -, e⟩ := shiftStep_cases l n s <;> rw [e]
  · exact .inl (starve_state s.iqs)
  · exact .inr ⟨rfl, _, rfl⟩

/-- Settles O28: a CONSUMER instruction moves STATE only when STATE selects it, and every other operation outside the
SRI but RESET_STREAMER leaves STATE alone. -/
theorem stateMovesAlongTheCycle : Obligations.StateMovesAlongTheCycle := by
  intro i s t hsri hi he
  cases exec_streamerChange hsri he with
  | flags _ _ _ iqs _ => exact .inl (by rw [iqs])
  | push w _ iqs _ => exact .inl (by rw [iqs, enqueue_state])
  | restart instr _ _ => exact absurd instr hi
  | consume instr _ =>
    obtain rfl | rfl | rfl | rfl := instr <;> obtain rfl := Host.Outcome.next.inj he
    · obtain e | ⟨active, state, e⟩ := whenSelected_cases .waitILow stepWaitILow s <;> rw [e]
      · exact .inl rfl
      · exact (waitStep_state false .shiftI s).imp_right fun ⟨moved, pclk⟩ => by
          simp [stepWaitILow, moved, state, active, pclk, StreamState.successor]
    · obtain e | ⟨active, state, e⟩ := whenSelected_cases .shiftI stepShiftI s <;> rw [e]
      · exact .inl rfl
      · exact (shiftStep_state .i .waitQHigh s).imp_right fun ⟨moved, emitted⟩ => by
          simp [stepShiftI, moved, state, active, emitted, StreamState.successor]
    · obtain e | ⟨active, state, e⟩ := whenSelected_cases .waitQHigh stepWaitQHigh s <;> rw [e]
      · exact .inl rfl
      · exact (waitStep_state true .shiftQ s).imp_right fun ⟨moved, pclk⟩ => by
          simp [stepWaitQHigh, moved, state, active, pclk, StreamState.successor]
    · obtain e | ⟨active, state, e⟩ := whenSelected_cases .shiftQ stepShiftQ s <;> rw [e]
      · exact .inl rfl
      · exact (shiftStep_state .q .waitILow s).imp_right fun ⟨moved, emitted⟩ => by
          simp [stepShiftQ, moved, state, active, emitted, StreamState.successor]

/-! ### A bus fault (R28, R224, R232) -/

/-- After a bus fault an SRI operation is refused at issue, whatever its operands. -/
theorem exec_sri_of_fault {i : Instr} {s : State} (hi : isSri i = true) (hf : s.sri.busFault = true) :
    exec i s = .next (refuse .sriFaulted s) := by
  have issue (c : Option RefuseCode) (body : State → State) :
      Host.Outcome.next (φ := Fault) (ρ := Refusal) (issueSri c body s) = .next (refuse .sriFaulted s) :=
    congrArg _ (issueSri_faulted c body s hf)
  cases i <;> simp only [isSri, Bool.false_eq_true] at hi <;> exact issue _ _

theorem exec_keeps_faulted_sri {i : Instr} {s t : State} (hf : s.sri.busFault = true)
    (he : exec i s = .next t) : t.sri = s.sri ∧ t.hist.pins = s.hist.pins := by
  cases hi : isSri i
  case false =>
    obtain ⟨sri, -, -, -, -, pins, -⟩ := exec_outside_sri hi he
    exact ⟨sri, pins⟩
  case true =>
    obtain rfl := Host.Outcome.next.inj ((exec_sri_of_fault hi hf).symm.trans he)
    exact ⟨rfl, rfl⟩

theorem notReset_of_ne {m : Move} (h : m ≠ .reset) : m.notReset = true := by
  cases m with
  | reset => exact absurd rfl h
  | _ => rfl

/-- Settles O56: instructions leave a faulted SRI and the pins alone, and so does every move but the reset event. -/
theorem busFaultStaysUntilReset : Obligations.BusFaultStaysUntilReset := by
  intro s t hf hstep
  refine ⟨fun noReset => ?_, fun isReset => ?_⟩
  · obtain ⟨u, -, sri, -, -, hist, -, -, -, -, what⟩ := step_cases hstep
    rw [← sri, ← hist]
    obtain rfl | ⟨i, he, -⟩ | ⟨m, -, head, rfl⟩ := what
    · exact ⟨rfl, rfl⟩
    · exact exec_keeps_faulted_sri (by rw [sri]; exact hf) he
    · have other : m ≠ .reset := fun e => noReset (e ▸ head)
      obtain ⟨-, sri', -, -, pins, -⟩ := runMove_frame u m (notReset_of_ne other)
      exact ⟨sri', pins⟩
  · obtain ⟨ts, hturns⟩ := List.head?_eq_some_iff.mp isReset
    obtain rfl := Host.Outcome.next.inj ((step_of_turn hturns).symm.trans hstep)
    have atReset := resetEvent_bus { s with sched.turns := ts }
    exact ⟨atReset.busFault, atReset.busFaultCause⟩

/-! ### The data line (R30) -/

theorem sampleAct_of_some {s : State} {l : Bool} (h : lineLevel s.sri s.env = some l) :
    (sampleAct s).1 = l ∧ (sampleAct s).2.env.keep = l := by
  simp [resolveLine_of_some s.sri s.env h]

/-- Where the level is a draw, a sample draws twice (U2, log 9). -/
theorem sampleAct_of_none {s : State} (h : lineLevel s.sri s.env = none) :
    (sampleAct s).1 = Config.freeBit s.env.draws ∧
    (sampleAct s).2.env.keep = Config.freeBit (s.env.draws + 1) ∧
    (sampleAct s).2.env.draws = s.env.draws + 2 := by
  have again : lineLevel s.sri { s.env with draws := s.env.draws + 1 } = none := h
  rw [sampleAct_level, sampleAct_env, resolveLine_of_none h, retainLine_of_none again]
  exact ⟨rfl, rfl, rfl⟩

/-- Settles O29: the rows of R30's table, then what each kind of event makes of them. -/
theorem levelOfTheDataLine : Obligations.LevelOfTheDataLine := by
  intro r v s e x l
  refine ⟨?_, ?_, ?_, ?_, ?_, ?_, ?_, ?pin, ?pinDrawn, ?sample, ?sampleDrawn, ?ext⟩
  case pin => intro h; rw [pinAct_env, retainLine_of_some h]
  case pinDrawn => intro h; rw [pinAct_env, retainLine_of_none h]; exact ⟨rfl, rfl⟩
  case sample =>
    intro h
    obtain ⟨level, keep⟩ := sampleAct_of_some h
    exact ⟨level, keep, sampleAct_sri s⟩
  case sampleDrawn =>
    intro h
    obtain ⟨level, keep, draws⟩ := sampleAct_of_none h
    exact ⟨level, keep, draws, sampleAct_sri s⟩
  case ext => intro h; rw [runMove, retainLine_of_some h]
  all_goals
    intros
    simp [lineLevel, *]

/-! ### The status registers (R41 to R43) -/

theorem dir_bit (d : Dir) : d.bit = decide (d = .output) := by cases d <;> rfl

theorem pull_bit (p : Pull) : p.bit = decide (p = .up) := by cases p <;> rfl

theorem iqsStatus_flags (q : Iqs) :
    (iqsStatus q).getLsbD 0 = q.active ∧ (iqsStatus q).getLsbD 1 = q.underrun ∧
    (iqsStatus q).getLsbD 2 = q.starved ∧ (iqsStatus q).getLsbD 3 = q.fifoEmpty ∧
    (iqsStatus q).getLsbD 4 = q.fifoFull := by
  refine ⟨?_, ?_, ?_, ?_, ?_⟩ <;> rw [iqsStatus]
  all_goals
    repeat rw [BitVec.getLsbD_append]
    simp

/-- The fields below a field are skipped one by one; it is then the lowest of those left. -/
theorem iqsStatus_fields (q : Iqs) :
    (iqsStatus q).extractLsb' 5 4 = BitVec.ofNat 4 q.level ∧ (iqsStatus q).extractLsb' 9 2 = q.state.code ∧
    (iqsStatus q).extractLsb' 11 4 = BitVec.ofNat 4 q.osrCnt ∧ (iqsStatus q).extractLsb' 15 4 = q.d ∧
    (iqsStatus q).extractLsb' 19 13 = 0 := by
  refine ⟨?_, ?_, ?_, ?_, ?reserved⟩ <;> rw [iqsStatus]
  all_goals repeat rw [BitVec.extractLsb'_append_eq_of_le (by omega)]
  case reserved => exact BitVec.extractLsb'_eq_self
  all_goals exact BitVec.extractLsb'_append_eq_right

theorem sriStatus_flags (r : Sri) :
    (sriStatus r).getLsbD 0 = r.sclk ∧ (sriStatus r).getLsbD 1 = decide (r.sdioDir = .output) ∧
    (sriStatus r).getLsbD 2 = r.sdioOut ∧ (sriStatus r).getLsbD 3 = decide (r.sdioPull = .up) ∧
    (sriStatus r).getLsbD 4 = r.busFault := by
  rw [← dir_bit, ← pull_bit]
  refine ⟨?_, ?_, ?_, ?_, ?_⟩ <;> rw [sriStatus]
  all_goals
    repeat rw [BitVec.getLsbD_append]
    simp

theorem sriStatus_fields (r : Sri) :
    (sriStatus r).extractLsb' 5 2 = r.busFaultCause ∧ (sriStatus r).extractLsb' 7 8 = r.sr ∧
    (sriStatus r).extractLsb' 15 17 = 0 := by
  refine ⟨?_, ?_, ?reserved⟩ <;> rw [sriStatus]
  all_goals repeat rw [BitVec.extractLsb'_append_eq_of_le (by omega)]
  case reserved => exact BitVec.extractLsb'_eq_self
  all_goals exact BitVec.extractLsb'_append_eq_right

theorem execReadStatus_refused {n : Int} (s : State) (h : statusOk n = false) :
    execReadStatus n s = .next (refuse .operandRange s) := by
  rw [execReadStatus, if_pos h]

theorem execReadStatus_returns {n : Int} (s : State) (h : statusOk n = true) :
    execReadStatus n s = .next (returnOk (.word (statusRegister n s.iqs s.sri)) s) := by
  rw [execReadStatus, if_neg (by simp [h])]

theorem statusOk_eq_false {n : Int} (h : n < 0 ∨ 2 < n) : statusOk n = false := by
  simp only [statusOk, inRange, Bool.and_eq_false_iff, decide_eq_false_iff_not]
  omega

/-- LEVEL and OSR_CNT fit their four bits. -/
theorem toNat_ofNat_four {n : Nat} (h : n ≤ 8) : (BitVec.ofNat 4 n).toNat = n := by
  rw [BitVec.toNat_ofNat, Nat.mod_eq_of_lt (by omega)]

/-- Settles O20: the fields of the two laid-out registers, and the one way each number is answered. -/
theorem statusRegisterLayout : Obligations.StatusRegisterLayout := by
  intro s hlevel hosr
  refine ⟨⟨iqsStatus s.iqs, execReadStatus_returns s rfl, ?iqs⟩, execReadStatus_returns s rfl,
    ⟨sriStatus s.sri, execReadStatus_returns s rfl, ?sri⟩,
    fun n hn => execReadStatus_refused s (statusOk_eq_false hn), by decide, rfl, .inl (by decide)⟩
  case iqs =>
    obtain ⟨active, underrun, starved, empty, full⟩ := iqsStatus_flags s.iqs
    obtain ⟨level, state, osrCnt, d, reserved⟩ := iqsStatus_fields s.iqs
    refine ⟨active, underrun, starved, empty, full, ?_, ?_, ?_, d, reserved⟩
    · rw [level, toNat_ofNat_four hlevel]
    · rw [state]; cases s.iqs.state <;> rfl
    · rw [osrCnt, toNat_ofNat_four hosr]
  case sri =>
    obtain ⟨clock, dir, out, pull, fault⟩ := sriStatus_flags s.sri
    exact ⟨clock, dir, out, pull, fault, sriStatus_fields s.sri⟩

end Sys2Proof.Machine
end

section
/-! What the SRI and the streamer can see of each other, what an SRI operation leaves of the rest of the state, and that
nothing writes the configuration: the statements of the family `20_memory.md` (R72, R83). -/

namespace Sys2Proof.Machine

/-! ### The configuration (R72) -/

theorem runMove_cfg (s : State) (m : Move) : (runMove s m).cfg = s.cfg := by
  cases m with
  | consumer => exact (consumerStep_frame s).1
  | _ => rfl

theorem cfg_side (c : Config) : StreamerSide (fun _ => true) fun s => s.cfg = c where
  congr _ _ cfg _ _ _ _ h := cfg.trans h
  move s m _ h := (runMove_cfg s m).trans h

theorem exec_cfg {i : Instr} {s t : State} (he : exec i s = .next t) : t.cfg = s.cfg := by
  cases hi : isSri i
  case false =>
    obtain ⟨-, cfg, -⟩ := exec_outside_sri hi he
    exact cfg
  case true => exact (cfg_side s.cfg).exec hi (by simp [gapsAll]) rfl he

/-- Settles O57: a step is nothing, one instruction or one move (`step_cases`), and none of them writes the
configuration. -/
theorem configurationNeverChanges : Obligations.ConfigurationNeverChanges := by
  intro s t hstep
  obtain ⟨u, cfg, -, -, -, -, -, -, -, -, what⟩ := step_cases hstep
  rw [← cfg]
  obtain rfl | ⟨i, he, -⟩ | ⟨m, -, -, rfl⟩ := what
  · rfl
  · exact exec_cfg he
  · exact runMove_cfg u m

/-! ### What an SRI operation is made of (R120 to R133) -/

/-- What an SRI operation does once it is issued: the probe, a byte out, a byte in, a frame out, or a command byte out
and bytes in; then its return. -/
inductive SriBody : Instr → (State → State) → Prop
  | probe : SriBody .isBusIdle fun s => finishSri (.bool (decide ((probe s).1 = 0))) (probe s).2
  | byteOut (i : Instr) (b : Byte) (notFrame : ∀ addr payload, i ≠ .writeReg addr payload) :
      SriBody i fun s => finishSri .unit (serialWriteByte b 0 s)
  | byteIn : SriBody .serialRead fun s => finishSri (.byte (serialReadByte s).sri.sr) (serialReadByte s)
  | frame (addr : Int) (payload : List Int) (bytes : List Byte) :
      SriBody (.writeReg addr payload) fun s =>
        finishSri .unit (recordMemWrite (toAddr addr) (payload.map toByte) (sendFrame bytes 0 s))
  | read (addr width : Int) (cmd : Byte) (n : Nat) :
      SriBody (.readReg addr width) fun s =>
        finishSri (.bytes (receiveBytes n (serialWriteByte cmd 0 s)).1)
          (receiveBytes n (serialWriteByte cmd 0 s)).2

/-- Every SRI operation is issued the one way, after a check of its operands against the configuration (R224, R230). -/
theorem exec_sri_form {i : Instr} (hi : isSri i = true) :
    ∃ (check : Config → Option RefuseCode) (body : State → State), SriBody i body ∧
      ∀ s, exec i s = .next (issueSri (check s.cfg) body s) := by
  cases i <;> simp only [isSri, Bool.false_eq_true] at hi
  case isBusIdle => exact ⟨fun _ => none, _, .probe, fun _ => rfl⟩
  case serialWrite b =>
    exact ⟨fun _ => if byteOk b then none else some .operandRange, _, .byteOut _ (toByte b) (by simp), fun _ => rfl⟩
  case serialRead => exact ⟨fun _ => none, _, .byteIn, fun _ => rfl⟩
  case writeReg addr payload =>
    exact ⟨(checkWriteReg · addr payload), _, .frame addr payload (writeCmd (toAddr addr) :: payload.map toByte),
      fun _ => rfl⟩
  case readReg addr width =>
    exact ⟨(checkReadReg · addr width), _, .read addr width (readCmd (toAddr addr)) width.toNat, fun _ => rfl⟩
  case cmdWrite addr => exact ⟨fun _ => none, _, .byteOut _ (writeCmd addr) (by simp), fun _ => rfl⟩
  case cmdRead addr => exact ⟨fun _ => none, _, .byteOut _ (readCmd addr) (by simp), fun _ => rfl⟩

/-! ### The frame of the SRI operations -/

/-- From `s` to `t` the configuration, HOST's program, a held word, the turns and the record of pushed words are as
before, and `m` was written to the target. -/
structure Framed (s t : State) (m : List MemWrite) : Prop where
  cfg       : t.cfg = s.cfg
  program   : t.host.program = s.host.program
  held      : t.host.held = s.host.held
  turns     : t.sched.turns = s.sched.turns
  pushed    : t.hist.pushed = s.hist.pushed
  memWrites : t.hist.memWrites = s.hist.memWrites ++ m

theorem Framed.trans {s t u : State} {a b : List MemWrite} (h : Framed s t a) (g : Framed t u b) :
    Framed s u (a ++ b) :=
  ⟨g.cfg.trans h.cfg, g.program.trans h.program, g.held.trans h.held, g.turns.trans h.turns,
    g.pushed.trans h.pushed, by rw [g.memWrites, h.memWrites, List.append_assoc]⟩

theorem Framed.refl (s : State) : Framed s s [] := ⟨rfl, rfl, rfl, rfl, rfl, by simp⟩

theorem Went.framed {s t : State} {tr : List PinRecord} (h : Went s t tr) : Framed s t [] :=
  ⟨h.cfg, by rw [h.host], by rw [h.host], h.turns, h.pushed, by simp [h.memWrites]⟩

theorem takeBusNotIdle_framed (c : BitVec 2) (n : Nat) (s : State) : Framed s (takeBusNotIdle c n s) [] :=
  ⟨rfl, rfl, rfl, rfl, rfl, by simp⟩

theorem probe_framed {s : State} (h : Live s) : Framed s (probe s).2 [] := by
  obtain ⟨tr, ⟨-, -, -, d⟩ | ⟨-, -, -, d⟩ | ⟨-, -, -, d⟩⟩ := probe_did h <;> exact d.went.framed

/-- After a byte of a frame the operation goes on, or BusNotIdle has ended it. -/
theorem serialWriteByte_framed {s : State} (h : Live s) (b : Byte) (done : Nat) :
    Framed s (serialWriteByte b done s) [] ∧
    (Live (serialWriteByte b done s) ∨ (serialWriteByte b done s).host.busy = false) := by
  obtain ⟨tr, -, d⟩ | ⟨t, tr, cause, f, -, d, -, e⟩ := serialWriteByte_did h b done
  · exact ⟨d.went.framed, .inl d.live⟩
  · rw [e]
    exact ⟨d.went.framed.trans (takeBusNotIdle_framed cause done t), .inr rfl⟩

theorem serialReadByte_framed {s : State} (h : Live s) : Framed s (serialReadByte s) [] := by
  obtain ⟨tr, v, -, -, d⟩ := serialReadByte_did h
  exact d.went.framed

theorem sendFrame_framed (bs : List Byte) (done : Nat) {s : State} (h : Live s) :
    Framed s (sendFrame bs done s) [] := by
  obtain ⟨tr, -, d⟩ | ⟨t, tr, cause, k, f, -, -, -, d, -, e⟩ := sendFrame_did bs done h
  · exact d.went.framed
  · rw [e]
    exact d.went.framed.trans (takeBusNotIdle_framed cause (done + k) t)

theorem receiveBytes_framed (n : Nat) {s : State} (h : Live s ∨ s.host.busy = false) :
    Framed s (receiveBytes n s).2 [] := by
  obtain live | idle := h
  · obtain ⟨tr, -, -, -, d⟩ := receiveBytes_did n live
    exact d.went.framed
  · rw [receiveBytes_of_idle n idle]
    exact .refl s

theorem finishSri_framed (v : Value) (s : State) : Framed s (finishSri v s) [] := by
  unfold finishSri whileBusy
  split
  · exact ⟨rfl, rfl, rfl, rfl, rfl, by simp⟩
  · exact .refl s

theorem recordMemWrite_framed (addr : RegAddr) (payload : List Byte) (s : State) :
    ∃ m, Framed s (recordMemWrite addr payload s) m := by
  unfold recordMemWrite whileBusy
  split
  · exact ⟨[⟨addr, payload⟩], rfl, rfl, rfl, rfl, rfl, rfl⟩
  · exact ⟨[], .refl s⟩

theorem SriBody.framed {i : Instr} {body : State → State} (hb : SriBody i body) {s : State} (h : Live s) :
    ∃ m, Framed s (body s) m ∧ ((∀ addr payload, i ≠ .writeReg addr payload) → m = []) := by
  cases hb with
  | probe => exact ⟨[], (probe_framed h).trans (finishSri_framed _ _), fun _ => rfl⟩
  | byteOut _ b _ => exact ⟨[], (serialWriteByte_framed h b 0).1.trans (finishSri_framed _ _), fun _ => rfl⟩
  | byteIn => exact ⟨[], (serialReadByte_framed h).trans (finishSri_framed _ _), fun _ => rfl⟩
  | frame addr payload bytes =>
    obtain ⟨m, written⟩ := recordMemWrite_framed (toAddr addr) (payload.map toByte) (sendFrame bytes 0 s)
    exact ⟨_, ((sendFrame_framed bytes 0 h).trans written).trans (finishSri_framed _ _),
      fun notFrame => absurd rfl (notFrame addr payload)⟩
  | read _ _ cmd n =>
    obtain ⟨sent, goesOn⟩ := serialWriteByte_framed h cmd 0
    exact ⟨[], (sent.trans (receiveBytes_framed n goesOn)).trans (finishSri_framed _ _), fun _ => rfl⟩

theorem issueSri_cases (c : Option RefuseCode) (f : State → State) (s : State) :
    (∃ r, issueSri c f s = refuse r s) ∨ issueSri c f s = f { s with host.busy := true } := by
  unfold issueSri
  split
  · exact .inl ⟨_, rfl⟩
  · split
    · exact .inl ⟨_, rfl⟩
    · exact .inr rfl

theorem exec_sri_framed {i : Instr} {s t : State} (hi : isSri i = true)
    (hg : gapsAll Move.notReset s.sched.gaps = true) (he : exec i s = .next t) :
    ∃ m, Framed s t m ∧ ((∀ addr payload, i ≠ .writeReg addr payload) → m = []) := by
  obtain ⟨check, body, hbody, hexec⟩ := exec_sri_form hi
  obtain rfl := Host.Outcome.next.inj ((hexec s).symm.trans he)
  obtain ⟨r, e⟩ | e := issueSri_cases (check s.cfg) body s <;> rw [e]
  · exact ⟨[], ⟨rfl, rfl, rfl, rfl, rfl, by simp⟩, fun _ => rfl⟩
  · obtain ⟨m, done, noWrite⟩ := hbody.framed (Live.issue hg)
    exact ⟨m, ⟨done.cfg, done.program, done.held, done.turns, done.pushed, done.memWrites⟩, noWrite⟩

/-- Settles O43: pin events, bytes and the return of the operation write the SRI, the line, the results and the pins
alone; only WRITE_REG records a MemWrite. -/
theorem sriOperationsLeaveTheRest : Obligations.SriOperationsLeaveTheRest := by
  intro i s t hi hg he
  obtain ⟨m, framed, noWrite⟩ := exec_sri_framed hi hg he
  exact ⟨framed.cfg, framed.program, framed.held, framed.turns, framed.pushed,
    fun notFrame => by rw [framed.memWrites, noWrite notFrame, List.append_nil]⟩

/-! ### Two states that differ in the streamer alone (R83) -/

section

variable {s s' : State}

theorem SameBut.symm (h : SameBut s s') : SameBut s' s :=
  ⟨h.cfg.symm, h.sri.symm, h.env.symm, h.host.symm, h.sched.symm, h.pins.symm, h.memWrites.symm⟩

theorem SameBut.trans {s'' : State} (h : SameBut s s') (g : SameBut s' s'') : SameBut s s'' :=
  ⟨h.cfg.trans g.cfg, h.sri.trans g.sri, h.env.trans g.env, h.host.trans g.host, h.sched.trans g.sched,
    h.pins.trans g.pins, h.memWrites.trans g.memWrites⟩

theorem SameBut.busy (h : SameBut s s') : s.host.busy = s'.host.busy := congrArg HostSide.busy h.host

/-- A part of an operation that is not a pin event writes only the SRI, from the SRI. -/
theorem SameBut.update (h : SameBut s s') (f : Sri → Sri) :
    SameBut { s with sri := f s.sri } { s' with sri := f s'.sri } :=
  { h with sri := congrArg f h.sri }

theorem SameBut.whileBusy {f : State → State} (h : SameBut s s') (hf : SameBut (f s) (f s')) :
    SameBut (whileBusy f s) (whileBusy f s') := by
  unfold Machine.whileBusy
  rw [h.busy]
  split
  · exact hf
  · exact h

theorem SameBut.foldl {ι : Type} {f : State → ι → State}
    (hf : ∀ (i : ι) {u u' : State}, SameBut u u' → SameBut (f u i) (f u' i)) (is : List ι) {s s' : State}
    (h : SameBut s s') : SameBut (is.foldl f s) (is.foldl f s') := by
  induction is generalizing s s' with
  | nil => exact h
  | cons i is ih => exact ih (hf i h)

/-! #### The moves between two events -/

/-- CONSUMER's turn is in the streamer alone. -/
theorem consumerStep_sameBut (s : State) : SameBut (consumerStep s) s := by
  obtain ⟨cfg, sri, env, host, sched, pins, memWrites, -⟩ := consumerStep_frame s
  exact ⟨cfg, sri, env, host, sched, pins, memWrites⟩

theorem SameBut.runMove (h : SameBut s s') (m : Move) : SameBut (runMove s m) (runMove s' m) := by
  cases m with
  | consumer => exact ((consumerStep_sameBut s).trans h).trans (consumerStep_sameBut s').symm
  | ext e => exact { h with env := by simp only [Machine.runMove, h.sri, h.env] }
  | pclk v => exact { h with env := by simp only [Machine.runMove, h.env] }
  | reset =>
    exact { h with
      sri := by simp only [Machine.runMove, resetEvent, h.env]
      env := by simp only [Machine.runMove, resetEvent, h.env]
      host := by simp only [Machine.runMove, resetEvent, h.host] }

theorem SameBut.runGap (h : SameBut s s') : SameBut (runGap s) (runGap s') := by
  cases hg : s.sched.gaps with
  | nil =>
    rw [runGap_of_no_gaps hg, runGap_of_no_gaps (h.sched ▸ hg)]
    exact h
  | cons g gs =>
    rw [runGap_of_gap hg, runGap_of_gap (h.sched ▸ hg)]
    exact SameBut.foldl (fun m _ _ k => k.runMove m) g { h with sched := by rw [h.sched] }

/-! #### Pin events and samples -/

theorem SameBut.pinAct (h : SameBut s s') (e : PinEvent) : SameBut (pinAct e s) (pinAct e s') :=
  { h with
    sri := congrArg (applyPin e) h.sri
    env := by rw [pinAct_env, pinAct_env, h.sri, h.env]
    pins := by rw [pinAct_pins, pinAct_pins, h.sri, h.env, h.pins] }

theorem SameBut.pinEvent (h : SameBut s s') (e : PinEvent) : SameBut (pinEvent e s) (pinEvent e s') :=
  h.whileBusy (h.runGap.whileBusy (h.runGap.pinAct e))

theorem SameBut.sampleAct (h : SameBut s s') :
    (sampleAct s).1 = (sampleAct s').1 ∧ SameBut (sampleAct s).2 (sampleAct s').2 := by
  refine ⟨by rw [sampleAct_level, sampleAct_level, h.sri, h.env], { h with env := ?_, pins := ?_ }⟩
  · rw [sampleAct_env, sampleAct_env, h.sri, h.env]
  · rw [sampleAct_pins, sampleAct_pins, h.sri, h.env, h.pins]

theorem SameBut.sampleLine (h : SameBut s s') :
    (sampleLine s).1 = (sampleLine s').1 ∧ SameBut (sampleLine s).2 (sampleLine s').2 := by
  unfold Machine.sampleLine
  dsimp only
  rw [h.busy, h.runGap.busy]
  split
  · split
    · exact h.runGap.sampleAct
    · exact ⟨rfl, h.runGap⟩
  · exact ⟨rfl, h⟩

/-! #### Bytes out -/

theorem SameBut.probe (h : SameBut s s') :
    (probe s).1 = (probe s').1 ∧ SameBut (probe s).2 (probe s').2 := by
  obtain ⟨level, low⟩ := (h.pinEvent (.cfgIn .up)).sampleLine
  obtain ⟨level', high⟩ := ((low.pinEvent (.cfgOut false)).pinEvent (.cfgIn .down)).sampleLine
  unfold Machine.probe
  dsimp only
  rw [level, level']
  split
  · exact ⟨rfl, low⟩
  · split <;> exact ⟨rfl, high⟩

theorem SameBut.countBit (h : SameBut s s') : SameBut (countBit s) (countBit s') :=
  h.whileBusy (h.update fun r => { r with bitcnt := r.bitcnt + 1 })

theorem SameBut.endByte (h : SameBut s s') : SameBut (endByte s) (endByte s') :=
  h.whileBusy (h.update fun r => { r with bitcnt := 0 })

theorem SameBut.sendBit (h : SameBut s s') (e : PinEvent) : SameBut (sendBit e s) (sendBit e s') :=
  (((h.pinEvent e).pinEvent (.sclk true)).pinEvent (.sclk false)).countBit

theorem SameBut.sendByte (h : SameBut s s') (b : Byte) : SameBut (sendByte b s) (sendByte b s') :=
  (SameBut.foldl (fun i _ _ k => k.sendBit (presentBit b i)) bitOrder h).endByte

theorem SameBut.takeBusNotIdle (h : SameBut s s') (cause : BitVec 2) (done : Nat) :
    SameBut (takeBusNotIdle cause done s) (takeBusNotIdle cause done s') :=
  { h with
    sri := by rw [takeBusNotIdle_sri, takeBusNotIdle_sri, h.sri]
    host := by rw [takeBusNotIdle_host, takeBusNotIdle_host, h.host] }

theorem SameBut.serialWriteByte (h : SameBut s s') (b : Byte) (done : Nat) :
    SameBut (serialWriteByte b done s) (serialWriteByte b done s') := by
  obtain ⟨cause, probed⟩ := h.probe
  unfold Machine.serialWriteByte
  dsimp only
  rw [cause]
  split
  · exact probed.sendByte b
  · exact probed.whileBusy (probed.takeBusNotIdle _ done)

theorem SameBut.sendFrame (bs : List Byte) (done : Nat) {s s' : State} (h : SameBut s s') :
    SameBut (sendFrame bs done s) (sendFrame bs done s') := by
  induction bs generalizing done s s' with
  | nil => exact h
  | cons b bs ih => exact ih (done + 1) (h.serialWriteByte b done)

/-! #### Bytes in -/

theorem SameBut.clearSr (h : SameBut s s') : SameBut (clearSr s) (clearSr s') :=
  h.whileBusy (h.update fun r => { r with sr := 0 })

theorem SameBut.shiftIn (h : SameBut s s') (b : Bool) : SameBut (shiftIn b s) (shiftIn b s') :=
  h.whileBusy (h.update fun r => { r with sr := accumulate r.sr b })

theorem SameBut.receiveBit (h : SameBut s s') : SameBut (receiveBit s) (receiveBit s') := by
  obtain ⟨level, sampled⟩ := (h.pinEvent (.sclk true)).sampleLine
  unfold Machine.receiveBit
  dsimp only
  rw [level]
  exact ((sampled.shiftIn _).pinEvent (.sclk false)).countBit

theorem SameBut.serialReadByte (h : SameBut s s') : SameBut (serialReadByte s) (serialReadByte s') :=
  (SameBut.foldl (fun _ _ _ k => k.receiveBit) bitOrder (h.pinEvent .cfgInKeep).clearSr).endByte

theorem SameBut.receiveBytes (n : Nat) {s s' : State} (h : SameBut s s') :
    (receiveBytes n s).1 = (receiveBytes n s').1 ∧ SameBut (receiveBytes n s).2 (receiveBytes n s').2 := by
  induction n generalizing s s' with
  | zero => exact ⟨rfl, h⟩
  | succ n ih =>
    obtain ⟨bytes, after⟩ := ih h.serialReadByte
    simp only [Machine.receiveBytes]
    exact ⟨by rw [bytes, h.serialReadByte.sri], after⟩

/-! #### Issue and return -/

theorem SameBut.recordMemWrite (h : SameBut s s') (addr : RegAddr) (payload : List Byte) :
    SameBut (recordMemWrite addr payload s) (recordMemWrite addr payload s') :=
  h.whileBusy { h with memWrites := congrArg (· ++ [⟨addr, payload⟩]) h.memWrites }

theorem SameBut.finishSri (h : SameBut s s') {v v' : Value} (hv : v = v') :
    SameBut (finishSri v s) (finishSri v' s') := by
  subst hv
  exact h.whileBusy { h with host := by rw [h.host] }

theorem SameBut.refuse (h : SameBut s s') (c : RefuseCode) : SameBut (refuse c s) (refuse c s') :=
  { h with host := by simp only [Machine.refuse, h.host] }

/-- What an SRI operation returns is read from the line and from `SR`, the same in both. -/
theorem SriBody.sameBut {i : Instr} {body : State → State} (hb : SriBody i body) (h : SameBut s s') :
    SameBut (body s) (body s') := by
  cases hb with
  | probe =>
    obtain ⟨cause, probed⟩ := h.probe
    exact probed.finishSri (by rw [cause])
  | byteOut _ b _ => exact (h.serialWriteByte b 0).finishSri rfl
  | byteIn => exact h.serialReadByte.finishSri (by rw [h.serialReadByte.sri])
  | frame addr payload bytes => exact ((h.sendFrame bytes 0).recordMemWrite _ _).finishSri rfl
  | read _ _ cmd n =>
    obtain ⟨bytes, received⟩ := (h.serialWriteByte cmd 0).receiveBytes n
    exact received.finishSri (by rw [bytes])

theorem SameBut.issueSri (h : SameBut s s') (c : Option RefuseCode) {body : State → State}
    (hbody : ∀ {u u' : State}, SameBut u u' → SameBut (body u) (body u')) :
    SameBut (issueSri c body s) (issueSri c body s') := by
  have faulted : s.sri.busFault = s'.sri.busFault := by rw [h.sri]
  unfold Machine.issueSri
  rw [faulted]
  split
  · exact h.refuse _
  · split
    · exact h.refuse _
    · exact hbody { h with host := by rw [h.host] }

theorem SameBut.exec_sri {i : Instr} {t t' : State} (h : SameBut s s') (hi : isSri i = true)
    (he : exec i s = .next t) (he' : exec i s' = .next t') : SameBut t t' := by
  obtain ⟨check, body, hbody, hexec⟩ := exec_sri_form hi
  obtain rfl := Host.Outcome.next.inj ((hexec s).symm.trans he)
  obtain rfl := Host.Outcome.next.inj ((hexec s').symm.trans he')
  rw [h.cfg]
  exact h.issueSri _ hbody.sameBut

end

/-! ### An SRI operation leaves the streamer alone (R83) -/

/-- TARGET's and PCLK_SOURCE's moves leave the streamer and its record alone, so every SRI operation does that has no
others in its gaps. -/
theorem streamer_side (s : State) : StreamerSide Move.environment fun t =>
    t.iqs = s.iqs ∧ t.hist.pushed = s.hist.pushed ∧ t.hist.emitted = s.hist.emitted ∧
    t.hist.dWrites = s.hist.dWrites where
  congr _ _ _ iqs pushed emitted dWrites h := by rwa [iqs, pushed, emitted, dWrites]
  move t m hm h := by
    cases m with
    | ext _ => exact h
    | pclk _ => exact h
    | consumer => simp [Move.environment] at hm
    | reset => simp [Move.environment] at hm

/-! ### The other operations do not look at the SRI (R83) -/

/-- The state with another SRI. -/
def State.withSri (r : Sri) (s : State) : State := { s with sri := r }

theorem waitStep_withSri (b : Bool) (n : StreamState) (r : Sri) (s : State) :
    waitStep b n (s.withSri r) = (waitStep b n s).withSri r := by
  unfold waitStep State.withSri
  dsimp only
  split <;> rfl

theorem shiftStep_withSri (l : Lane) (n : StreamState) (r : Sri) (s : State) :
    shiftStep l n (s.withSri r) = (shiftStep l n s).withSri r := by
  unfold shiftStep State.withSri
  dsimp only
  split <;> rfl

theorem exec_consumer_withSri {i : Instr} (hi : IsConsumerStep i) (r : Sri) {s t : State}
    (he : exec i s = .next t) : exec i (s.withSri r) = .next (t.withSri r) := by
  obtain ⟨st, step, form, hexec⟩ := exec_consumer_form hi
  obtain rfl := Host.Outcome.next.inj ((hexec s).symm.trans he)
  have stepped : step (s.withSri r) = (step s).withSri r := by
    obtain ⟨b, n, rfl⟩ | ⟨l, n, rfl⟩ := form
    · exact waitStep_withSri b n r s
    · exact shiftStep_withSri l n r s
  rw [hexec]
  obtain ⟨e, e'⟩ | ⟨e, e'⟩ := whenSelected_pair st step (s := s) (s' := s.withSri r) rfl rfl <;> rw [e, e']
  rw [stepped]

theorem execPush_refused {w : Int} (s : State) (hw : wordOk w = false) :
    execPush w s = .next (refuse .operandRange s) := by
  rw [execPush, if_pos hw]

theorem execPush_stored {w : Int} {s : State} (hw : wordOk w = true) (room : s.iqs.level < fifoDepth) :
    execPush w s = .next (returnOk .unit (enqueue (toWord w) { s with host.held := none })) := by
  rw [execPush, if_neg (by simp [hw]), if_pos room]

theorem execPush_held {w : Int} {s : State} (hw : wordOk w = true) (full : ¬ s.iqs.level < fifoDepth) :
    execPush w s = .next { s with host.held := some (toWord w) } := by
  rw [execPush, if_neg (by simp [hw]), if_neg full]

/-- PUSH looks at the level of the queue alone. -/
theorem execPush_withSri (w : Int) (r : Sri) {s t : State} (he : execPush w s = .next t) :
    execPush w (s.withSri r) = .next (t.withSri r) := by
  cases hw : wordOk w
  case false =>
    rw [execPush_refused s hw, Host.Outcome.next.injEq] at he
    rw [execPush_refused _ hw, ← he]
    rfl
  case true =>
    by_cases room : s.iqs.level < fifoDepth
    · rw [execPush_stored hw room, Host.Outcome.next.injEq] at he
      rw [execPush_stored hw (s := s.withSri r) room, ← he]
      rfl
    · rw [execPush_held hw room, Host.Outcome.next.injEq] at he
      rw [execPush_held hw (s := s.withSri r) room, ← he]
      rfl

theorem exec_withSri {i : Instr} (hi : isSri i = false) (hstatus : ∀ n, i ≠ .readStatus n) (r : Sri) {s t : State}
    (he : exec i s = .next t) : exec i (s.withSri r) = .next (t.withSri r) := by
  cases i <;> simp only [isSri, Bool.true_eq_false] at hi
  case readStatus n => exact absurd rfl (hstatus n)
  case push w => exact execPush_withSri w r he
  case cWaitILow | cShiftI | cWaitQHigh | cShiftQ => exact exec_consumer_withSri (by simp [IsConsumerStep]) r he
  case activate | deactivate | clearUnderrun | resetStreamer | qclip =>
    obtain rfl := Host.Outcome.next.inj he
    rfl
  case toFtw | ftwBytes | pack | assembleWord =>
    simp only [exec, execToFtw, execFtwBytes, execPack, execAssembleWord, Host.Outcome.next.injEq] at he ⊢
    subst he
    split <;> rfl

/-- Settles O42: an SRI operation reads nothing of the streamer (`SameBut.exec_sri`) and writes nothing of it
(`streamer_side`); the other operations neither write the SRI nor, READ_STATUS apart, read it. -/
theorem sriAndStreamerAreIndependent : Obligations.SriAndStreamerAreIndependent := by
  refine ⟨fun i s s' t t' hi same he he' => same.exec_sri hi he he',
    fun i s t hi hg he => (streamer_side s).exec hi hg ⟨rfl, rfl, rfl, rfl⟩ he, fun i s t r hi hstatus he => ?_⟩
  obtain ⟨sri, -⟩ := exec_outside_sri hi he
  exact ⟨sri, exec_withSri hi hstatus r he⟩

end Sys2Proof.Machine
end

section
/-! The decoder and the encoder are inverse to each other: what each operand form decodes from, the command byte of R91 and
the fractions of TO_FTW; then the statements about encodings of the family `30_encoding.md` (R91, R100, R101). -/

namespace Sys2Proof

/-! ### What each operand form decodes from -/

theorem decodeNullary_eq_instr {i j : Instr} {args : List Int} (h : decodeNullary j args = .instr i) :
    args = [] ∧ j = i :=
  match args, h with
  | [], h => ⟨rfl, Decoded.instr.inj h⟩

theorem decodeUnary_eq_instr {i : Instr} {f : Int → Instr} {args : List Int} (h : decodeUnary f args = .instr i) :
    ∃ a, args = [a] ∧ f a = i :=
  match args, h with
  | [a], h => ⟨a, rfl, Decoded.instr.inj h⟩

theorem decodeBinary_eq_instr {i : Instr} {f : Int → Int → Instr} {args : List Int}
    (h : decodeBinary f args = .instr i) : ∃ a b, args = [a, b] ∧ f a b = i :=
  match args, h with
  | [a, b], h => ⟨a, b, rfl, Decoded.instr.inj h⟩

theorem decodeCounted_eq_instr {i : Instr} {f : List Int → Instr} {args : List Int}
    (h : decodeCounted f args = .instr i) : ∃ xs : List Int, args = (xs.length : Int) :: xs ∧ f xs = i := by
  match args, h with
  | n :: xs, h =>
    rw [decodeCounted] at h
    split at h
    · next hn => exact ⟨xs, by rw [hn], Decoded.instr.inj h⟩
    · cases h

theorem decodeCounted_length (f : List Int → Instr) (xs : List Int) :
    decodeCounted f ((xs.length : Int) :: xs) = .instr (f xs) := by
  rw [decodeCounted, if_pos rfl]

/-! ### Fractions -/

theorem decodeFraction_encodeFraction (q : Rat) : decodeFraction q.num ((q.den : Int) - 1) = some q := by
  have den_pos := q.den_pos
  have den : ((q.den : Int) - 1).toNat + 1 = q.den := by omega
  rw [decodeFraction, if_pos (by omega), den, Rat.mkRat_self]
  simp

theorem encodeFraction_of_decodeFraction {num den : Int} {q : Rat} (h : decodeFraction num den = some q) :
    encodeFraction q = [num, den] := by
  rw [decodeFraction] at h
  split at h
  case isFalse => cases h
  case isTrue den_nonneg =>
    dsimp only at h
    split at h
    case isFalse => cases h
    case isTrue lowest =>
      obtain rfl := Option.some.inj h
      obtain ⟨same_num, same_den⟩ := lowest
      rw [encodeFraction, same_num, same_den]
      simp [den_nonneg]

theorem decodeToFtw_eq_instr {i : Instr} {args : List Int} (h : decodeToFtw args = .instr i) :
    ∃ freq sysclk, args = encodeFraction freq ++ encodeFraction sysclk ∧ .toFtw freq sysclk = i := by
  match args, h with
  | [fn, fd, sn, sd], h =>
    rw [decodeToFtw] at h
    split at h
    · next freq sysclk hfreq hsysclk =>
      exact ⟨freq, sysclk, by simp [encodeFraction_of_decodeFraction hfreq, encodeFraction_of_decodeFraction hsysclk],
        Decoded.instr.inj h⟩
    · cases h

/-! ### The command byte (R91) -/

theorem cmdIsRead_cmdByte (read : Bool) (addr : RegAddr) : cmdIsRead (cmdByte read addr) = read := by
  have top : cmdIsRead (cmdByte read addr) = (BitVec.ofBool read).getLsbD 0 := BitVec.getLsbD_append
  rw [top]
  cases read <;> rfl

theorem cmdAddr_cmdByte (read : Bool) (addr : RegAddr) : cmdAddr (cmdByte read addr) = addr := by
  apply BitVec.eq_of_getLsbD_eq
  intro k hk
  have low : (cmdByte read addr).getLsbD k = addr.getLsbD k :=
    BitVec.getLsbD_append.trans (if_pos hk)
  simp only [cmdAddr, BitVec.getLsbD_extractLsb', hk, decide_true, Bool.true_and, Nat.zero_add, low]

/-- A command byte is its direction bit and its address, nothing else. -/
theorem cmdByte_cmdIsRead_cmdAddr (code : Byte) : cmdByte (cmdIsRead code) (cmdAddr code) = code := by
  revert code; decide

theorem cmdByte_toNat (read : Bool) (addr : RegAddr) : (cmdByte read addr).toNat = 128 * read.toNat + addr.toNat := by
  revert read addr; decide

/-- The bitwise form of R91. -/
theorem cmdByte_eq_or (read : Bool) (addr : RegAddr) :
    cmdByte read addr = ((BitVec.ofBool read).setWidth 8 <<< 7) ||| addr.setWidth 8 := by
  revert read addr; decide

theorem cmdByte_write (addr : RegAddr) : cmdByte false addr = Machine.writeCmd addr := by
  revert addr; decide

theorem cmdByte_read (addr : RegAddr) : cmdByte true addr = Machine.readCmd addr := by
  revert addr; decide

/-! ### The statements about encodings -/

/-- Settles O1: each operand form decodes from what the encoder writes for it. -/
theorem decodeOfEncodeIsTheInstruction : Obligations.DecodeOfEncodeIsTheInstruction := by
  intro i
  cases i
  case writeReg addr payload => exact decodeCounted_length (.writeReg addr) payload
  case assembleWord bytes => exact decodeCounted_length .assembleWord bytes
  case toFtw freq sysclk =>
    change decodeToFtw [freq.num, freq.den - 1, sysclk.num, sysclk.den - 1] = _
    rw [decodeToFtw, decodeFraction_encodeFraction, decodeFraction_encodeFraction]
  case cmdWrite addr | cmdRead addr =>
    simp only [encode, decode, decodeCmd8, decodeNullary, cmdIsRead_cmdByte, cmdAddr_cmdByte]
    rfl
  all_goals rfl

/-- The sixteen host operations (R100), by the form of their operands. -/
theorem encode_of_decodeHostop4 {code : Nat} {args : List Int} {i : Instr}
    (h : decodeHostop4 code args = .instr i) : encode i = hostRequest (BitVec.ofNat 8 code) args := by
  match code, h with
  | 0x0, h | 0x2, h | 0x8, h | 0x9, h | 0xB, h | 0xC, h =>
    obtain ⟨rfl, rfl⟩ := decodeNullary_eq_instr h
    rfl
  | 0x1, h | 0x6, h | 0x7, h | 0xA, h | 0xD, h =>
    obtain ⟨a, rfl, rfl⟩ := decodeUnary_eq_instr h
    rfl
  | 0x4, h | 0xE, h =>
    obtain ⟨a, b, rfl, rfl⟩ := decodeBinary_eq_instr h
    rfl
  | 0x3, h =>
    match args, h with
    | addr :: rest, h =>
      obtain ⟨payload, rfl, rfl⟩ := decodeCounted_eq_instr (f := .writeReg addr) h
      rfl
  | 0x5, h =>
    obtain ⟨freq, sysclk, rfl, rfl⟩ := decodeToFtw_eq_instr h
    rfl
  | 0xF, h =>
    obtain ⟨bytes, rfl, rfl⟩ := decodeCounted_eq_instr h
    rfl

/-- The four steps of CONSUMER (R101). -/
theorem encode_of_decodeSt2 {code : Nat} {args : List Int} {i : Instr}
    (h : decodeSt2 code args = .instr i) : encode i = ⟨.st2, BitVec.ofNat 8 code, args⟩ := by
  match code, h with
  | 0, h | 1, h | 2, h | 3, h =>
    obtain ⟨rfl, rfl⟩ := decodeNullary_eq_instr h
    rfl

theorem encode_of_decodeCmd8 {code : Byte} {args : List Int} {i : Instr}
    (h : decodeCmd8 code args = .instr i) : encode i = ⟨.cmd8, code, args⟩ := by
  obtain ⟨rfl, rfl⟩ := decodeNullary_eq_instr h
  have whole := cmdByte_cmdIsRead_cmdAddr code
  cases hr : cmdIsRead code <;> rw [hr] at whole
  · exact congrArg (Request.mk .cmd8 · []) whole
  · exact congrArg (Request.mk .cmd8 · []) whole

/-- Settles O2: in each of the three code spaces the code and the operand words are those the encoder writes. -/
theorem encodeOfDecodeIsTheRequest : Obligations.EncodeOfDecodeIsTheRequest := by
  intro r i h
  obtain ⟨format, code, args⟩ := r
  cases format
  case hostop4 =>
    rw [encode_of_decodeHostop4 h, BitVec.ofNat_toNat, BitVec.setWidth_eq]
    rfl
  case st2 => rw [encode_of_decodeSt2 h, BitVec.ofNat_toNat, BitVec.setWidth_eq]
  case cmd8 => exact encode_of_decodeCmd8 h

/-- Settles O3: the facts about `cmdByte`, which is the code of both rows of `CMD8`. -/
theorem commandByteLayout : Obligations.CommandByteLayout := by
  intro addr
  exact ⟨cmdByte_toNat false addr, cmdByte_toNat true addr, cmdByte_eq_or false addr, cmdByte_eq_or true addr,
    cmdIsRead_cmdByte false addr, cmdIsRead_cmdByte true addr, cmdAddr_cmdByte false addr, cmdAddr_cmdByte true addr,
    (cmdByte_write addr).symm, (cmdByte_read addr).symm⟩

/-- Settles O4: the decoder is run on the nine codes. -/
theorem tableCodesDecode : Obligations.TableCodesDecode := by
  unfold Obligations.TableCodesDecode
  decide

/-- Settles O51: the eight slots of the two constants, under each order. -/
theorem idleWordAlternates : Obligations.IdleWordAlternates := by
  refine ⟨rfl, rfl, fun o => ?_⟩
  cases o <;> decide

end Sys2Proof
end

section
/-! How an operation is answered: by a refusal exactly when an operand is out of range (`30_encoding.md` R103); and the
command bytes as SERIAL_WRITE (R91 to R93, log 4). -/

namespace Sys2Proof.Machine

/-! ### The parts of an SRI operation return nothing -/

section

variable (s : State)

@[simp] theorem runMove_results (m : Move) : (runMove s m).host.results = s.host.results := by
  cases m with
  | consumer =>
    obtain ⟨-, -, -, host, -⟩ := consumerStep_frame s
    exact congrArg HostSide.results host
  | _ => rfl

theorem foldl_results {ι : Type} {f : State → ι → State} (hf : ∀ s i, (f s i).host.results = s.host.results)
    (is : List ι) : (is.foldl f s).host.results = s.host.results := by
  induction is generalizing s with
  | nil => rfl
  | cons i is ih => exact (ih (f s i)).trans (hf s i)

@[simp] theorem runGap_results : (runGap s).host.results = s.host.results := by
  unfold runGap
  split
  · rfl
  · exact foldl_results _ runMove_results _

theorem whileBusy_results {f : State → State} (hf : ∀ s, (f s).host.results = s.host.results) :
    (whileBusy f s).host.results = s.host.results := by
  unfold whileBusy
  split
  · exact hf s
  · rfl

@[simp] theorem pinEvent_results (e : PinEvent) : (pinEvent e s).host.results = s.host.results :=
  whileBusy_results s fun s => (whileBusy_results (f := pinAct e) (runGap s) fun _ => rfl).trans (runGap_results s)

@[simp] theorem sampleLine_results : (sampleLine s).2.host.results = s.host.results := by
  unfold sampleLine
  dsimp only
  split
  · split <;> simp
  · rfl

@[simp] theorem probe_results : (probe s).2.host.results = s.host.results := by
  unfold probe
  dsimp only
  split
  · simp
  · split <;> simp

@[simp] theorem countBit_results : (countBit s).host.results = s.host.results := whileBusy_results s fun _ => rfl

@[simp] theorem endByte_results : (endByte s).host.results = s.host.results := whileBusy_results s fun _ => rfl

@[simp] theorem clearSr_results : (clearSr s).host.results = s.host.results := whileBusy_results s fun _ => rfl

@[simp] theorem shiftIn_results (b : Bool) : (shiftIn b s).host.results = s.host.results :=
  whileBusy_results s fun _ => rfl

@[simp] theorem recordMemWrite_results (addr : RegAddr) (payload : List Byte) :
    (recordMemWrite addr payload s).host.results = s.host.results :=
  whileBusy_results s fun _ => rfl

@[simp] theorem sendByte_results (b : Byte) : (sendByte b s).host.results = s.host.results := by
  rw [sendByte, endByte_results, foldl_results]
  simp [sendBit]

@[simp] theorem serialReadByte_results : (serialReadByte s).host.results = s.host.results := by
  rw [serialReadByte, endByte_results, foldl_results]
  · simp
  · simp [receiveBit]

@[simp] theorem receiveBytes_results (n : Nat) : (receiveBytes n s).2.host.results = s.host.results := by
  induction n generalizing s with
  | zero => rfl
  | succ n ih => exact (ih (serialReadByte s)).trans (serialReadByte_results s)

end

/-! ### An operation that is issued is not refused -/

/-- From `s` to `t` HOST was answered nothing that is a refusal. -/
def Unrefused (s t : State) : Prop :=
  ∃ answers, t.host.results = s.host.results ++ answers ∧ ∀ c, .refused c ∉ answers

theorem Unrefused.silent {s t : State} (h : t.host.results = s.host.results) : Unrefused s t :=
  ⟨[], by simp [h], by simp⟩

theorem Unrefused.ok {s t : State} {v : Value} (h : t.host.results = s.host.results ++ [.ok v]) : Unrefused s t :=
  ⟨[.ok v], h, by simp⟩

theorem Unrefused.trans {s t u : State} (h : Unrefused s t) (g : Unrefused t u) : Unrefused s u := by
  obtain ⟨a, ha, noneA⟩ := h
  obtain ⟨b, hb, noneB⟩ := g
  exact ⟨a ++ b, by rw [hb, ha, List.append_assoc], fun c hc => (List.mem_append.mp hc).elim (noneA c) (noneB c)⟩

theorem Unrefused.ne_refusal {s t : State} (h : Unrefused s t) (c : RefuseCode) :
    t.host.results ≠ s.host.results ++ [.refused c] := by
  obtain ⟨answers, ha, noRefusal⟩ := h
  intro e
  obtain rfl := List.append_cancel_left (ha.symm.trans e)
  exact noRefusal c (List.mem_singleton.mpr rfl)

theorem serialWriteByte_unrefused (b : Byte) (done : Nat) (s : State) :
    Unrefused s (serialWriteByte b done s) := by
  unfold serialWriteByte
  dsimp only
  split
  · exact .silent (by simp)
  · unfold whileBusy
    split
    · exact ⟨[.busNotIdle (probe s).1 done], by simp, by simp⟩
    · exact .silent (by simp)

theorem sendFrame_unrefused (bs : List Byte) (done : Nat) (s : State) : Unrefused s (sendFrame bs done s) := by
  induction bs generalizing done s with
  | nil => exact .silent rfl
  | cons b bs ih => exact (serialWriteByte_unrefused b done s).trans (ih _ _)

theorem finishSri_unrefused (v : Value) (s : State) : Unrefused s (finishSri v s) := by
  unfold finishSri whileBusy
  split
  · exact .ok rfl
  · exact .silent rfl

theorem SriBody.unrefused {i : Instr} {body : State → State} (h : SriBody i body) (s : State) :
    Unrefused s (body s) := by
  cases h with
  | probe => exact (Unrefused.silent (probe_results s)).trans (finishSri_unrefused _ _)
  | byteOut _ b => exact (serialWriteByte_unrefused b 0 s).trans (finishSri_unrefused _ _)
  | byteIn => exact (Unrefused.silent (serialReadByte_results s)).trans (finishSri_unrefused _ _)
  | frame addr payload bytes =>
    exact ((sendFrame_unrefused bytes 0 s).trans (.silent (recordMemWrite_results _ _ _))).trans
      (finishSri_unrefused _ _)
  | read _ _ cmd n =>
    exact ((serialWriteByte_unrefused cmd 0 s).trans (.silent (receiveBytes_results _ n))).trans
      (finishSri_unrefused _ _)

/-! ### A refusal is the answer to an ill-formed operation (R103) -/

/-- `t` answers an operation issued in `s` whose operands are well-formed or not: by a refusal if they are not, and
without one if they are. -/
inductive Answers (s t : State) : Bool → Prop
  | refused (c : RefuseCode) (answer : t = refuse c s) : Answers s t false
  | taken (answer : Unrefused s t) : Answers s t true

theorem Answers.refused_iff {s t : State} {wf : Bool} (h : Answers s t wf) :
    wf = false ↔ ∃ c, t.host.results = s.host.results ++ [.refused c] := by
  cases h with
  | refused c answer => simp [answer]
  | taken answer => simp [answer.ne_refusal]

/-- An operation that looks at its operands first. -/
theorem answers_ite {s t : State} {wf : Bool} {bad : Prop} [Decidable bad] (hbad : bad ↔ wf = false)
    (c : RefuseCode) (h : Unrefused s t) : Answers s (if bad then refuse c s else t) wf := by
  cases wf
  · rw [if_pos (hbad.mpr rfl)]
    exact .refused c rfl
  · rw [if_neg (by simp [hbad])]
    exact .taken h

/-- An SRI operation is refused by its check alone. -/
theorem issueSri_answers {i : Instr} {body : State → State} (hbody : SriBody i body) {s : State}
    (hfault : s.sri.busFault = false) {check : Option RefuseCode} {wf : Bool} (hwf : wf = check.isNone) :
    Answers s (issueSri check body s) wf := by
  subst hwf
  cases check with
  | some c =>
    rw [issueSri_refused c body s hfault]
    exact .refused c rfl
  | none =>
    rw [issueSri_issued body s hfault]
    exact .taken ((Unrefused.silent rfl).trans (hbody.unrefused _))

theorem checkWriteReg_isNone (cfg : Config) (addr : Int) (payload : List Int) :
    (checkWriteReg cfg addr payload).isNone = (addrOk addr && payloadOk cfg payload) := by
  unfold checkWriteReg
  cases addrOk addr <;> cases payloadOk cfg payload <;> rfl

theorem checkReadReg_isNone (cfg : Config) (addr width : Int) :
    (checkReadReg cfg addr width).isNone = (addrOk addr && widthOk cfg width) := by
  unfold checkReadReg
  cases addrOk addr <;> cases widthOk cfg width <;> rfl

/-- The operations of the SRI. -/
theorem exec_sri_answers {i : Instr} {s : State} (hi : isSri i = true) (hfault : s.sri.busFault = false) :
    ∃ t, exec i s = .next t ∧ Answers s t (i.wf s.cfg) := by
  cases i <;> simp only [isSri, Bool.false_eq_true] at hi
  case isBusIdle => exact ⟨_, rfl, issueSri_answers .probe hfault rfl⟩
  case serialWrite b =>
    refine ⟨_, rfl, issueSri_answers (.byteOut (.serialWrite b) (toByte b) (by simp)) hfault ?_⟩
    change byteOk b = _
    cases byteOk b <;> rfl
  case serialRead => exact ⟨_, rfl, issueSri_answers .byteIn hfault rfl⟩
  case writeReg addr payload =>
    refine ⟨_, rfl, issueSri_answers (.frame addr payload (writeCmd (toAddr addr) :: payload.map toByte)) hfault ?_⟩
    exact (Bool.and_assoc _ _ _).trans (checkWriteReg_isNone s.cfg addr payload).symm
  case readReg addr width =>
    exact ⟨_, rfl, issueSri_answers (.read addr width (readCmd (toAddr addr)) width.toNat) hfault
      (checkReadReg_isNone s.cfg addr width).symm⟩
  case cmdWrite addr =>
    exact ⟨_, rfl, issueSri_answers (.byteOut (.cmdWrite addr) (writeCmd addr) (by simp)) hfault rfl⟩
  case cmdRead addr =>
    exact ⟨_, rfl, issueSri_answers (.byteOut (.cmdRead addr) (readCmd addr) (by simp)) hfault rfl⟩

/-- CONSUMER's instructions return nothing to HOST. -/
theorem exec_consumer_answers {i : Instr} (hi : IsConsumerStep i) (s : State) :
    ∃ t, exec i s = .next t ∧ Answers s t true := by
  obtain ⟨st, step, -, hexec⟩ := exec_consumer_form hi
  obtain turn | turn := exec_consumer hi (hexec s)
  · exact ⟨_, hexec s, .taken (.silent (by rw [turn]))⟩
  · exact ⟨_, hexec s, .taken (.silent (by rw [turn]; exact runMove_results s .consumer))⟩

theorem execPush_answers (w : Int) (s : State) : ∃ t, execPush w s = .next t ∧ Answers s t (wordOk w) := by
  refine ⟨_, rfl, answers_ite Iff.rfl .operandRange ?_⟩
  split
  · exact .ok rfl
  · exact .silent rfl

/-- The operations outside the SRI. -/
theorem exec_outside_sri_answers {i : Instr} (hi : isSri i = false) (s : State) :
    ∃ t, exec i s = .next t ∧ Answers s t (i.wf s.cfg) := by
  cases i <;> simp only [isSri, Bool.true_eq_false] at hi
  case push w => exact execPush_answers w s
  case toFtw freq sysclk =>
    exact ⟨_, rfl, answers_ite (by simp [Instr.wf]) .operandRange (.ok rfl)⟩
  case ftwBytes | readStatus | pack | assembleWord =>
    exact ⟨_, rfl, answers_ite Iff.rfl .operandRange (.ok rfl)⟩
  case activate | deactivate | clearUnderrun | resetStreamer | qclip => exact ⟨_, rfl, .taken (.ok rfl)⟩
  case cWaitILow | cShiftI | cWaitQHigh | cShiftQ => exact exec_consumer_answers (by simp [IsConsumerStep]) s

/-- Settles O8: an operation of the SRI is refused by its check and is not refused once issued (`SriBody.unrefused`); the
others look at their operands first. -/
theorem refusedExactlyWhenIllFormed : Obligations.RefusedExactlyWhenIllFormed := by
  intro i s hfault
  obtain ⟨t, he, answered⟩ : ∃ t, exec i s = .next t ∧ Answers s t (i.wf s.cfg) := by
    cases hi : isSri i
    · exact exec_outside_sri_answers hi s
    · exact exec_sri_answers hi hfault
  exact ⟨t, he, answered.refused_iff⟩

/-! ### The command bytes (R91 to R93, log 4) -/

/-- One byte out, issued and returned as an operation of its own (R122). -/
def byteOut (b : Byte) (s : State) : State := issueSri none (fun s => finishSri .unit (serialWriteByte b 0 s)) s

/-- A byte out on an undriven line completes, its bits at the rising edges. -/
theorem byteOut_undriven {s : State} (hfault : s.sri.busFault = false) (hext : s.env.ext = .z)
    (hgaps : gapsAll Move.steady s.sched.gaps = true) (b : Byte) :
    ∃ tr, (byteOut b s).host.results = s.host.results ++ [.ok .unit] ∧
      (byteOut b s).hist.pins = s.hist.pins ++ tr ∧ risingLevels tr = byteBits b := by
  have still : Still (0 + 29) .z { s with host.busy := true } := hext ▸ Still.issue 29 hgaps
  obtain ⟨tr, -, rising, -, did⟩ := serialWriteByte_still still b 0
  rw [byteOut, issueSri_issued _ _ hfault, finishSri_busy _ _ did.live.busy]
  exact ⟨tr, by rw [did.went.host], did.went.pins, rising⟩

theorem byteBits_writeCmd (addr : RegAddr) :
    byteBits (writeCmd addr) = false :: (byteBits (addr.setWidth 8)).tail := by
  revert addr; decide

theorem byteBits_readCmd (addr : RegAddr) :
    byteBits (readCmd addr) = true :: (byteBits (addr.setWidth 8)).tail := by
  revert addr; decide

/-- SERIAL_WRITE of the number of a byte. -/
theorem execSerialWrite_of_toNat (b : Byte) (s : State) :
    execSerialWrite b.toNat s = .next (byteOut b s) := by
  have inside : byteOk b.toNat = true := by
    simp only [byteOk, inRange, Bool.and_eq_true, decide_eq_true_eq]
    omega
  have same : toByte b.toNat = b := by rw [toByte, BitVec.ofInt_natCast, BitVec.ofNat_toNat, BitVec.setWidth_eq]
  rw [execSerialWrite, if_pos inside, same, byteOut]

/-- Settles O40: both rows are one byte out, as SERIAL_WRITE of that byte is. -/
theorem commandByteIsOneSerialWrite : Obligations.CommandByteIsOneSerialWrite := by
  intro s addr
  have write : ((writeCmd addr).toNat : Int) = addr.toNat := by
    rw [← cmdByte_write, cmdByte_toNat]; simp
  have read : ((readCmd addr).toNat : Int) = 128 + addr.toNat := by
    rw [← cmdByte_read, cmdByte_toNat]; simp
  refine ⟨?_, ?_, fun hfault hext hgaps => ⟨?_, ?_⟩⟩
  · rw [← write]
    exact (execSerialWrite_of_toNat (writeCmd addr) s).symm
  · rw [← read]
    exact (execSerialWrite_of_toNat (readCmd addr) s).symm
  · obtain ⟨tr, results, pins, rising⟩ := byteOut_undriven hfault hext hgaps (writeCmd addr)
    exact ⟨_, tr, rfl, results, pins, rising.trans (byteBits_writeCmd addr)⟩
  · obtain ⟨tr, results, pins, rising⟩ := byteOut_undriven hfault hext hgaps (readCmd addr)
    exact ⟨_, tr, rfl, results, pins, rising.trans (byteBits_readCmd addr)⟩

end Sys2Proof.Machine
end

section
/-! Operations one after another, and the pseudo-operations as their expansions (`30_encoding.md` R106). -/

namespace Sys2Proof.Machine

/-! ### Operations one after another -/

theorem issueAll_cons {i : Instr} {s t : State} (he : exec i s = .next t) (is : List Instr) :
    issueAll (i :: is) s = issueAll is t := by
  rw [issueAll, he]

theorem issueAll_singleton (i : Instr) (s : State) : issueAll [i] s = exec i s := by
  rw [issueAll]
  cases exec i s <;> rfl

theorem issueAll_append {is : List Instr} {s t : State} (h : issueAll is s = .next t) (js : List Instr) :
    issueAll (is ++ js) s = issueAll js t := by
  induction is generalizing s with
  | nil =>
    obtain rfl := Host.Outcome.next.inj h
    rfl
  | cons i is ih =>
    cases he : exec i s with
    | next u =>
      rw [issueAll_cons he] at h
      exact (issueAll_cons he _).trans (ih h)
    | fault f => exact nomatch f
    | refused r => rw [issueAll, he] at h; cases h

/-! ### RESTART -/

theorem wordOk_toNat (w : Word) : wordOk w.toNat = true := by
  simp only [wordOk, inRange, Bool.and_eq_true, decide_eq_true_eq]
  omega

theorem toWord_toNat (w : Word) : toWord w.toNat = w := by
  rw [toWord, BitVec.ofInt_natCast, BitVec.ofNat_toNat, BitVec.setWidth_eq]

/-- A PUSH that is not held (R160). -/
def stored (w : Word) (s : State) : State := returnOk .unit (enqueue w { s with host.held := none })

theorem exec_push_toNat {w : Word} {s : State} (room : s.iqs.level < 8) :
    exec (.push w.toNat) s = .next (stored w s) := by
  have e := execPush_stored (wordOk_toNat w) (s := s) room
  rwa [toWord_toNat] at e

/-- PUSHes of one word while there is room for all of them. -/
theorem issueAll_pushes (w : Word) (n : Nat) {s : State} (room : s.iqs.level + n ≤ 8) :
    issueAll (List.replicate n (.push w.toNat)) s = .next ((stored w)^[n] s) := by
  induction n generalizing s with
  | zero => rfl
  | succ n ih =>
    rw [List.replicate_succ, issueAll_cons (exec_push_toNat (by omega)), ih (s := stored w s),
      Function.iterate_succ_apply]
    change s.iqs.level + 1 + n ≤ 8
    omega

/-- What `n` PUSHes of one word leave alone, record and return. -/
theorem stored_iterate (w : Word) (n : Nat) (s : State) :
    ((stored w)^[n] s).sri = s.sri ∧ ((stored w)^[n] s).hist.pins = s.hist.pins ∧
    ((stored w)^[n] s).hist.pushed = s.hist.pushed ++ List.replicate n w ∧
    ((stored w)^[n] s).host.results = s.host.results ++ List.replicate n (.ok .unit) := by
  induction n generalizing s with
  | zero => simp
  | succ n ih =>
    obtain ⟨sri, pins, pushed, results⟩ := ih (stored w s)
    rw [Function.iterate_succ_apply, sri, pins, pushed, results]
    simp [stored, List.replicate_succ]

/-- Eight words stored from slot 0 on fill the queue. -/
theorem set_all_slots (fifo : Vector Word 8) (w : Word) :
    (((((((fifo.set 0 w).set 1 w).set 2 w).set 3 w).set 4 w).set 5 w).set 6 w).set 7 w = Vector.replicate 8 w := by
  apply Vector.ext
  intro k hk
  simp only [Vector.getElem_set, Vector.getElem_replicate]
  interval_cases k <;> rfl

/-- The state RESTART leaves: restarted, eight words stored, active. -/
def restartedWith (w : Word) (s : State) : State :=
  returnOk .unit { (stored w)^[8] (returnOk .unit (restartStreamer s)) with iqs.active := true }

theorem issueAll_restart (o : NibbleOrder) (s : State) :
    issueAll (restart o) s = .next (restartedWith (idleWord o) s) := by
  have pushes := issueAll_pushes (idleWord o) 8 (s := returnOk .unit (restartStreamer s)) (le_refl 8)
  calc issueAll (restart o) s
      _ = issueAll (preloadIdle o ++ [.activate]) (returnOk .unit (restartStreamer s)) := by
        rw [restart, List.cons_append]
        exact issueAll_cons rfl _
      _ = issueAll [.activate] ((stored (idleWord o))^[8] (returnOk .unit (restartStreamer s))) :=
        issueAll_append pushes _
      _ = .next (restartedWith (idleWord o) s) := issueAll_singleton _ _

theorem restartedWith_iqs (w : Word) (s : State) :
    (restartedWith w s).iqs = { s.iqs with
      fifo := Vector.replicate 8 w, wr := 0, rd := 0, level := 8, osrCnt := 0, state := .waitILow,
      active := true, d := 0, underrun := false, starved := false, underrunCount := 0 } := by
  rw [← set_all_slots s.iqs.fifo w]
  simp [restartedWith, stored, enqueue, Iqs.restarted]

/-! ### PACK_SAMPLES -/

theorem execPack_of_some {i q : Int} {b : Byte} (s : State) (h : packOne i q = some b) :
    execPack i q s = .next (returnOk (.byte b) s) := by
  unfold packOne at h
  split at h
  · next ok => rw [execPack, if_neg (by simp only [ok]; decide), Option.some.inj h]
  · cases h

theorem execPack_of_none {i q : Int} (s : State) (h : packOne i q = none) :
    execPack i q s = .next (refuse .operandRange s) := by
  unfold packOne at h
  split at h
  · cases h
  · next bad => rw [execPack, if_pos (by simpa only [Bool.not_eq_true] using bad)]

/-- What the PACKs of the samples return. -/
def packResult (p : Int × Int) : Result :=
  match packOne p.1 p.2 with
  | some b => .ok (.byte b)
  | none => .refused .operandRange

theorem issueAll_packs (samples : List (Int × Int)) (s : State) :
    issueAll (packSamplesOps samples) s =
      .next { s with host.results := s.host.results ++ samples.map packResult } := by
  induction samples generalizing s with
  | nil => simp [packSamplesOps, issueAll]
  | cons p rest ih =>
    have first : exec (.pack p.1 p.2) s = .next { s with host.results := s.host.results ++ [packResult p] } := by
      unfold packResult
      cases hp : packOne p.1 p.2 with
      | some b => exact execPack_of_some s hp
      | none => exact execPack_of_none s hp
    exact (issueAll_cons first _).trans ((ih _).trans (by simp))

theorem packAll_of_some {samples : List (Int × Int)} {bs : List Byte} (h : packAll samples = some bs) :
    samples.map packResult = bs.map fun b => .ok (.byte b) := by
  induction samples generalizing bs with
  | nil =>
    obtain rfl := Option.some.inj h
    rfl
  | cons p rest ih =>
    rw [packAll] at h
    split at h
    · next b bs' hb hbs =>
      obtain rfl := Option.some.inj h
      simp [packResult, hb, ih hbs]
    · cases h

theorem packAll_of_none {samples : List (Int × Int)} (h : packAll samples = none) :
    .refused .operandRange ∈ samples.map packResult := by
  induction samples with
  | nil => cases h
  | cons p rest ih =>
    cases hp : packOne p.1 p.2 with
    | none => simp [packResult, hp]
    | some b =>
      cases hrest : packAll rest with
      | none => exact List.mem_cons_of_mem _ (ih hrest)
      | some bs => simp [packAll, hp, hrest] at h

/-! ### WRITE_FTW -/

theorem execToFtw_refused (freq : Rat) {sysclk : Rat} (h : sysclk.num ≤ 0) (s : State) :
    execToFtw freq sysclk s = .next (refuse .operandRange s) := by
  rw [execToFtw, if_pos h]

theorem execToFtw_returns (freq : Rat) {sysclk : Rat} (h : ¬ sysclk.num ≤ 0) (s : State) :
    execToFtw freq sysclk s = .next (returnOk (.word (ftwValue s.cfg.roundTie freq sysclk)) s) := by
  rw [execToFtw, if_neg h]

theorem execFtwBytes_toNat (w : Word) (s : State) :
    execFtwBytes w.toNat s = .next (returnOk (.bytes (ftwToBytes w)) s) := by
  rw [execFtwBytes, wordOk_toNat, toWord_toNat]
  rfl

theorem issueAll_writeFtw_refused (addr : Int) (freq : Rat) {sysclk : Rat} (h : sysclk.num ≤ 0) (s : State) :
    issueAll (writeFtw s.cfg.roundTie addr freq sysclk) s = .next (refuse .operandRange s) := by
  rw [writeFtw, if_pos h, issueAll_singleton]
  exact execToFtw_refused freq h s

theorem issueAll_writeFtw (addr : Int) (freq : Rat) {sysclk : Rat} (h : ¬ sysclk.num ≤ 0) (s : State) :
    issueAll (writeFtw s.cfg.roundTie addr freq sysclk) s =
      exec (.writeReg addr ((ftwToBytes (ftwValue s.cfg.roundTie freq sysclk)).map fun b => (b.toNat : Int)))
        (returnOk (.bytes (ftwToBytes (ftwValue s.cfg.roundTie freq sysclk)))
          (returnOk (.word (ftwValue s.cfg.roundTie freq sysclk)) s)) := by
  rw [writeFtw, if_neg h, issueAll_cons (i := .toFtw freq sysclk) (execToFtw_returns freq h s),
    issueAll_cons (i := .ftwBytes _) (execFtwBytes_toNat _ _), issueAll_singleton]

/-- Settles O60: each pseudo-operation is followed through its expansion. -/
theorem pseudoOperationsDoTheirExpansions : Obligations.PseudoOperationsDoTheirExpansions := by
  refine ⟨?restart, ?writeFtw, fun addr => rfl, ?packSamples⟩
  case restart =>
    intro s o
    obtain ⟨sri, pins, pushed, results⟩ :=
      stored_iterate (idleWord o) 8 (returnOk .unit (restartStreamer s))
    refine ⟨restartedWith (idleWord o) s, issueAll_restart o s, restartedWith_iqs _ s, ?_, sri, pins, pushed, ?_⟩
    · rw [restartedWith_iqs]
      simp [iqsStatus, Iqs.fifoFull, Iqs.fifoEmpty, StreamState.code]
    · rw [restartedWith, returnOk_results, results]
      simp [List.replicate_succ]
  case writeFtw =>
    intro s addr freq sysclk
    refine ⟨fun h => issueAll_writeFtw_refused addr freq (Rat.num_nonpos.mpr h) s, fun h => ?_⟩
    have pos : ¬ sysclk.num ≤ 0 := not_le.mpr (Rat.num_pos.mpr h)
    refine ⟨_, _, execToFtw_returns freq pos s, execFtwBytes_toNat _ s, (issueAll_writeFtw addr freq pos s).trans ?_⟩
    simp [returnOk]
  case packSamples =>
    intro s samples
    refine ⟨_, issueAll_packs samples s, by simp, ?_⟩
    unfold packSamples
    cases h : packAll samples with
    | some bs => exact .inl ⟨bs, rfl, packAll_of_some h⟩
    | none => exact .inr ⟨rfl, packAll_of_none h⟩

end Sys2Proof.Machine
end

section
/-! How an SRI operation that is issued is answered, on a line whose drive does not change and under any moves of the
other agents: the statements of the family `40_control_bus.md` (R120 to R136). -/

namespace Sys2Proof.Machine

/-! ### The return of an operation (R10, R221) -/

/-- HOST is inside an operation issued in `s`. -/
abbrev State.issued (s : State) : State := { s with host.busy := true }

/-- The operation issued in `s` was answered `a`: it recorded `tr` on the pins and `m` as written to the target, and it
left the SRI as `r`. -/
structure Returned (s t : State) (a : Result) (tr : List PinRecord) (r : Sri) (m : List MemWrite) : Prop where
  results   : t.host.results = s.host.results ++ [a]
  pins      : t.hist.pins = s.hist.pins ++ tr
  sri       : t.sri = r
  memWrites : t.hist.memWrites = s.hist.memWrites ++ m

section

variable {s t : State} {tr : List PinRecord} {f : Sri → Sri}

theorem Did.returns (h : Did s.issued t tr f) (v : Value) :
    Returned s (finishSri v t) (.ok v) tr (f s.sri) [] := by
  rw [finishSri_busy v t h.live.busy]
  exact ⟨by rw [h.went.host], h.went.pins, h.sri, by simp [h.went.memWrites]⟩

theorem Did.returnsFrame (h : Did s.issued t tr f) (addr : RegAddr) (payload : List Byte) (v : Value) :
    Returned s (finishSri v (recordMemWrite addr payload t)) (.ok v) tr (f s.sri) [⟨addr, payload⟩] := by
  rw [recordMemWrite, whileBusy_of_busy _ _ h.live.busy, finishSri_busy _ _ (by exact h.live.busy)]
  exact ⟨by rw [h.went.host], h.went.pins, h.sri, by simp [h.went.memWrites]⟩

/-- After BusNotIdle nothing further is returned. -/
theorem Did.faults (h : Did s.issued t tr f) (cause : BitVec 2) (done : Nat) (v : Value) :
    Returned s (finishSri v (takeBusNotIdle cause done t)) (.busNotIdle cause done) tr
      { f s.sri with busFault := true, busFaultCause := cause } [] := by
  rw [finishSri_idle _ _ rfl]
  exact ⟨by simp [h.went.host], h.went.pins, by simp [h.sri], by simp [h.went.memWrites]⟩

end

theorem Still.issued {s : State} {e : Ext} (hext : s.env.ext = e) (h : gapsAll Move.steady s.sched.gaps = true)
    (n : Nat) : Still n e s.issued :=
  hext ▸ Still.issue n h

/-! ### Rising edges -/

theorem risingLevels_length (tr : List PinRecord) :
    (risingLevels tr).length = (tr.map PinRecord.event).countP (· = .sclk true) := by
  simp [risingLevels, List.countP_eq_length_filter, List.filter_map, Function.comp_def]

theorem risingLevels_of_failedProbe {cause : BitVec 2} {tr : List PinRecord}
    (h : tr.map PinRecord.event = failedProbeEvents cause) : risingLevels tr = [] := by
  apply List.eq_nil_of_length_eq_zero
  rw [risingLevels_length, h, failedProbeEvents]
  split <;> rfl

theorem risingLevels_length_of_write {b : Byte} {tr : List PinRecord}
    (h : tr.map PinRecord.event = writeEvents b) : (risingLevels tr).length = 8 := by
  rw [risingLevels_length, h]
  rfl

theorem length_of_write {b : Byte} {tr : List PinRecord} (h : tr.map PinRecord.event = writeEvents b) :
    tr.length = 29 := by
  rw [← List.length_map (f := PinRecord.event), h]
  rfl

/-! ### IS_BUS_IDLE (R120, R121) -/

/-- IS_BUS_IDLE answers by the cause the probe found, and raises nothing. -/
theorem isBusIdle_returns {s : State} (hfault : s.sri.busFault = false) {tr : List PinRecord} {f : Sri → Sri}
    {c : BitVec 2} (hc : (probe s.issued).1 = c) (did : Did s.issued (probe s.issued).2 tr f) :
    ∃ t, exec .isBusIdle s = .next t ∧ Returned s t (.ok (.bool (decide (c = 0)))) tr (f s.sri) [] := by
  refine ⟨_, congrArg Host.Outcome.next (issueSri_issued _ s hfault), ?_⟩
  subst hc
  exact did.returns _

/-- Settles O30: the three ends of a probe under any moves (`probe_did`), and the one end each constant drive leaves. -/
theorem probeOutcomeByDrive : Obligations.ProbeOutcomeByDrive := by
  refine ⟨fun s hfault hgaps => ?_, fun s hfault hgaps => ⟨fun hext => ?_, fun hext => ?_, fun hext => ?_⟩⟩
  · obtain ⟨tr, ⟨cause, events, samples, did⟩ | ⟨cause, events, samples, did⟩ | ⟨cause, events, samples, did⟩⟩ :=
      probe_did (Live.issue hgaps)
    · obtain ⟨t, he, ret⟩ := isBusIdle_returns hfault cause did
      exact ⟨t, tr, false, he, ret.results, ret.pins, .inl ⟨rfl, events, samples, ret.sri⟩⟩
    · obtain ⟨t, he, ret⟩ := isBusIdle_returns hfault cause did
      exact ⟨t, tr, false, he, ret.results, ret.pins, .inr (.inl ⟨rfl, events, samples, ret.sri⟩)⟩
    · obtain ⟨t, he, ret⟩ := isBusIdle_returns hfault cause did
      exact ⟨t, tr, true, he, ret.results, ret.pins, .inr (.inr ⟨rfl, events, samples, ret.sri⟩)⟩
  · obtain ⟨tr, cause, events, samples, -, -, did⟩ := probe_undriven (n := 0) (Still.issued hext hgaps _)
    obtain ⟨t, he, ret⟩ := isBusIdle_returns hfault cause did
    exact ⟨t, tr, he, ret.results, ret.sri, ret.pins, events, samples⟩
  · obtain ⟨tr, cause, events, samples, -, -, did⟩ := probe_drivenLow (n := 0) (Still.issued hext hgaps _)
    obtain ⟨t, he, ret⟩ := isBusIdle_returns hfault cause did
    exact ⟨t, tr, he, ret.results, ret.sri, ret.pins, events, samples⟩
  · obtain ⟨tr, cause, events, samples, -, -, did⟩ := probe_drivenHigh (n := 0) (Still.issued hext hgaps _)
    obtain ⟨t, he, ret⟩ := isBusIdle_returns hfault cause did
    exact ⟨t, tr, he, ret.results, ret.sri, ret.pins, events, samples⟩

/-! ### SERIAL_WRITE (R122 to R124) -/

/-- The SRI after a byte is out (R122 step 4). -/
abbrev byteSent (b : Byte) (r : Sri) : Sri :=
  { r with sclk := false, sdioDir := .output, sdioOut := b.getLsbD 0, sdioPull := .down, bitcnt := 0 }

/-- The pin after a probe that found `cause` (R121). -/
abbrev probeLeft (cause : BitVec 2) (r : Sri) : Sri :=
  { r with
    sdioDir := .input
    sdioOut := if cause = 1 then r.sdioOut else false
    sdioPull := if cause = 1 then .up else .down }

theorem exec_serialWrite_issued {s : State} {b : Int} (hfault : s.sri.busFault = false) (hlow : 0 ≤ b)
    (hhigh : b ≤ 255) :
    exec (.serialWrite b) s = .next (finishSri .unit (serialWriteByte (BitVec.ofInt 8 b) 0 s.issued)) := by
  have inside : byteOk b = true := by simp [byteOk, inRange, hlow, hhigh]
  change Host.Outcome.next (issueSri _ _ s) = _
  rw [if_pos inside, issueSri_issued _ s hfault]
  rfl

/-- SERIAL_WRITE whose probe fails is answered by BusNotIdle, and its byte is not begun (R124). -/
theorem serialWrite_faults {s : State} {b : Int} (hfault : s.sri.busFault = false) (hlow : 0 ≤ b) (hhigh : b ≤ 255)
    {cause : BitVec 2} (hcause : (probe s.issued).1 = cause) (failed : cause ≠ 0) {tr : List PinRecord}
    {f : Sri → Sri} (did : Did s.issued (probe s.issued).2 tr f) :
    ∃ t, exec (.serialWrite b) s = .next t ∧
      Returned s t (.busNotIdle cause 0) tr { f s.sri with busFault := true, busFaultCause := cause } [] := by
  refine ⟨_, exec_serialWrite_issued hfault hlow hhigh, ?_⟩
  subst hcause
  have fault : serialWriteByte (BitVec.ofInt 8 b) 0 s.issued =
      takeBusNotIdle (probe s.issued).1 0 (probe s.issued).2 := by
    rw [← whileBusy_of_busy _ (takeBusNotIdle _ 0) did.live.busy]
    exact if_neg failed
  rw [fault]
  exact did.faults _ 0 .unit

/-- A byte under any moves but the reset event: out whole, or BusNotIdle with the pin as the failed probe left it. -/
theorem serialWriteByte_outcome {s : State} (h : Live s) (b : Byte) (done : Nat) :
    (∃ tr, tr.map PinRecord.event = writeEvents b ∧ Did s (serialWriteByte b done s) tr (byteSent b)) ∨
    (∃ cause t tr, (cause = 1 ∨ cause = 2) ∧ tr.map PinRecord.event = failedProbeEvents cause ∧
      Did s t tr (probeLeft cause) ∧ serialWriteByte b done s = takeBusNotIdle cause done t) := by
  obtain sent | ⟨t, tr, cause, f, events, did, hf, fault⟩ := serialWriteByte_did h b done
  · exact .inl sent
  · obtain ⟨rfl, rfl⟩ | ⟨rfl, rfl⟩ := hf
    · exact .inr ⟨1, t, tr, .inl rfl, events, did.cast rfl rfl, fault⟩
    · exact .inr ⟨2, t, tr, .inr rfl, events, did.cast rfl rfl, fault⟩

/-- Settles O31: the byte goes out by `serialWriteByte_still`. -/
theorem serialWriteOnAnUndrivenLine : Obligations.SerialWriteOnAnUndrivenLine := by
  intro s b hfault hlow hhigh hext hgaps
  obtain ⟨tr, events, rising, -, did⟩ :=
    serialWriteByte_still (n := 0) (Still.issued hext hgaps _) (BitVec.ofInt 8 b) 0
  have ret := did.returns .unit
  exact ⟨_, tr, exec_serialWrite_issued hfault hlow hhigh, ret.results, ret.pins, events, rising, ret.sri,
    ret.memWrites.trans (List.append_nil _)⟩

/-- Settles O32: on a driven line the probe fails, by its first sample or by its second. -/
theorem serialWriteOnADrivenLineFaults : Obligations.SerialWriteOnADrivenLineFaults := by
  intro s b v hfault hlow hhigh hext hgaps
  cases v
  · obtain ⟨tr, cause, events, -, rising, -, did⟩ := probe_drivenLow (n := 0) (Still.issued hext hgaps _)
    obtain ⟨t, he, ret⟩ := serialWrite_faults hfault hlow hhigh cause (by decide) did
    exact ⟨t, tr, he, ret.results, ret.pins, events, rising, ret.sri⟩
  · obtain ⟨tr, cause, events, -, rising, -, did⟩ := probe_drivenHigh (n := 0) (Still.issued hext hgaps _)
    obtain ⟨t, he, ret⟩ := serialWrite_faults hfault hlow hhigh cause (by decide) did
    exact ⟨t, tr, he, ret.results, ret.pins, events, rising, ret.sri⟩

/-- Settles O33: the two ends of a byte under any moves. -/
theorem serialWriteIsWholeOrNothing : Obligations.SerialWriteIsWholeOrNothing := by
  intro s b hfault hlow hhigh hgaps
  obtain ⟨tr, events, did⟩ | ⟨cause, u, tr, hcause, events, did, fault⟩ :=
    serialWriteByte_outcome (Live.issue hgaps) (BitVec.ofInt 8 b) 0
  · have ret := did.returns .unit
    exact ⟨_, tr, exec_serialWrite_issued hfault hlow hhigh, ret.pins, .inl ⟨ret.results, events,
      length_of_write events, risingLevels_length_of_write events, by rw [ret.sri]; exact hfault, ret.sri⟩⟩
  · have ret := did.faults cause 0 .unit
    rw [← fault] at ret
    exact ⟨_, tr, exec_serialWrite_issued hfault hlow hhigh, ret.pins, .inr ⟨cause, hcause, ret.results, events,
      risingLevels_of_failedProbe events, ret.sri⟩⟩

/-! ### SERIAL_READ (R126, R127, R135) -/

/-- Settles O34: `SR` holds the byte of the samples when the byte is in (`serialReadByte_did`), and it is returned. -/
theorem serialReadReturnsTheSamples : Obligations.SerialReadReturnsTheSamples := by
  intro s hfault hgaps
  obtain ⟨tr, v, events, samples, did⟩ := serialReadByte_did (Live.issue hgaps)
  have inSr : (serialReadByte s.issued).sri.sr = v := by rw [did.sri]
  have ret := did.returns (.byte v)
  refine ⟨_, tr, v, ?_, ret.results, ret.pins, events, ?_, samples, ret.sri⟩
  · change Host.Outcome.next (issueSri none _ s) = _
    rw [issueSri_issued _ s hfault, ← inSr]
  · rw [← List.length_map (f := PinRecord.event), events]
    rfl

theorem accumulate_byteBits : Function.LeftInverse (List.foldl accumulate 0) byteBits := by
  unfold Function.LeftInverse
  decide

/-- Settles O35: the byte written and the byte read have the same bits. -/
theorem loopbackReproducesTheByte : Obligations.LoopbackReproducesTheByte := by
  intro s t u v b out back hfaultS hlow hhigh hext hgapsS hwrite hout hfaultU hgapsU hread hback hline
  obtain ⟨t', tr, hwrite', -, pins, -, rising, -⟩ :=
    serialWriteOnAnUndrivenLine s b hfaultS hlow hhigh hext hgapsS
  obtain rfl := Host.Outcome.next.inj (hwrite.symm.trans hwrite')
  obtain rfl := List.append_cancel_left (hout.symm.trans pins)
  obtain ⟨v', tr', w, hread', results, pins', -, -, samples, -⟩ := serialReadReturnsTheSamples u hfaultU hgapsU
  obtain rfl := Host.Outcome.next.inj (hread.symm.trans hread')
  obtain rfl := List.append_cancel_left (hback.symm.trans pins')
  obtain rfl : w = BitVec.ofInt 8 b :=
    accumulate_byteBits.injective (samples.symm.trans (hline.trans rising))
  exact results

/-! ### WRITE_REG (R130) -/

theorem writeCmd_toAddr {addr : Int} (hlow : 0 ≤ addr) (hhigh : addr ≤ 127) :
    writeCmd (toAddr addr) = BitVec.ofInt 8 (0x00 + addr) := by
  obtain ⟨n, rfl⟩ := Int.eq_ofNat_of_zero_le hlow
  have small : n < 128 := by omega
  rw [Int.zero_add, ← cmdByte_write]
  apply BitVec.eq_of_toNat_eq
  rw [cmdByte_toNat]
  simp [toAddr]
  omega

theorem readCmd_toAddr {addr : Int} (hlow : 0 ≤ addr) (hhigh : addr ≤ 127) :
    readCmd (toAddr addr) = BitVec.ofInt 8 (0x80 + addr) := by
  obtain ⟨n, rfl⟩ := Int.eq_ofNat_of_zero_le hlow
  have sum : (0x80 : Int) + n = (128 + n : Nat) := by simp
  rw [sum, ← cmdByte_read]
  apply BitVec.eq_of_toNat_eq
  rw [cmdByte_toNat]
  simp [toAddr]
  omega

theorem exec_writeReg_issued {s : State} {addr : Int} {payload : List Int} (hfault : s.sri.busFault = false)
    (hlow : 0 ≤ addr) (hhigh : addr ≤ 127) (hpos : 1 ≤ payload.length) (hmax : payload.length ≤ s.cfg.widthMax)
    (hbytes : ∀ v ∈ payload, 0 ≤ v ∧ v ≤ 255) :
    exec (.writeReg addr payload) s =
      .next (finishSri .unit (recordMemWrite (BitVec.ofInt 7 addr) (payload.map (BitVec.ofInt 8))
        (sendFrame (BitVec.ofInt 8 (0x00 + addr) :: payload.map (BitVec.ofInt 8)) 0 s.issued))) := by
  have taken : checkWriteReg s.cfg addr payload = none := by
    rw [← Option.isNone_iff_eq_none, checkWriteReg_isNone]
    simpa [addrOk, payloadOk, widthOk, byteOk, inRange, hlow, hhigh, hmax, Nat.one_le_iff_ne_zero, hpos] using
      hbytes
  change Host.Outcome.next (issueSri _ _ s) = _
  rw [taken, issueSri_issued _ s hfault, ← writeCmd_toAddr hlow hhigh]
  rfl

theorem length_of_frame {frame : List Byte} {tr : List PinRecord}
    (h : tr.map PinRecord.event = frame.flatMap writeEvents) : tr.length = 29 * frame.length := by
  rw [← List.length_map (f := PinRecord.event), h]
  clear h
  induction frame with
  | nil => rfl
  | cons b bs ih =>
    rw [List.flatMap_cons, List.length_append, ih, List.length_cons]
    have one : (writeEvents b).length = 29 := rfl
    omega

/-- Settles O36: the frame goes out by `sendFrame_still`, then it is recorded. -/
theorem writeRegSendsTheFrame : Obligations.WriteRegSendsTheFrame := by
  intro s addr payload hfault hlow hhigh hpos hmax hbytes hext hgaps frame hframe
  obtain ⟨tr, events, rising, -, did⟩ := sendFrame_still (n := 0) frame 0 (Still.issued hext hgaps _)
  have ret := did.returnsFrame (BitVec.ofInt 7 addr) (payload.map (BitVec.ofInt 8)) .unit
  have nonempty : frame ≠ [] := by simp [hframe]
  have size : frame.length = 1 + payload.length := by simp [hframe, Nat.add_comm]
  rw [if_neg nonempty] at ret
  refine ⟨_, tr, ?_, ret.results, ret.memWrites, ret.pins, events, size ▸ length_of_frame events, rising, ret.sri⟩
  rw [hframe, exec_writeReg_issued hfault hlow hhigh hpos hmax hbytes]

/-- Settles O37: the two ends of a frame under any moves (`sendFrame_did`). -/
theorem writeRegFaultsPrecisely : Obligations.WriteRegFaultsPrecisely := by
  intro s addr payload hfault hlow hhigh hpos hmax hbytes hgaps frame hframe
  have issued := exec_writeReg_issued hfault hlow hhigh hpos hmax hbytes
  rw [← hframe] at issued
  have nonempty : frame ≠ [] := by simp [hframe]
  obtain ⟨tr, events, did⟩ | ⟨u, tr, cause, done, f, hdone, hcause, events, did, -, fault⟩ :=
    sendFrame_did frame 0 (Live.issue hgaps)
  · have ret := did.returnsFrame (BitVec.ofInt 7 addr) (payload.map (BitVec.ofInt 8)) .unit
    rw [if_neg nonempty] at ret
    exact ⟨_, tr, issued, ret.pins, .inl ⟨ret.results, events, by rw [ret.sri]; exact hfault, ret.sri,
      ret.memWrites⟩⟩
  · rw [Nat.zero_add] at fault
    have ret := did.faults cause done .unit
    rw [fault, recordMemWrite, whileBusy_of_idle _ _ rfl] at issued
    exact ⟨_, tr, issued, ret.pins, .inr ⟨cause, done, hcause, hdone, ret.results, events, by rw [ret.sri],
      by rw [ret.sri], ret.memWrites.trans (List.append_nil _)⟩⟩

/-! ### READ_REG (R133) -/

theorem exec_readReg_issued {s : State} {addr width : Int} (hfault : s.sri.busFault = false) (hlow : 0 ≤ addr)
    (hhigh : addr ≤ 127) (hpos : 1 ≤ width) (hmax : width ≤ s.cfg.widthMax) {u : State}
    (hu : serialWriteByte (BitVec.ofInt 8 (0x80 + addr)) 0 s.issued = u) :
    exec (.readReg addr width) s =
      .next (finishSri (.bytes (receiveBytes width.toNat u).1) (receiveBytes width.toNat u).2) := by
  have taken : checkReadReg s.cfg addr width = none := by
    rw [← Option.isNone_iff_eq_none, checkReadReg_isNone]
    simp [addrOk, widthOk, inRange, hlow, hhigh, hpos, hmax]
  subst hu
  change Host.Outcome.next (issueSri _ _ s) = _
  rw [taken, issueSri_issued _ s hfault, ← readCmd_toAddr hlow hhigh]

/-- The SRI after a READ frame with command byte `cmd` (R133). -/
abbrev bytesRead (cmd : Byte) (bytes : List Byte) (r : Sri) : Sri :=
  { r with sclk := false, sdioDir := .input, sdioOut := cmd.getLsbD 0, sdioPull := .down,
           sr := bytes.getLast?.getD 0, bitcnt := 0 }

/-- The bytes of a READ frame after its command byte is out: they come in whatever the other agents do. -/
theorem readReg_returns {s u : State} {cmd : Byte} {out : List PinRecord} (sent : Did s.issued u out (byteSent cmd))
    {width : Int} (hpos : 1 ≤ width) :
    ∃ tr bytes, bytes.length = width.toNat ∧
      tr.map PinRecord.event = (List.replicate width.toNat readEvents).flatten ∧
      sampledLevels tr = bytes.flatMap byteBits ∧
      Returned s (finishSri (.bytes (receiveBytes width.toNat u).1) (receiveBytes width.toNat u).2)
        (.ok (.bytes bytes)) (out ++ tr) (bytesRead cmd bytes s.sri) [] := by
  obtain ⟨tr, events, samples, count, did⟩ := receiveBytes_did width.toNat sent.live
  have positive : width.toNat ≠ 0 := by omega
  refine ⟨tr, _, count, events, samples, Did.returns ((sent.trans did).cast rfl ?_) _⟩
  rw [if_neg positive]

/-- Settles O38: the command byte goes out on the undriven line, then the bytes come in. -/
theorem readRegReturnsWhatTheLineCarries : Obligations.ReadRegReturnsWhatTheLineCarries := by
  intro s addr width hfault hlow hhigh hpos hmax hext hcmd hread
  have live : Live s.issued :=
    Live.issue (gapsAll_split 29 (gapsAll_mono (fun _ => steady_notReset) hcmd) hread)
  obtain ⟨out, outEvents, rising, -, sent⟩ :=
    serialWriteByte_still (n := 0) ⟨live, hext, hcmd⟩ (BitVec.ofInt 8 (0x80 + addr)) 0
  obtain ⟨tr, bytes, count, events, samples, ret⟩ := readReg_returns sent hpos
  refine ⟨_, out, tr, bytes, exec_readReg_issued hfault hlow hhigh hpos hmax rfl, ret.results, by omega,
    by rw [ret.pins, List.append_assoc], outEvents, rising, count ▸ events, samples, ret.sri,
    ret.memWrites.trans (List.append_nil _)⟩

theorem length_of_reads {n : Nat} {tr : List PinRecord}
    (h : tr.map PinRecord.event = (List.replicate n readEvents).flatten) : tr.length = 25 * n := by
  rw [← List.length_map (f := PinRecord.event), h, List.length_flatten, List.map_replicate, List.sum_replicate]
  exact Nat.mul_comm n 25

/-- Settles O39: the command byte ends in one of two ways, and the bytes after it only come in. -/
theorem readRegFaultsOnlyBeforeTheCommand : Obligations.ReadRegFaultsOnlyBeforeTheCommand := by
  intro s addr width hfault hlow hhigh hpos hmax hgaps
  obtain ⟨out, outEvents, sent⟩ | ⟨cause, u, out, hcause, outEvents, did, fault⟩ :=
    serialWriteByte_outcome (Live.issue hgaps) (BitVec.ofInt 8 (0x80 + addr)) 0
  · obtain ⟨tr, bytes, count, events, samples, ret⟩ := readReg_returns sent hpos
    have outLength := length_of_write outEvents
    refine ⟨_, out ++ tr, exec_readReg_issued hfault hlow hhigh hpos hmax rfl, ret.pins,
      ret.memWrites.trans (List.append_nil _), .inl ⟨bytes, ret.results, by omega, ?_, ?_, ?_, ?_, ret.sri⟩⟩
    · rw [List.map_append, outEvents, events]
    · rw [List.length_append, outLength, length_of_reads events]
    · rw [List.drop_left' outLength, samples]
    · rw [ret.sri]; exact hfault
  · have issued := exec_readReg_issued hfault hlow hhigh hpos hmax fault
    rw [receiveBytes_of_idle _ rfl] at issued
    have ret := did.faults cause 0 (.bytes (receiveBytes width.toNat (takeBusNotIdle cause 0 u)).1)
    exact ⟨_, out, issued, ret.pins, ret.memWrites.trans (List.append_nil _), .inr ⟨cause, hcause, ret.results,
      outEvents, risingLevels_of_failedProbe outEvents, ret.sri⟩⟩

/-! ### The events of an operation that a reset event may cut short (R128, R136) -/

/-- From `s` to `t` the events of `es` were put on the pins, or only the first of them if the operation is over. -/
def Emits (s t : State) (es : List PinEvent) : Prop :=
  ∃ tr, t.hist.pins = s.hist.pins ++ tr ∧ tr.map PinRecord.event <+: es ∧
    (t.host.busy = true → tr.map PinRecord.event = es)

section

variable {s t : State} {es fs : List PinEvent}

theorem Emits.silent (h : t.hist.pins = s.hist.pins) : Emits s t [] :=
  ⟨[], by simp [h], List.prefix_rfl, fun _ => rfl⟩

theorem Emits.over (h : t.hist.pins = s.hist.pins) (idle : t.host.busy = false) : Emits s t es :=
  ⟨[], by simp [h], List.nil_prefix, by simp [idle]⟩

/-- Parts one after another: an operation that is over puts nothing more on the pins. -/
theorem Emits.step {k : State → State} (h : Emits s t es) (hk : Emits t (k t) fs)
    (hi : t.host.busy = false → k t = t) : Emits s (k t) (es ++ fs) := by
  obtain ⟨tr, pins, isPrefix, whole⟩ := h
  cases hb : t.host.busy
  · rw [hi hb]
    exact ⟨tr, pins, isPrefix.trans (List.prefix_append es fs), by simp [hb]⟩
  · obtain ⟨more, pins', isPrefix', whole'⟩ := hk
    refine ⟨tr ++ more, by rw [pins', pins, List.append_assoc], ?_, fun hb' => ?_⟩
    · rw [List.map_append, whole hb]
      exact (List.prefix_append_right_inj es).mpr isPrefix'
    · rw [List.map_append, whole hb, whole' hb']

end

section

variable (s : State)

theorem runMove_pins (m : Move) : (runMove s m).hist.pins = s.hist.pins := by
  cases m with
  | consumer =>
    obtain ⟨-, -, -, -, pins, -⟩ := runMove_frame s .consumer rfl
    exact pins
  | _ => rfl

theorem runGap_pins : (runGap s).hist.pins = s.hist.pins := by
  have moves (g : List Move) (u : State) : (g.foldl runMove u).hist.pins = u.hist.pins := by
    induction g generalizing u with
    | nil => rfl
    | cons m g ih => exact (ih (runMove u m)).trans (runMove_pins u m)
  unfold runGap
  split
  · rfl
  · exact moves _ _

theorem whileBusy_emits {f : State → State} {es : List PinEvent} (hf : ∀ s, Emits s (f s) es) :
    Emits s (whileBusy f s) es := by
  cases hb : s.host.busy
  · rw [whileBusy_of_idle _ _ hb]; exact .over rfl hb
  · rw [whileBusy_of_busy _ _ hb]; exact hf s

theorem pinEvent_emits (e : PinEvent) : Emits s (pinEvent e s) [e] := by
  have act (u : State) : Emits u (pinAct e u) [e] := ⟨[_], pinAct_pins u e, List.prefix_rfl, fun _ => rfl⟩
  exact whileBusy_emits s fun u => (Emits.silent (runGap_pins u)).step (k := whileBusy (pinAct e))
    (whileBusy_emits _ act) (whileBusy_of_idle _ _)

theorem sampleLine_emits : Emits s (sampleLine s).2 [.sample] := by
  cases hb : s.host.busy
  · rw [sampleLine_of_idle s hb]; exact .over rfl hb
  · rw [sampleLine_of_busy s hb]
    cases hg : (runGap s).host.busy
    · exact .over (runGap_pins s) hg
    · exact ⟨[_], by rw [if_pos rfl, sampleAct_pins, runGap_pins], List.prefix_rfl, fun _ => rfl⟩

/-- A part of an operation that is no pin event. -/
theorem update_emits {f : State → State} (hf : ∀ s, (f s).hist.pins = s.hist.pins) :
    Emits s (whileBusy f s) [] :=
  whileBusy_emits s fun u => .silent (hf u)

theorem sendBit_emits (p : PinEvent) : Emits s (sendBit p s) (clocked p) :=
  (((pinEvent_emits s p).step (pinEvent_emits _ (.sclk true)) (pinEvent_of_idle _ _)).step
    (pinEvent_emits _ (.sclk false)) (pinEvent_of_idle _ _)).step (k := countBit)
    (update_emits _ fun _ => rfl) (whileBusy_of_idle _ _)

theorem receiveBit_emits : Emits s (receiveBit s) [.sclk true, .sample, .sclk false] :=
  ((((pinEvent_emits s (.sclk true)).step (k := fun u => (sampleLine u).2) (sampleLine_emits _)
    (fun hb => by rw [sampleLine_of_idle _ hb])).step (k := shiftIn (sampleLine (pinEvent (.sclk true) s)).1)
    (update_emits _ fun _ => rfl) (whileBusy_of_idle _ _)).step
    (pinEvent_emits _ (.sclk false)) (pinEvent_of_idle _ _)).step (k := countBit)
    (update_emits _ fun _ => rfl) (whileBusy_of_idle _ _)

/-- The bits of a byte one after another. -/
theorem bits_emit {f : State → Nat → State} {es : Nat → List PinEvent} (hf : ∀ s i, Emits s (f s i) (es i))
    (hi : ∀ s i, s.host.busy = false → f s i = s) (is : List Nat) :
    Emits s (is.foldl f s) (is.flatMap es) ∧ (s.host.busy = false → is.foldl f s = s) := by
  induction is generalizing s with
  | nil => exact ⟨.silent rfl, fun _ => rfl⟩
  | cons i is ih =>
    obtain ⟨emits, idle⟩ := ih (f s i)
    refine ⟨(hf s i).step (k := fun u => is.foldl f u) emits idle, fun hb => ?_⟩
    rw [List.foldl_cons, hi s i hb]
    exact (ih s).2 hb

theorem sendByte_emits (b : Byte) : Emits s (sendByte b s) (clockingEvents b) := by
  have bits := (bits_emit s (fun s i => sendBit_emits s (presentBit b i)) (fun _ _ => sendBit_of_idle _) bitOrder).1
  exact bits.step (k := endByte) (update_emits _ fun _ => rfl) (whileBusy_of_idle _ _)

theorem serialReadByte_emits : Emits s (serialReadByte s) readEvents := by
  have start := (pinEvent_emits s .cfgInKeep).step (k := clearSr) (update_emits _ fun _ => rfl)
    (whileBusy_of_idle _ _)
  have bits := bits_emit (clearSr (pinEvent .cfgInKeep s)) (fun s _ => receiveBit_emits s)
    (fun _ _ => receiveBit_of_idle) bitOrder
  exact (start.step (k := fun u => bitOrder.foldl (fun u _ => receiveBit u) u) bits.1 bits.2).step (k := endByte)
    (update_emits _ fun _ => rfl) (whileBusy_of_idle _ _)

end

/-! ### The data pin moves while the clock is low (R136) -/

/-- Events that, begun with the clock low, move the data pin only while it is low, and leave it low. -/
def LowBlock (es : List PinEvent) : Prop :=
  ∀ rest, dataMovesWhileLow false (es ++ rest) = dataMovesWhileLow false rest

theorem LowBlock.nil : LowBlock [] := fun _ => rfl

theorem LowBlock.clocking (b : Byte) : LowBlock (clockingEvents b) := fun _ => rfl

theorem LowBlock.read : LowBlock readEvents := fun _ => rfl

theorem LowBlock.firstCheck : LowBlock [.cfgIn .up, .sample] := fun _ => rfl

theorem LowBlock.bothChecks : LowBlock probeEvents := fun _ => rfl

theorem LowBlock.append {es fs : List PinEvent} (h : LowBlock es) (g : LowBlock fs) : LowBlock (es ++ fs) :=
  fun rest => by rw [List.append_assoc, h, g]

theorem dataMovesWhileLow_of_append {clk : Bool} {es fs : List PinEvent}
    (h : dataMovesWhileLow clk (es ++ fs) = true) : dataMovesWhileLow clk es = true := by
  induction es generalizing clk with
  | nil => rfl
  | cons e es ih =>
    simp only [List.cons_append, dataMovesWhileLow, Bool.and_eq_true] at h ⊢
    exact ⟨h.1, ih h.2⟩

/-- From `s` to `t` such events were put on the pins, all of them or only the first. -/
def EmitsLow (s t : State) : Prop := ∃ es, LowBlock es ∧ Emits s t es

section

variable {s t : State}

theorem EmitsLow.silent (h : t.hist.pins = s.hist.pins) : EmitsLow s t := ⟨[], .nil, .silent h⟩

theorem EmitsLow.step {k : State → State} (h : EmitsLow s t) (hk : EmitsLow t (k t))
    (hi : t.host.busy = false → k t = t) : EmitsLow s (k t) := by
  obtain ⟨es, low, emits⟩ := h
  obtain ⟨fs, low', emits'⟩ := hk
  exact ⟨es ++ fs, low.append low', emits.step emits' hi⟩

theorem EmitsLow.dataMovesWhileLow (h : EmitsLow s t) {tr : List PinRecord}
    (pins : t.hist.pins = s.hist.pins ++ tr) : dataMovesWhileLow false (tr.map PinRecord.event) = true := by
  obtain ⟨es, low, tr', pins', ⟨rest, whole⟩, -⟩ := h
  obtain rfl := List.append_cancel_left (pins.symm.trans pins')
  have all := low []
  rw [← whole, List.append_assoc] at all
  exact dataMovesWhileLow_of_append all

theorem update_emitsLow (s : State) {f : State → State} (hf : ∀ s, (f s).hist.pins = s.hist.pins) :
    EmitsLow s (whileBusy f s) := ⟨[], .nil, update_emits s hf⟩

theorem probe_emitsLow (s : State) : EmitsLow s (probe s).2 := by
  have first := (pinEvent_emits s (.cfgIn .up)).step (k := fun u => (sampleLine u).2) (sampleLine_emits _)
    (fun hb => by rw [sampleLine_of_idle _ hb])
  have both := ((first.step (pinEvent_emits _ (.cfgOut false)) (pinEvent_of_idle _ _)).step
    (pinEvent_emits _ (.cfgIn .down)) (pinEvent_of_idle _ _)).step (k := fun u => (sampleLine u).2)
    (sampleLine_emits _) (fun hb => by rw [sampleLine_of_idle _ hb])
  unfold probe
  dsimp only
  split
  · exact ⟨_, .firstCheck, first⟩
  · split <;> exact ⟨_, .bothChecks, both⟩

theorem serialWriteByte_emitsLow (b : Byte) (done : Nat) (s : State) : EmitsLow s (serialWriteByte b done s) := by
  have probed := probe_emitsLow s
  unfold serialWriteByte
  dsimp only
  split
  · exact probed.step (k := sendByte b) ⟨_, .clocking b, sendByte_emits _ b⟩ (sendByte_of_idle b)
  · exact probed.step (k := whileBusy (takeBusNotIdle (probe s).1 done)) (update_emitsLow _ fun _ => rfl)
      (whileBusy_of_idle _ _)

theorem sendFrame_emitsLow (bs : List Byte) (done : Nat) (s : State) : EmitsLow s (sendFrame bs done s) := by
  induction bs generalizing done s with
  | nil => exact .silent rfl
  | cons b bs ih =>
    exact (serialWriteByte_emitsLow b done s).step (k := sendFrame bs (done + 1)) (ih _ _) (sendFrame_of_idle _ _)

theorem receiveBytes_emitsLow (n : Nat) (s : State) : EmitsLow s (receiveBytes n s).2 := by
  induction n generalizing s with
  | zero => exact .silent rfl
  | succ n ih =>
    have read : EmitsLow s (serialReadByte s) := ⟨_, .read, serialReadByte_emits s⟩
    exact read.step (k := fun u => (receiveBytes n u).2) (ih _) (receiveBytes_of_idle n)

theorem EmitsLow.finish (h : EmitsLow s t) (v : Value) : EmitsLow s (finishSri v t) :=
  h.step (k := finishSri v) (update_emitsLow _ fun _ => rfl) (whileBusy_of_idle _ _)

end

theorem SriBody.emitsLow {i : Instr} {body : State → State} (h : SriBody i body) (s : State) :
    EmitsLow s (body s) := by
  cases h with
  | probe => exact (probe_emitsLow s).finish _
  | byteOut _ b => exact (serialWriteByte_emitsLow b 0 s).finish _
  | byteIn => exact EmitsLow.finish ⟨_, .read, serialReadByte_emits s⟩ _
  | frame addr payload bytes =>
    exact ((sendFrame_emitsLow bytes 0 s).step (k := recordMemWrite (toAddr addr) (payload.map toByte))
      (update_emitsLow _ fun _ => rfl) (whileBusy_of_idle _ _)).finish _
  | read _ _ cmd n =>
    exact ((serialWriteByte_emitsLow cmd 0 s).step (k := fun u => (receiveBytes n u).2)
      (receiveBytes_emitsLow n _) (receiveBytes_of_idle n)).finish _

/-- Settles O41: probes and bytes begin and end with the clock low and move the pin only then; what a fault or a reset
event leaves of them is a first part. -/
theorem dataMovesOnlyWhileTheClockIsLow : Obligations.DataMovesOnlyWhileTheClockIsLow := by
  intro i s t tr hi _ he pins
  obtain ⟨check, body, hbody, hexec⟩ := exec_sri_form hi
  obtain rfl := Host.Outcome.next.inj ((hexec s).symm.trans he)
  have emits : EmitsLow s (issueSri (check s.cfg) body s) := by
    obtain ⟨r, refused⟩ | issued := issueSri_cases (check s.cfg) body s
    · rw [refused]; exact .silent rfl
    · rw [issued]; exact hbody.emitsLow s.issued
  exact emits.dataMovesWhileLow pins

end Sys2Proof.Machine
end

section
/-! The tuning word: what it is to be the nearest integer with a tie by `ROUND_TIE`, that the quotient of `TO_FTW` is so
rounded, and that such rounding is monotonic; then the statements of the family `41_ftw_payload.md` (R150 to R153). -/

namespace Sys2Proof.Machine

/-! ### The nearest integer (R150 step 2) -/

/-- `n` is the nearest integer to `x`, and at a tie the one that `tie` names. -/
structure IsNearest (tie : RoundTie) (x : Rat) (n : Int) : Prop where
  near   : |x - n| ≤ 1 / 2
  isEven : tie = .halfEven → |x - n| = 1 / 2 → n % 2 = 0
  isAway : tie = .halfAway → |x - n| = 1 / 2 → |x| ≤ |(n : Rat)|

theorem IsNearest.of_lt {x : Rat} {n : Int} (tie : RoundTie) (h : |x - n| < 1 / 2) : IsNearest tie x n :=
  ⟨h.le, fun _ tied => absurd tied h.ne, fun _ tied => absurd tied h.ne⟩

theorem isNearest_intCast (tie : RoundTie) (n : Int) : IsNearest tie n n := .of_lt tie (by norm_num)

theorem IsNearest.le_add_half {tie : RoundTie} {x : Rat} {n : Int} (h : IsNearest tie x n) : x ≤ n + 1 / 2 := by
  linarith [(abs_le.mp h.near).2]

theorem IsNearest.sub_half_le {tie : RoundTie} {x : Rat} {n : Int} (h : IsNearest tie x n) :
    (n : Rat) - 1 / 2 ≤ x := by
  linarith [(abs_le.mp h.near).1]

theorem abs_tie_sub_below (n : Int) : |(n + 1 / 2 : Rat) - n| = 1 / 2 := by norm_num

theorem abs_tie_sub_above (n : Int) : |(n + 1 / 2 : Rat) - (n + 1 : Int)| = 1 / 2 := by
  rw [abs_sub_comm, Int.cast_add, Int.cast_one, add_sub_add_left_eq_sub]
  norm_num

/-- `ROUND_TIE` sends a tie to one of its two sides only. -/
theorem IsNearest.not_both_sides {tie : RoundTie} {n : Int} (below : IsNearest tie (n + 1 / 2) n) :
    ¬ IsNearest tie (n + 1 / 2) (n + 1 : Int) := by
  intro above
  cases tie with
  | halfEven =>
    have := below.isEven rfl (abs_tie_sub_below n)
    have := above.isEven rfl (abs_tie_sub_above n)
    omega
  | halfAway =>
    have farBelow := sq_le_sq.mpr (below.isAway rfl (abs_tie_sub_below n))
    have farAbove := sq_le_sq.mpr (above.isAway rfl (abs_tie_sub_above n))
    push_cast at farAbove
    have negative : (n : Rat) < 0 := by linarith
    have aboveNegOne : ((-1 : Int) : Rat) < n := by push_cast; linarith
    have := Int.cast_lt_zero.mp negative
    have := Int.cast_lt.mp aboveNegOne
    omega

theorem IsNearest.mono {tie : RoundTie} {x y : Rat} {m n : Int} (hx : IsNearest tie x m) (hy : IsNearest tie y n)
    (le : x ≤ y) : m ≤ n := by
  by_contra! lt
  have cast : (n : Rat) + 1 ≤ m := by exact_mod_cast lt
  have low := hx.sub_half_le
  have high := hy.le_add_half
  obtain rfl : x = n + 1 / 2 := by linarith
  obtain rfl : y = n + 1 / 2 := by linarith
  obtain rfl : m = n + 1 := by exact_mod_cast (by linarith : (m : Rat) = n + 1)
  exact hy.not_both_sides hx

theorem isNearest_even (n : Int) : IsNearest .halfEven (n + 1 / 2) (if n % 2 = 0 then n else n + 1) := by
  split
  case isTrue even => exact ⟨(abs_tie_sub_below n).le, fun _ _ => even, nofun⟩
  case isFalse odd => exact ⟨(abs_tie_sub_above n).le, fun _ _ => by omega, nofun⟩

theorem isNearest_away (n : Int) : IsNearest .halfAway (n + 1 / 2) (if 0 ≤ n then n + 1 else n) := by
  split
  case isTrue nonneg =>
    have : (0 : Rat) ≤ n := Int.cast_nonneg nonneg
    refine ⟨(abs_tie_sub_above n).le, nofun, fun _ _ => ?_⟩
    push_cast
    rw [abs_of_nonneg (by linarith), abs_of_nonneg (by linarith)]
    linarith
  case isFalse negative =>
    have : (n : Rat) ≤ (-1 : Int) := Int.cast_le.mpr (by omega)
    push_cast at this
    refine ⟨(abs_tie_sub_below n).le, nofun, fun _ _ => ?_⟩
    rw [abs_of_nonpos (by linarith), abs_of_nonpos (by linarith)]
    linarith

/-! ### The quotient of TO_FTW -/

/-- `p / q` is its floor and the fraction the remainder makes of `q`. -/
theorem quotient_eq_floor_add (p : Int) {q : Int} (hq : 0 < q) : (p / q : Rat) = (p / q : Int) + (p % q : Int) / q := by
  have pos : (0 : Rat) < q := Int.cast_pos.mpr hq
  have division : (p : Rat) = q * (p / q : Int) + (p % q : Int) := by exact_mod_cast (Int.mul_ediv_add_emod p q).symm
  field_simp
  exact division

theorem roundQuotient_of_below (tie : RoundTie) {p q : Int} (h : 2 * (p % q) < q) : roundQuotient tie p q = p / q :=
  if_pos h

theorem roundQuotient_of_above (tie : RoundTie) {p q : Int} (h : q < 2 * (p % q)) :
    roundQuotient tie p q = p / q + 1 :=
  (if_neg h.not_gt).trans (if_pos h)

theorem roundQuotient_halfEven_of_tie {p q : Int} (h : 2 * (p % q) = q) :
    roundQuotient .halfEven p q = if p / q % 2 = 0 then p / q else p / q + 1 :=
  (if_neg h.not_lt).trans (if_neg h.not_gt)

theorem roundQuotient_halfAway_of_tie {p q : Int} (h : 2 * (p % q) = q) :
    roundQuotient .halfAway p q = if 0 ≤ p then p / q + 1 else p / q :=
  (if_neg h.not_lt).trans (if_neg h.not_gt)

theorem isNearest_roundQuotient (tie : RoundTie) (p : Int) {q : Int} (hq : 0 < q) :
    IsNearest tie (p / q) (roundQuotient tie p q) := by
  have pos : (0 : Rat) < q := Int.cast_pos.mpr hq
  have nonneg : (0 : Rat) ≤ (p % q : Int) / q := div_nonneg (Int.cast_nonneg (Int.emod_nonneg p hq.ne')) pos.le
  have ltOne : ((p % q : Int) / q : Rat) < 1 := (div_lt_one pos).mpr (Int.cast_lt.mpr (Int.emod_lt_of_pos p hq))
  rw [quotient_eq_floor_add p hq]
  obtain below | tied | above := lt_trichotomy (2 * (p % q)) q
  · have small : ((p % q : Int) / q : Rat) < 1 / 2 := by
      rw [div_lt_div_iff₀ pos two_pos]
      exact_mod_cast (by omega : p % q * 2 < 1 * q)
    rw [roundQuotient_of_below tie below]
    exact .of_lt tie (abs_lt.mpr ⟨by linarith, by linarith⟩)
  · have half : ((p % q : Int) / q : Rat) = 1 / 2 := by
      rw [div_eq_div_iff pos.ne' two_ne_zero]
      exact_mod_cast (by omega : p % q * 2 = 1 * q)
    rw [half]
    cases tie with
    | halfEven =>
      rw [roundQuotient_halfEven_of_tie tied]
      exact isNearest_even _
    | halfAway =>
      rw [roundQuotient_halfAway_of_tie tied, if_congr (Int.ediv_nonneg_iff_of_pos hq).symm rfl rfl]
      exact isNearest_away _
  · have large : (1 / 2 : Rat) < (p % q : Int) / q := by
      rw [div_lt_div_iff₀ two_pos pos]
      exact_mod_cast (by omega : 1 * q < p % q * 2)
    rw [roundQuotient_of_above tie above]
    refine .of_lt tie (abs_lt.mpr ⟨?_, ?_⟩) <;> push_cast <;> linarith

/-- The exact quotient of R150 step 1. -/
def exactFtw (freq sysclk : Rat) : Rat := freq * 2 ^ 32 / sysclk

theorem exactFtw_eq_fraction (freq sysclk : Rat) :
    exactFtw freq sysclk = (freq.num * 4294967296 * sysclk.den : Int) / (freq.den * sysclk.num : Int) := by
  unfold exactFtw
  conv_lhs => rw [← Rat.num_div_den freq, ← Rat.num_div_den sysclk]
  push_cast
  rw [div_mul_eq_mul_div, div_div_div_eq]
  norm_num

theorem exactFtw_mono {f1 f2 sysclk : Rat} (hc : 0 < sysclk) (h : f1 ≤ f2) :
    exactFtw f1 sysclk ≤ exactFtw f2 sysclk := by
  unfold exactFtw
  gcongr

theorem toNat_toWord (v : Int) : ((toWord v).toNat : Int) = v % 2 ^ 32 := by
  rw [toWord, BitVec.toNat_ofInt, Int.toNat_of_nonneg (Int.emod_nonneg _ (by decide))]
  rfl

/-- The tuning word is the nearest integer to the exact quotient, reduced modulo `2^32`. -/
theorem ftwValue_isNearest (tie : RoundTie) (freq : Rat) {sysclk : Rat} (hc : 0 < sysclk) :
    ∃ n : Int, IsNearest tie (exactFtw freq sysclk) n ∧ ((ftwValue tie freq sysclk).toNat : Int) = n % 2 ^ 32 := by
  have pos : 0 < freq.den * sysclk.num := mul_pos (Int.natCast_pos.mpr freq.pos) (Rat.num_pos.mpr hc)
  exact ⟨_, exactFtw_eq_fraction freq sysclk ▸ isNearest_roundQuotient tie _ pos, toNat_toWord _⟩

/-- Where the nearest integer lies in 32 bits it is the tuning word (R151). -/
theorem ftwValue_isNearest_of_bounds (tie : RoundTie) {freq sysclk : Rat} (hc : 0 < sysclk)
    (low : -(1 / 2) < exactFtw freq sysclk) (high : exactFtw freq sysclk < 2 ^ 32 - 1 / 2) :
    IsNearest tie (exactFtw freq sysclk) (ftwValue tie freq sysclk).toNat := by
  obtain ⟨n, nearest, value⟩ := ftwValue_isNearest tie freq hc
  have fromBelow : ((-1 : Int) : Rat) < n := by push_cast; linarith [nearest.le_add_half]
  have fromAbove : (n : Rat) < (2 ^ 32 : Int) := by push_cast; linarith [nearest.sub_half_le]
  have := Int.cast_lt.mp fromBelow
  have := Int.cast_lt.mp fromAbove
  rwa [value, Int.emod_eq_of_lt (by omega) (by omega)]

/-! ### What TO_FTW and FTW_BYTES return -/

theorem exec_toFtw_returns (freq : Rat) {sysclk : Rat} (hc : 0 < sysclk) (s : State) :
    exec (.toFtw freq sysclk) s = .next (returnOk (.word (ftwValue s.cfg.roundTie freq sysclk)) s) :=
  execToFtw_returns freq (not_le.mpr (Rat.num_pos.mpr hc)) s

/-- When TO_FTW returns a word, it is the tuning word. -/
theorem eq_ftwValue_of_exec {s : State} {freq sysclk : Rat} {w : Word} (hc : 0 < sysclk)
    (h : exec (.toFtw freq sysclk) s = .next (returnOk (.word w) s)) : w = ftwValue s.cfg.roundTie freq sysclk := by
  have same := Host.Outcome.next.inj (h.symm.trans (exec_toFtw_returns freq hc s))
  simpa [returnOk] using congrArg (·.host.results) same

theorem exec_ftwBytes_refused {ftw : Int} (h : wordOk ftw = false) (s : State) :
    exec (.ftwBytes ftw) s = .next (refuse .operandRange s) := by
  change execFtwBytes ftw s = _
  rw [execFtwBytes, if_pos h]

/-- A word is the sum of its four bytes at their weights (R98). -/
theorem toNat_eq_sum_bytes (w : Word) :
    w.toNat = (w.extractLsb' 24 8).toNat * 2 ^ 24 + (w.extractLsb' 16 8).toNat * 2 ^ 16 +
      (w.extractLsb' 8 8).toNat * 2 ^ 8 + (w.extractLsb' 0 8).toNat := by
  simp only [BitVec.extractLsb'_toNat, Nat.shiftRight_eq_div_pow]
  omega

/-! ### The statements -/

/-- Settles O44: the two cases of ROUND_TIE are the two tie fields of `IsNearest`. -/
theorem toFtwIsTheNearestInteger : Obligations.ToFtwIsTheNearestInteger := by
  intro s freq sysclk
  refine ⟨fun hc => ?_, fun hc => execToFtw_refused freq (Rat.num_nonpos.mpr hc) s⟩
  obtain ⟨n, nearest, value⟩ := ftwValue_isNearest s.cfg.roundTie freq hc
  refine ⟨n, _, exec_toFtw_returns freq hc s, value, nearest.near, fun tied => ?_⟩
  split
  · next even => exact nearest.isEven even tied
  · next away => exact nearest.isAway away tied

/-- Settles O45: neither word wraps below the Nyquist bound, and rounding is monotonic. -/
theorem tuningWordIsMonotonic : Obligations.TuningWordIsMonotonic := by
  intro s f1 f2 sysclk w1 w2 nonneg le nyquist h1 h2
  have hc : 0 < sysclk := by linarith
  obtain rfl := eq_ftwValue_of_exec hc h1
  obtain rfl := eq_ftwValue_of_exec hc h2
  have low : 0 ≤ exactFtw f1 sysclk := by unfold exactFtw; positivity
  have mono := exactFtw_mono hc le
  have high : exactFtw f2 sysclk < 2 ^ 31 := by
    rw [exactFtw, div_lt_iff₀ hc]
    linarith
  have word1 := ftwValue_isNearest_of_bounds s.cfg.roundTie hc (low.trans_lt' (by norm_num)) (by linarith)
  have word2 := ftwValue_isNearest_of_bounds s.cfg.roundTie hc (freq := f2) (by linarith) (by linarith)
  exact Int.ofNat_le.mp (word1.mono word2 mono)

/-- Settles O46: a word that does not wrap is within a half of the exact quotient, and `fstep` scales that half; at
`sysclk / 2` the quotient is the integer `2^31`. -/
theorem tuningWordRoundTrip : Obligations.TuningWordRoundTrip := by
  intro s freq sysclk w hc h
  obtain rfl := eq_ftwValue_of_exec hc h
  refine ⟨fun low high => ?_, ?_⟩
  · have word := ftwValue_isNearest_of_bounds s.cfg.roundTie hc low high
    set n := (ftwValue s.cfg.roundTie freq sysclk).toNat
    have scaled : (n : Rat) * sysclk / 2 ^ 32 - freq = sysclk / 2 ^ 32 * (n - exactFtw freq sysclk) := by
      unfold exactFtw
      field_simp
    have near : |(n : Rat) - exactFtw freq sysclk| ≤ 1 / 2 := by simpa [abs_sub_comm] using word.near
    calc |(n : Rat) * sysclk / 2 ^ 32 - freq|
        = sysclk / 2 ^ 32 * |(n : Rat) - exactFtw freq sysclk| := by rw [scaled, abs_mul, abs_of_pos (by positivity)]
      _ ≤ sysclk / 2 ^ 32 * (1 / 2) := by gcongr
      _ = sysclk / 2 ^ 32 / 2 := by ring
  · rintro rfl
    have quotient : exactFtw (sysclk / 2) sysclk = (2 ^ 31 : Int) := by
      unfold exactFtw
      field_simp
      norm_num
    have word := ftwValue_isNearest_of_bounds s.cfg.roundTie (freq := sysclk / 2) hc
      (by rw [quotient]; norm_num) (by rw [quotient]; norm_num)
    have power := isNearest_intCast s.cfg.roundTie (2 ^ 31)
    rw [quotient] at word
    have atMost := word.mono power le_rfl
    have atLeast := power.mono word le_rfl
    apply BitVec.eq_of_toNat_eq
    change _ = 2 ^ 31
    omega

/-- Settles O47: an operand in range is a word, and a word is the sum of its bytes. -/
theorem ftwBytesAreBigEndian : Obligations.FtwBytesAreBigEndian := by
  intro s ftw
  refine ⟨fun nonneg small => ?_, fun out => exec_ftwBytes_refused ?_ s⟩
  · obtain ⟨w, rfl⟩ : ∃ w : Word, ftw = w.toNat :=
      ⟨toWord ftw, by rw [toNat_toWord, Int.emod_eq_of_lt nonneg small]⟩
    exact ⟨_, _, _, _, execFtwBytes_toNat w s, by exact_mod_cast toNat_eq_sum_bytes w⟩
  · simp only [wordOk, inRange, Bool.and_eq_false_iff, decide_eq_false_iff_not]
    omega

end Sys2Proof.Machine
end

section
/-! The CONSUMER instruction of each STATE, PUSH, `Shift()`, when an underrun is recorded, and what a step keeps of the
emission law, with the statements of the family `42_streamer.md`. -/

namespace Sys2Proof.Machine

/-! ### The CONSUMER instruction of a STATE (R101, R165) -/

/-- The instruction of the `ST2` row of a state (R101). -/
def StreamState.instr : StreamState → Instr
  | .waitILow => .cWaitILow
  | .shiftI => .cShiftI
  | .waitQHigh => .cWaitQHigh
  | .shiftQ => .cShiftQ

/-- What that instruction does when it is selected (R166 to R169). -/
def StreamState.run : StreamState → State → State
  | .waitILow => stepWaitILow
  | .shiftI => stepShiftI
  | .waitQHigh => stepWaitQHigh
  | .shiftQ => stepShiftQ

theorem decode_stateCode (st : StreamState) : decode ⟨.st2, st.code.setWidth 8, []⟩ = .instr st.instr := by
  cases st <;> rfl

theorem exec_instr (st : StreamState) (s : State) : exec st.instr s = .next (whenSelected st st.run s) := by
  cases st <;> rfl

theorem exec_instr_selected {st : StreamState} {s : State} (ha : s.iqs.active = true) (hs : s.iqs.state = st) :
    exec st.instr s = .next (st.run s) := by
  rw [exec_instr, whenSelected, if_pos ⟨ha, hs⟩]

theorem exec_instr_inactive (st : StreamState) {s : State} (ha : s.iqs.active = false) :
    exec st.instr s = .next s := by
  rw [exec_instr, whenSelected, if_neg (by simp [ha])]

/-- CONSUMER's turn is the instruction of its STATE, in every state. -/
theorem exec_instr_state (s : State) : exec s.iqs.state.instr s = .next (consumerStep s) := by
  rw [exec_instr, consumerStep]
  cases s.iqs.state <;> rfl

theorem IsConsumerStep.eq_instr {i : Instr} (hi : IsConsumerStep i) : ∃ st : StreamState, i = st.instr := by
  obtain rfl | rfl | rfl | rfl := hi
  · exact ⟨.waitILow, rfl⟩
  · exact ⟨.shiftI, rfl⟩
  · exact ⟨.waitQHigh, rfl⟩
  · exact ⟨.shiftQ, rfl⟩

/-- A CONSUMER instruction does nothing, or STATE selects it and it is CONSUMER's turn. -/
theorem exec_consumer_selected {i : Instr} {s t : State} (hi : IsConsumerStep i) (he : exec i s = .next t) :
    t = s ∨ i = s.iqs.state.instr ∧ t = consumerStep s := by
  obtain ⟨st, rfl⟩ := hi.eq_instr
  by_cases hs : s.iqs.state = st
  · subst hs
    exact .inr ⟨rfl, Host.Outcome.next.inj (he.symm.trans (exec_instr_state s))⟩
  · rw [exec_instr, whenSelected, if_neg fun h => hs h.2] at he
    exact .inl (Host.Outcome.next.inj he).symm

/-- Settles O10: the code of STATE decodes to the instruction of STATE, which is CONSUMER's turn. -/
theorem stepRunsTheSelectedConsumerStep : Obligations.StepRunsTheSelectedConsumerStep := by
  refine ⟨fun s => ⟨consumerStep_inactive s, fun _ i hdec => ?move⟩,
    fun s ts hturns => ⟨fun ha => ?halted, fun ha => ⟨fun i hdec => ?turn, ?codes⟩⟩⟩
  case move =>
    obtain rfl := Decoded.instr.inj ((decode_stateCode _).symm.trans hdec)
    exact exec_instr_state s
  case halted => rw [step_of_turn hturns, runTurn, consumerTurn, if_neg (by simp [ha])]
  case turn =>
    rw [step_of_turn hturns, runTurn, consumerTurn, if_pos ha]
    exact runRequest_of_decode _ hdec
  case codes =>
    rw [decode_stateCode]
    cases s.iqs.state <;> rfl

/-- Settles O23: in the state that selects it a WAIT step is the test of PCLK. -/
theorem waitStepsTestTheLevel : Obligations.WaitStepsTestTheLevel := by
  intro s ha
  exact ⟨exec_instr_selected ha, exec_instr_selected ha⟩

/-! ### PUSH (R160, R161) -/

theorem wordOk_iff {w : Int} : wordOk w = true ↔ 0 ≤ w ∧ w < 2 ^ 32 := by
  simp only [wordOk, inRange, Bool.and_eq_true, decide_eq_true_eq]
  omega

theorem exec_push_full {w : Int} {s : State} (nonneg : 0 ≤ w) (small : w < 2 ^ 32) (full : s.iqs.level = 8) :
    exec (.push w) s = .next { s with host.held := some (BitVec.ofInt 32 w) } :=
  execPush_held (wordOk_iff.mpr ⟨nonneg, small⟩) (by simp [full])

/-- Settles O17: the three ways a PUSH is answered. -/
theorem pushAppendsAtTheTail : Obligations.PushAppendsAtTheTail := by
  refine fun s w => ⟨fun nonneg small room => ?_, exec_push_full, fun out => execPush_refused s ?_⟩
  · exact execPush_stored (wordOk_iff.mpr ⟨nonneg, small⟩) room
  · rw [Bool.eq_false_iff, ne_eq, wordOk_iff]
    omega

theorem hostTurn_of_held {s : State} {w : Word} (hheld : s.host.held = some w) :
    hostTurn s = exec (.push w.toNat) s := by
  rw [hostTurn, hheld]

/-- A held PUSH tried again while the queue is full is held as it was (R161). -/
theorem exec_push_still_held {s : State} {w : Word} (hheld : s.host.held = some w) (full : s.iqs.level = 8) :
    exec (.push w.toNat) s = .next s := by
  obtain ⟨nonneg, small⟩ := wordOk_iff.mp (wordOk_toNat w)
  have same : BitVec.ofInt 32 w.toNat = w := toWord_toNat w
  rw [exec_push_full nonneg small full, same, ← hheld]

/-- Settles O12: HOST's turn while it is held is the PUSH of the held word, held again or stored. -/
theorem heldPushWaitsForRoom : Obligations.HeldPushWaitsForRoom := by
  refine fun s => ⟨fun w => exec_push_full, fun w ts hheld hturns => ?_⟩
  have retried : step s = exec (.push w.toNat) { s with sched.turns := ts } :=
    (step_of_turn hturns).trans (hostTurn_of_held hheld)
  rw [retried]
  exact ⟨exec_push_still_held (s := { s with sched.turns := ts }) hheld,
    exec_push_toNat (s := { s with sched.turns := ts })⟩

/-! ### ACTIVATE, DEACTIVATE and RESET_STREAMER (R162, R164, R184) -/

/-- Settles O18: the meaning of ACTIVATE is that write and the return. -/
theorem activateWritesActiveAlone : Obligations.ActivateWritesActiveAlone := fun _ => rfl

/-- Settles O19: none of the four CONSUMER instructions is selected while ACTIVE = 0. -/
theorem deactivateHaltsTheConsumer : Obligations.DeactivateHaltsTheConsumer :=
  ⟨fun _ => rfl, fun s ha => ⟨exec_instr_inactive .waitILow ha, exec_instr_inactive .shiftI ha,
    exec_instr_inactive .waitQHigh ha, exec_instr_inactive .shiftQ ha, consumerStep_inactive s ha⟩⟩

/-- Settles O22: the meaning of RESET_STREAMER is those writes and the return. -/
theorem resetStreamerWritesTheStreamerAlone : Obligations.ResetStreamerWritesTheStreamerAlone := fun _ => rfl

/-! ### `Shift()` (R170, R171) -/

theorem saturatingSucc_eq_min (c : Word) : saturatingSucc c = BitVec.ofNat 32 (min (c.toNat + 1) 0xFFFFFFFF) := by
  unfold saturatingSucc
  split
  · next top => rw [top]; rfl
  · next notTop =>
    have below : c.toNat ≠ 0xFFFFFFFF := fun h => notTop (BitVec.eq_of_toNat_eq h)
    have room : c.toNat + 1 ≤ 0xFFFFFFFF := by omega
    rw [Nat.min_eq_left room, BitVec.ofNat_add, BitVec.ofNat_toNat, BitVec.setWidth_eq]
    rfl

/-- The first step of a starvation (R170 step 1). -/
theorem starve_of_fed {q : Iqs} (h : q.starved = false) :
    q.starve = { q with
      starved := true, underrun := true,
      underrunCount := BitVec.ofNat 32 (min (q.underrunCount.toNat + 1) 0xFFFFFFFF) } := by
  rw [Iqs.starve, if_neg (by simp [h]), saturatingSucc_eq_min]

/-- A SHIFT step of a machine starved before changes nothing (R172). -/
theorem shiftStep_still_starved (l : Lane) (n : StreamState) {s : State} (hc : s.iqs.osrCnt = 0)
    (hl : s.iqs.level = 0) (hst : s.iqs.starved = true) : shiftStep l n s = s := by
  rw [shiftStep_stalls l n hc hl, starve_of_starved _ hst]

theorem shiftStep_first_starved (l : Lane) (n : StreamState) {s : State} (hc : s.iqs.osrCnt = 0)
    (hl : s.iqs.level = 0) (hst : s.iqs.starved = false) :
    shiftStep l n s = { s with
      iqs.starved := true
      iqs.underrun := true
      iqs.underrunCount := BitVec.ofNat 32 (min (s.iqs.underrunCount.toNat + 1) 0xFFFFFFFF) } := by
  rw [shiftStep_stalls l n hc hl, starve_of_fed hst]

/-- `NextNibble` and `Advance` written out for each order (R171). -/
theorem nibble_and_rest {o : NibbleOrder} {word rest : Word} {nibble : Nibble}
    (h : o = .lsnFirst ∧ nibble = word.extractLsb' 0 4 ∧ rest = word >>> 4 ∨
      o = .msnFirst ∧ nibble = word.extractLsb' 28 4 ∧ rest = word <<< 4) :
    nibble = nextNibble o word ∧ rest = advance o word := by
  obtain ⟨rfl, rfl, rfl⟩ | ⟨rfl, rfl, rfl⟩ := h <;> exact ⟨rfl, rfl⟩

/-- Settles O24: the SHIFT step STATE selects stalls, or emits from `OSR` or from the word it dequeues. -/
theorem shiftStepsEmitOneNibble : Obligations.ShiftStepsEmitOneNibble := by
  refine ⟨pinMapped_identity, fun s i lane next ha which => ?_⟩
  have shifts : exec i s = .next (shiftStep lane next s) := by
    obtain ⟨hs, rfl, rfl, rfl⟩ | ⟨hs, rfl, rfl, rfl⟩ := which
    · exact exec_instr_selected ha hs
    · exact exec_instr_selected ha hs
  rw [shifts]
  refine ⟨fun hc hl hst => ?still, fun hc hl hst => ?first,
    fun word count rd level source nibble rest form => ?emits⟩
  case still => rw [shiftStep_still_starved _ _ hc hl hst]
  case first => rw [shiftStep_first_starved _ _ hc hl hst]
  case emits =>
    obtain ⟨rfl, rfl⟩ := nibble_and_rest form
    obtain ⟨hc, rfl, rfl, rfl, rfl⟩ | ⟨hc, hl, rfl, rfl, rfl, rfl⟩ := source
    · rw [shiftStep_emits _ _ hc]; rfl
    · rw [shiftStep_dequeues _ _ hc hl]; rfl

/-- Settles O21: the flag alone is written, and a SHIFT step of a machine still starved changes nothing. -/
theorem clearUnderrunClearsTheFlagAlone : Obligations.ClearUnderrunClearsTheFlagAlone := by
  refine fun s => ⟨rfl, fun hst hc hl => ?_⟩
  refine congrArg Host.Outcome.next ?_
  obtain e | ⟨-, -, e⟩ := whenSelected_cases .shiftI stepShiftI { s with iqs.underrun := false }
  · exact e
  · exact e.trans (shiftStep_still_starved _ _ hc hl hst)

/-! ### When an underrun is recorded (R172, R186) -/

/-- From `s` to `t` no underrun is recorded and no starvation begins. -/
structure NoUnderrun (s t : State) : Prop where
  flag    : t.iqs.underrun = s.iqs.underrun
  count   : t.iqs.underrunCount = s.iqs.underrunCount
  starved : t.iqs.starved = true → s.iqs.starved = true

theorem NoUnderrun.refl (s : State) : NoUnderrun s s := ⟨rfl, rfl, id⟩

/-- A SHIFT step misses a nibble: it finds none in `OSR` and none in the queue, and the starvation is a new one. -/
def Missing (q : Iqs) : Prop := q.osrCnt = 0 ∧ q.level = 0 ∧ q.starved = false

theorem waitStep_noUnderrun (b : Bool) (n : StreamState) (s : State) : NoUnderrun s (waitStep b n s) := by
  unfold waitStep
  split <;> exact ⟨rfl, rfl, id⟩

theorem shiftStep_noUnderrun (l : Lane) (n : StreamState) (s : State) :
    NoUnderrun s (shiftStep l n s) ∨ Missing s.iqs := by
  obtain ⟨hc, hl, -⟩ | ⟨q, ⟨-, -, rfl⟩ | ⟨-, rfl⟩, e⟩ := shiftStep_cases l n s
  · cases hst : s.iqs.starved
    case false => exact .inr ⟨hc, hl, hst⟩
    case true => rw [shiftStep_still_starved l n hc hl hst]; exact .inl (.refl s)
  · rw [e]; exact .inl ⟨rfl, rfl, by simp⟩
  · rw [e]; exact .inl ⟨rfl, rfl, by simp⟩

theorem consumerStep_noUnderrun (s : State) :
    NoUnderrun s (consumerStep s) ∨
    s.iqs.active = true ∧ (s.iqs.state = .shiftI ∨ s.iqs.state = .shiftQ) ∧ Missing s.iqs := by
  cases ha : s.iqs.active
  · rw [consumerStep_inactive s ha]; exact .inl (.refl s)
  · obtain ⟨hs, e⟩ | ⟨hs, e⟩ | ⟨hs, e⟩ | ⟨hs, e⟩ := consumerStep_cases s ha <;> rw [e]
    · exact .inl (waitStep_noUnderrun _ _ s)
    · exact (shiftStep_noUnderrun .i .waitQHigh s).imp_right fun missing => ⟨rfl, .inl hs, missing⟩
    · exact .inl (waitStep_noUnderrun _ _ s)
    · exact (shiftStep_noUnderrun .q .waitILow s).imp_right fun missing => ⟨rfl, .inr hs, missing⟩

/-- Settles O27: with a word in the queue no SHIFT step misses a nibble. -/
theorem nonEmptyQueueNeverUnderruns : Obligations.NonEmptyQueueNeverUnderruns := by
  intro i s t hi hlevel he
  have clean : NoUnderrun s t := by
    obtain rfl | rfl := exec_consumer hi he
    · exact .refl t
    · obtain h | ⟨-, -, -, empty, -⟩ := consumerStep_noUnderrun s
      · exact h
      · omega
  exact ⟨clean.flag, clean.count, clean.starved⟩

/-- From `s` to `t` an underrun is recorded: the flag is set or the count raised. -/
def Underran (s t : State) : Prop :=
  t.iqs.underrun = true ∧ s.iqs.underrun = false ∨ s.iqs.underrunCount.toNat < t.iqs.underrunCount.toNat

/-- Where the flag is at most cleared and the count not raised, no underrun is recorded. -/
theorem not_underran {s t : State} (flag : t.iqs.underrun = true → s.iqs.underrun = true)
    (count : t.iqs.underrunCount.toNat ≤ s.iqs.underrunCount.toNat) : ¬ Underran s t := by
  rintro (⟨set, unset⟩ | raised)
  · simp [flag set] at unset
  · omega

theorem NoUnderrun.not_underran {s t : State} (h : NoUnderrun s t) : ¬ Underran s t :=
  Machine.not_underran (fun set => h.flag ▸ set) (by rw [h.count])

/-- `OSR` runs out between words only, which is in the I half of the cycle (R40 (a)). -/
theorem consumerStep_underran {s : State} (inv : StreamInv s) (h : Underran s (consumerStep s)) :
    s.iqs.active = true ∧ s.iqs.state = .shiftI ∧ Missing s.iqs := by
  obtain clean | ⟨ha, hs | hs, missing⟩ := consumerStep_noUnderrun s
  · exact absurd h clean.not_underran
  · exact ⟨ha, hs, missing⟩
  · have parity := inv.parity
    obtain ⟨hc, -⟩ := missing
    simp [hc, hs, StreamState.parity] at parity

/-- Settles O25: of the operations outside the SRI and of the moves only CONSUMER's turn can record an underrun, and
only in a `SHIFT_I` step that misses a nibble. -/
theorem underrunOnlyWhenANibbleIsMissing : Obligations.UnderrunOnlyWhenANibbleIsMissing := by
  refine fun s inv => ⟨fun ha hs hc hl hst => ?first, fun i t hi he under => ?instruction, fun m under => ?move⟩
  case first =>
    exact (exec_instr_selected ha hs).trans (congrArg _ (shiftStep_first_starved _ _ hc hl hst))
  case instruction =>
    cases exec_streamerChange hi he with
    | flags a u unset iqs _ => exact absurd under (not_underran (by rw [iqs]; exact unset) (by rw [iqs]))
    | push w _ iqs _ => exact absurd under (not_underran (by rw [iqs]; exact id) (by rw [iqs]; exact le_rfl))
    | restart _ iqs _ => exact absurd under (not_underran (by simp [iqs, Iqs.restarted]) (by simp [iqs, Iqs.restarted]))
    | consume instr _ =>
      obtain rfl | ⟨rfl, rfl⟩ := exec_consumer_selected instr he
      · exact absurd under (NoUnderrun.refl t).not_underran
      · obtain ⟨ha, hs, missing⟩ := consumerStep_underran inv under
        exact ⟨by rw [hs, StreamState.instr], ha, hs, missing⟩
  case move =>
    cases m with
    | consumer => exact ⟨rfl, consumerStep_underran inv under⟩
    | ext _ | pclk _ => exact absurd under (not_underran id le_rfl)
    | reset =>
      have cleared := resetEvent_streamer s
      exact absurd under (not_underran (by simp [runMove, cleared.underrun]) (by simp [runMove, cleared.underrunCount]))

/-! ### The emission law (R174) -/

/-- Every move of the other agents keeps the streamer's invariant and the emission law, the reset event among them. -/
theorem emission_side : StreamerSide (fun _ => true) fun s => StreamInv s ∧ EmissionLaw s where
  congr _ _ cfg iqs pushed emitted _ := fun ⟨inv, law⟩ => ⟨inv.congr iqs, law.congr iqs cfg pushed emitted⟩
  move _ m _ := fun ⟨inv, law⟩ => ⟨inv.runMove m, law.runMove inv m⟩

theorem EmissionLaw.of_change {i : Instr} {s t : State} (law : EmissionLaw s) (inv : StreamInv s)
    (cfg : t.cfg = s.cfg) (c : StreamerChange i s t) : EmissionLaw t := by
  cases c with
  | flags a u _ iqs hist =>
    have flagged : EmissionLaw { s with iqs.active := a, iqs.underrun := u } := ⟨law.nibbles, law.lanes⟩
    exact flagged.congr iqs cfg (by rw [hist]) (by rw [hist])
  | push w room iqs hist => exact (law.enqueue inv room w).congr iqs cfg (by rw [hist]) (by rw [hist])
  | restart _ iqs hist =>
    have cleared : StreamerAtReset t.iqs := iqs ▸ restarted_atReset s.iqs
    exact cleared.emissionLaw (by rw [hist]; rfl) (by rw [hist]; rfl)
  | consume _ turn => rw [turn]; exact law.consumerStep inv

theorem exec_keeps_emissionLaw {i : Instr} {s t : State} (inv : StreamInv s) (law : EmissionLaw s)
    (he : exec i s = .next t) : EmissionLaw t := by
  cases hi : isSri i
  case false =>
    obtain ⟨-, cfg, -⟩ := exec_outside_sri hi he
    exact law.of_change inv cfg (exec_streamerChange hi he)
  case true =>
    obtain ⟨-, kept⟩ := emission_side.exec hi (by simp [gapsAll]) ⟨inv, law⟩ he
    exact kept

/-- Settles O55: a step is nothing, one instruction or one move (`step_cases`), and each keeps the emission law; the law
says what is missing between what was written and the slots of the words pushed. -/
theorem emissionLawOfEveryStep : Obligations.EmissionLawOfEveryStep := by
  intro s t inv law hstep
  obtain ⟨u, cfg, -, iqs, -, hist, -, -, -, -, what⟩ := step_cases hstep
  replace inv : StreamInv u := inv.congr iqs
  replace law : EmissionLaw u := law.congr iqs cfg (by rw [hist]) (by rw [hist])
  have kept : EmissionLaw t := by
    obtain rfl | ⟨i, he, -⟩ | ⟨m, -, -, rfl⟩ := what
    · exact law
    · exact exec_keeps_emissionLaw inv law he
    · exact law.runMove inv m
  exact ⟨kept, _, kept.nibbles⟩

end Sys2Proof.Machine
end

section
/-! The packer's data: a nibble, a byte and a word as sums of their parts, the words assembled from packed bytes and their
slots in order of emission; and what QCLIP, PACK and ASSEMBLE_WORD return (`43_packer.md`). -/

namespace Sys2Proof.Machine

/-! ### Nibbles and packed bytes (R97, R202, R203) -/

theorem inRange_iff {lo hi v : Int} : inRange lo hi v = true ↔ lo ≤ v ∧ v ≤ hi := by
  simp [inRange]

theorem toNibble_toNat (n : Nibble) : toNibble n.toNat = n := by
  rw [toNibble, BitVec.ofInt_natCast, BitVec.ofNat_toNat, BitVec.setWidth_eq]

theorem toByte_toNat (b : Byte) : toByte b.toNat = b := by
  rw [toByte, BitVec.ofInt_natCast, BitVec.ofNat_toNat, BitVec.setWidth_eq]

theorem nibbleOk_toNat (n : Nibble) : nibbleOk n.toNat = true := inRange_iff.mpr (by omega)

theorem toNat_toNibble {v : Int} (low : 0 ≤ v) (high : v ≤ 15) : ((toNibble v).toNat : Int) = v := by
  rw [toNibble, BitVec.toNat_ofInt]
  omega

theorem toNat_toByte {v : Int} (low : 0 ≤ v) (high : v ≤ 255) : ((toByte v).toNat : Int) = v := by
  rw [toByte, BitVec.toNat_ofInt]
  omega

theorem unpackByte_toNat (b : Byte) :
    (unpackByte b).1.toNat = b.toNat % 16 ∧ (unpackByte b).2.toNat = b.toNat / 16 := by
  simp only [unpackByte, BitVec.extractLsb'_toNat, Nat.shiftRight_eq_div_pow]
  omega

@[simp] theorem unpackByte_packByte (i q : Nibble) : unpackByte (packByte i q) = (i, q) := by
  revert i q; decide

@[simp] theorem packByte_unpackByte (b : Byte) : packByte (unpackByte b).1 (unpackByte b).2 = b := by
  revert b; decide

/-- The two fields of a packed byte do not overlap. -/
theorem packByte_toNat (i q : Nibble) : (packByte i q).toNat = i.toNat + 16 * q.toNat := by
  obtain ⟨low, high⟩ := unpackByte_toNat (packByte i q)
  simp only [unpackByte_packByte] at low high
  omega

theorem append_toNat {m n : Nat} (x : BitVec m) (y : BitVec n) : (x ++ y).toNat = x.toNat * 2 ^ n + y.toNat := by
  rw [BitVec.toNat_append, ← Nat.shiftLeft_add_eq_or_of_lt y.isLt, Nat.shiftLeft_eq]

theorem swapNibbles_toNat (b : Byte) : (swapNibbles b).toNat = 16 * (b.toNat % 16) + b.toNat / 16 := by
  obtain ⟨low, high⟩ := unpackByte_toNat b
  change ((unpackByte b).1 ++ (unpackByte b).2 : BitVec (4 + 4)).toNat = _
  rw [append_toNat]
  omega

/-! ### Words from packed bytes (R70, R204) -/

/-- Four bytes beside each other are the sum of the bytes at their weights. -/
theorem append_bytes_toNat (b3 b2 b1 b0 : Byte) :
    (b3 ++ b2 ++ b1 ++ b0 : BitVec (8 + 8 + 8 + 8)).toNat =
      b3.toNat * 2 ^ 24 + b2.toNat * 2 ^ 16 + b1.toNat * 2 ^ 8 + b0.toNat := by
  simp only [append_toNat]
  omega

theorem assembleOne_lsnFirst_toNat (b0 b1 b2 b3 : Byte) :
    (assembleOne .lsnFirst b0 b1 b2 b3).toNat =
      b3.toNat * 2 ^ 24 + b2.toNat * 2 ^ 16 + b1.toNat * 2 ^ 8 + b0.toNat :=
  append_bytes_toNat b3 b2 b1 b0

theorem assembleOne_msnFirst_toNat (b0 b1 b2 b3 : Byte) :
    (assembleOne .msnFirst b0 b1 b2 b3).toNat =
      (16 * (b0.toNat % 16) + b0.toNat / 16) * 2 ^ 24 + (16 * (b1.toNat % 16) + b1.toNat / 16) * 2 ^ 16 +
        (16 * (b2.toNat % 16) + b2.toNat / 16) * 2 ^ 8 + (16 * (b3.toNat % 16) + b3.toNat / 16) := by
  simp only [← swapNibbles_toNat]
  exact append_bytes_toNat (swapNibbles b0) (swapNibbles b1) (swapNibbles b2) (swapNibbles b3)

/-- A list that is not four bytes and a rest, as in the second case of `assemble`, is shorter than four. -/
theorem length_lt_four {bs : List Byte}
    (short : ∀ b0 b1 b2 b3 rest, bs = b0 :: b1 :: b2 :: b3 :: rest → False) : bs.length < 4 := by
  match bs, short with
  | [], _ | [_], _ | [_, _], _ | [_, _, _], _ => simp
  | b0 :: b1 :: b2 :: b3 :: rest, short => exact (short b0 b1 b2 b3 rest rfl).elim

theorem assemble_length (o : NibbleOrder) (bs : List Byte) : (assemble o bs).length = bs.length / 4 := by
  induction bs using assemble.induct with
  | case1 b0 b1 b2 b3 rest ih => simp only [assemble, List.length_cons, ih]; omega
  | case2 bs short => rw [assemble.eq_2 o bs short, Nat.div_eq_of_lt (length_lt_four short), List.length_nil]

/-- Word `j` is assembled from the bytes `4j` to `4j + 3`. -/
theorem assemble_getElem? (o : NibbleOrder) {bs : List Byte} {j : Nat} {b0 b1 b2 b3 : Byte}
    (h0 : bs[4 * j]? = some b0) (h1 : bs[4 * j + 1]? = some b1) (h2 : bs[4 * j + 2]? = some b2)
    (h3 : bs[4 * j + 3]? = some b3) : (assemble o bs)[j]? = some (assembleOne o b0 b1 b2 b3) := by
  induction bs using assemble.induct generalizing j with
  | case1 c0 c1 c2 c3 rest ih =>
    cases j with
    | zero => simp_all [assemble]
    | succ j => exact ih h0 h1 h2 h3
  | case2 bs short =>
    have := length_lt_four short
    obtain ⟨inside, -⟩ := List.getElem?_eq_some_iff.mp h3
    omega

/-! ### The slots of assembled words (R68, R205) -/

/-- The two nibbles of a packed byte, I then Q. -/
def nibblesOf (b : Byte) : List Nibble := [(unpackByte b).1, (unpackByte b).2]

theorem nibblesOf_packByte (i q : Nibble) : nibblesOf (packByte i q) = [i, q] := by
  rw [nibblesOf, unpackByte_packByte]

theorem nibblesOf_swapNibbles (b : Byte) : nibblesOf (swapNibbles b) = (nibblesOf b).reverse := by
  revert b; decide

theorem slots_msnFirst (w : Word) : slots .msnFirst w = (slots .lsnFirst w).reverse := rfl

/-- From the low end, a word's slots are the nibbles of its bytes from the low end. -/
theorem slots_lsnFirst_append (b3 b2 b1 b0 : Byte) :
    slots .lsnFirst (b3 ++ b2 ++ b1 ++ b0 : BitVec (8 + 8 + 8 + 8)) = [b0, b1, b2, b3].flatMap nibblesOf := by
  have apart := append_bytes_toNat b3 b2 b1 b0
  simp only [slots, slot, nibblesOf, unpackByte, List.range_succ, List.range_zero, List.nil_append, List.map_cons,
    List.map_nil, List.cons_append, List.flatMap_cons, List.flatMap_nil, List.cons.injEq, and_true,
    ← BitVec.toNat_inj, BitVec.extractLsb'_toNat, Nat.shiftRight_eq_div_pow, apart]
  omega

/-- Under either order the slots of an assembled word are the nibbles of its bytes, the earliest byte first: `MSN_FIRST`
reads from the high end what it wrote there swapped. -/
theorem slots_assembleOne (o : NibbleOrder) (b0 b1 b2 b3 : Byte) :
    slots o (assembleOne o b0 b1 b2 b3) = [b0, b1, b2, b3].flatMap nibblesOf := by
  cases o with
  | lsnFirst => exact slots_lsnFirst_append b3 b2 b1 b0
  | msnFirst =>
    rw [slots_msnFirst, assembleOne, slots_lsnFirst_append]
    simp [nibblesOf_swapNibbles]

/-- The slots of the words assembled from whole groups of four bytes are the bytes' nibbles in order. -/
theorem slots_assemble (o : NibbleOrder) {bs : List Byte} (whole : bs.length % 4 = 0) :
    (assemble o bs).flatMap (slots o) = bs.flatMap nibblesOf := by
  induction bs using assemble.induct with
  | case1 b0 b1 b2 b3 rest ih =>
    rw [assemble, List.flatMap_cons, slots_assembleOne, ih (by simpa [Nat.add_assoc] using whole)]
    simp
  | case2 bs short =>
    have := length_lt_four short
    obtain rfl := List.length_eq_zero_iff.mp (show bs.length = 0 by omega)
    rfl

/-! ### What QCLIP, PACK and ASSEMBLE_WORD return -/

theorem clipValue_bounds (v : Int) : 0 ≤ clipValue v ∧ clipValue v ≤ 15 := by
  unfold clipValue
  omega

theorem exec_pack_toNat (s : State) (i q : Nibble) :
    exec (.pack i.toNat q.toNat) s = .next (returnOk (.byte (packByte i q)) s) := by
  refine execPack_of_some s ?_
  rw [packOne, nibbleOk_toNat, nibbleOk_toNat, toNibble_toNat, toNibble_toNat]
  rfl

theorem exec_pack_refused {i q : Int} (s : State) (bad : (nibbleOk i && nibbleOk q) = false) :
    exec (.pack i q) s = .next (refuse .operandRange s) :=
  execPack_of_none s (by rw [packOne, bad]; rfl)

theorem packedOk_iff {bytes : List Int} :
    packedOk bytes = true ↔ bytes.length % 4 = 0 ∧ ∀ v ∈ bytes, 0 ≤ v ∧ v ≤ 255 := by
  simp [packedOk, byteOk, inRange_iff]

theorem exec_assembleWord_refused {bytes : List Int} (s : State) (bad : packedOk bytes = false) :
    exec (.assembleWord bytes) s = .next (refuse .operandRange s) := by
  change execAssembleWord bytes s = _
  rw [execAssembleWord, if_pos bad]

/-- ASSEMBLE_WORD of the numbers of whole groups of four bytes. -/
theorem exec_assembleWord_toNat (s : State) {bs : List Byte} (whole : bs.length % 4 = 0) :
    exec (.assembleWord (bs.map fun b => (b.toNat : Int))) s =
      .next (returnOk (.words (assemble s.cfg.nibbleOrder bs)) s) := by
  have ok : packedOk (bs.map fun b => (b.toNat : Int)) = true := by
    rw [packedOk_iff, List.length_map]
    exact ⟨whole, List.forall_mem_map.mpr fun b _ => by omega⟩
  have same : (bs.map fun b => (b.toNat : Int)).map toByte = bs := by
    simp [Function.comp_def, toByte_toNat]
  change execAssembleWord _ s = _
  rw [execAssembleWord, if_neg (by simp [ok]), same]

/-- Integers from 0 to 255 are the numbers of bytes. -/
theorem exists_bytes {vs : List Int} (inside : ∀ v ∈ vs, 0 ≤ v ∧ v ≤ 255) :
    ∃ bs : List Byte, vs = bs.map fun b => (b.toNat : Int) := by
  have same : vs.map ((fun b : Byte => (b.toNat : Int)) ∘ toByte) = vs.map id :=
    List.map_congr_left fun v mem => toNat_toByte (inside v mem).1 (inside v mem).2
  exact ⟨vs.map toByte, by rw [List.map_map, same, List.map_id]⟩

/-! ### The statements -/

/-- Settles O48: a clipped value is in the range of a nibble, so the nibble returned is its number. -/
theorem qclipClipsAndSaysSo : Obligations.QclipClipsAndSaysSo := by
  intro s v
  obtain ⟨low, high⟩ := clipValue_bounds v
  exact ⟨_, _, rfl, toNat_toNibble low high, by simp [isClipped]⟩

/-- Settles O49: operands in range are the numbers of two nibbles, and packing and unpacking undo each other. -/
theorem packIsABijection : Obligations.PackIsABijection := by
  refine ⟨fun s i q lowI highI lowQ highQ => ?_, fun s b => ?_, fun s i q out => exec_pack_refused s ?_⟩
  · have sameI := toNat_toNibble lowI highI
    have sameQ := toNat_toNibble lowQ highQ
    have packed := exec_pack_toNat s (toNibble i) (toNibble q)
    rw [sameI, sameQ] at packed
    refine ⟨_, packed, ?_, by rwa [unpackByte_packByte], by rwa [unpackByte_packByte]⟩
    rw [packByte_toNat]
    omega
  · have packed := exec_pack_toNat s (unpackByte b).1 (unpackByte b).2
    rwa [packByte_unpackByte] at packed
  · rw [Bool.and_eq_false_iff, ← Bool.not_eq_true, ← Bool.not_eq_true, nibbleOk, nibbleOk, inRange_iff, inRange_iff]
    omega

/-- Settles O50: elements in range are the numbers of bytes, four of which make each word; the number of that word is the
sum of its bytes, swapped or not. -/
theorem assembleWordPacksFourBytes : Obligations.AssembleWordPacksFourBytes := by
  intro s bytes
  refine ⟨fun whole inside => ?_, fun out => exec_assembleWord_refused s ?_⟩
  · obtain ⟨bs, rfl⟩ := exists_bytes inside
    rw [List.length_map] at whole
    refine ⟨_, exec_assembleWord_toNat s whole, by rw [assemble_length, List.length_map], ?_⟩
    intro j b0 b1 b2 b3 w h0 h1 h2 h3 hw
    simp only [List.getElem?_map, Option.map_eq_some_iff] at h0 h1 h2 h3
    obtain ⟨b0, h0, rfl⟩ := h0
    obtain ⟨b1, h1, rfl⟩ := h1
    obtain ⟨b2, h2, rfl⟩ := h2
    obtain ⟨b3, h3, rfl⟩ := h3
    obtain rfl := Option.some.inj (hw.symm.trans (assemble_getElem? _ h0 h1 h2 h3))
    split
    · next lsn => rw [lsn]; exact_mod_cast assembleOne_lsnFirst_toNat b0 b1 b2 b3
    · next msn => rw [msn]; exact_mod_cast assembleOne_msnFirst_toNat b0 b1 b2 b3
  · rw [← Bool.not_eq_true, packedOk_iff]
    rintro ⟨whole, inside⟩
    obtain broken | ⟨v, mem, outside⟩ := out
    · exact broken whole
    · have := inside v mem
      omega

/-- Settles O52: the slots are the nibbles of the packed bytes, and those are the samples. -/
theorem packedSamplesKeepTheirOrder : Obligations.PackedSamplesKeepTheirOrder := by
  intro s samples whole
  have packed := exec_assembleWord_toNat s (bs := samples.map fun p => packByte p.1 p.2) (by simpa using whole)
  rw [List.map_map] at packed
  refine ⟨_, packed, ?_⟩
  rw [slots_assemble _ (by simpa using whole), List.flatMap_map]
  simp only [nibblesOf_packByte]

end Sys2Proof.Machine
end

section
/-! What an operand out of range is answered, what the operations outside the SRI are answered and what they read of it,
and that the event history only grows; then the statements of the family `60_exceptions.md`. -/

namespace Sys2Proof.Machine

/-! ### An operand out of range (R225, R226) -/

theorem inRange_eq_false {lo hi v : Int} : inRange lo hi v = false ↔ v < lo ∨ hi < v := by
  rw [← Bool.not_eq_true, inRange_iff]
  omega

theorem payloadOk_iff {cfg : Config} {payload : List Int} :
    payloadOk cfg payload = true ↔
      payload.length ≠ 0 ∧ payload.length ≤ cfg.widthMax ∧ ∀ v ∈ payload, 0 ≤ v ∧ v ≤ 255 := by
  simp only [payloadOk, widthOk, byteOk, Bool.and_eq_true, List.all_eq_true, inRange_iff, and_assoc]
  exact and_congr (by omega) (and_congr (by omega) Iff.rfl)

theorem checkWriteReg_of_addr {cfg : Config} {addr : Int} (payload : List Int) (bad : addrOk addr = false) :
    checkWriteReg cfg addr payload = some .addrRange := if_pos bad

theorem checkWriteReg_of_payload {cfg : Config} {addr : Int} {payload : List Int} (ok : addrOk addr = true)
    (bad : payloadOk cfg payload = false) : checkWriteReg cfg addr payload = some .operandRange := by
  rw [checkWriteReg, if_neg (by simp [ok]), if_pos bad]

theorem checkReadReg_of_addr {cfg : Config} {addr : Int} (width : Int) (bad : addrOk addr = false) :
    checkReadReg cfg addr width = some .addrRange := if_pos bad

theorem checkReadReg_of_width {cfg : Config} {addr width : Int} (ok : addrOk addr = true)
    (bad : widthOk cfg width = false) : checkReadReg cfg addr width = some .operandRange := by
  rw [checkReadReg, if_neg (by simp [ok]), if_pos bad]

section

variable {s : State} {c : RefuseCode}

theorem exec_serialWrite_refused {b : Int} (healthy : s.sri.busFault = false) (bad : byteOk b = false) :
    exec (.serialWrite b) s = .next (refuse .operandRange s) := by
  change Host.Outcome.next (issueSri _ _ s) = _
  rw [bad, if_neg Bool.false_ne_true, issueSri_refused _ _ s healthy]

theorem exec_writeReg_refused {addr : Int} {payload : List Int} (healthy : s.sri.busFault = false)
    (check : checkWriteReg s.cfg addr payload = some c) : exec (.writeReg addr payload) s = .next (refuse c s) := by
  change Host.Outcome.next (issueSri _ _ s) = _
  rw [check, issueSri_refused c _ s healthy]

theorem exec_readReg_refused {addr width : Int} (healthy : s.sri.busFault = false)
    (check : checkReadReg s.cfg addr width = some c) : exec (.readReg addr width) s = .next (refuse c s) := by
  change Host.Outcome.next (issueSri _ _ s) = _
  rw [check, issueSri_refused c _ s healthy]

end

/-- Settles O5: the address is the first operand both frame operations check. -/
theorem addressOutOfRangeIsRefused : Obligations.AddressOutOfRangeIsRefused := by
  refine ⟨rfl, fun s addr width payload healthy out => ?_⟩
  have bad : addrOk addr = false := inRange_eq_false.mpr out
  exact ⟨exec_writeReg_refused healthy (checkWriteReg_of_addr payload bad),
    exec_readReg_refused healthy (checkReadReg_of_addr width bad)⟩

/-- Settles O6: each operand out of its range fails the check of its operation. -/
theorem operandOutOfRangeIsRefused : Obligations.OperandOutOfRangeIsRefused := by
  refine ⟨rfl, fun s => ⟨fun b healthy out => ?byte, fun addr payload healthy low high out => ?payload,
    fun addr width healthy low high out => ?width, fun w out => ?word, fun n out => ?status⟩⟩
  case byte => exact exec_serialWrite_refused healthy (inRange_eq_false.mpr out)
  case payload =>
    have bad : payloadOk s.cfg payload = false := by
      rw [← Bool.not_eq_true, payloadOk_iff]
      rintro ⟨nonempty, fits, inside⟩
      obtain empty | long | ⟨v, mem, outside⟩ := out
      · exact nonempty empty
      · omega
      · have := inside v mem
        omega
    exact exec_writeReg_refused healthy (checkWriteReg_of_payload (inRange_iff.mpr ⟨low, high⟩) bad)
  case width =>
    exact exec_readReg_refused healthy
      (checkReadReg_of_width (inRange_iff.mpr ⟨low, high⟩) (inRange_eq_false.mpr out))
  case word => exact execPush_refused s (inRange_eq_false.mpr (by omega))
  case status => exact execReadStatus_refused s (inRange_eq_false.mpr out)

/-! ### The operations outside the SRI (R224) -/

/-- What an operation outside the SRI can be answered: no refusal, or the refusal of an operand. -/
inductive OutsideAnswer (s t : State) : Prop
  | taken (answer : Unrefused s t)
  | refused (answer : t = refuse .operandRange s)

theorem OutsideAnswer.ne_sriFaulted {s t : State} (h : OutsideAnswer s t) :
    t.host.results ≠ s.host.results ++ [.refused .sriFaulted] := by
  cases h with
  | taken answer => exact answer.ne_refusal .sriFaulted
  | refused answer => simp [answer]

theorem OutsideAnswer.results_prefix {s t : State} (h : OutsideAnswer s t) : s.host.results <+: t.host.results := by
  cases h with
  | taken answer =>
    obtain ⟨answers, results, -⟩ := answer
    exact ⟨answers, results.symm⟩
  | refused answer => simp [answer]

/-- An operation that looks at its operands first. -/
theorem outsideAnswer_ite {s t : State} {bad : Prop} [Decidable bad] (h : Unrefused s t) :
    OutsideAnswer s (if bad then refuse .operandRange s else t) := by
  split
  · exact .refused rfl
  · exact .taken h

theorem Answers.unrefused {s t : State} (h : Answers s t true) : Unrefused s t := by
  cases h with
  | taken answer => exact answer

theorem exec_outsideAnswer {i : Instr} (hi : isSri i = false) (s : State) :
    ∃ t, exec i s = .next t ∧ OutsideAnswer s t := by
  cases i <;> simp only [isSri, Bool.true_eq_false] at hi
  case push w =>
    refine ⟨_, rfl, outsideAnswer_ite ?_⟩
    split
    · exact .ok rfl
    · exact .silent rfl
  case toFtw | ftwBytes | readStatus | pack | assembleWord => exact ⟨_, rfl, outsideAnswer_ite (.ok rfl)⟩
  case activate | deactivate | clearUnderrun | resetStreamer | qclip => exact ⟨_, rfl, .taken (.ok rfl)⟩
  case cWaitILow | cShiftI | cWaitQHigh | cShiftQ =>
    exact (exec_consumer_answers (by simp [IsConsumerStep]) s).imp fun t => And.imp_right fun a => .taken a.unrefused

/-- Of the status registers only register 2 shows the SRI (R43). -/
theorem statusRegister_withSri {n : Int} (other : n ≠ 2) (ok : statusOk n = true) (q : Iqs) (r r' : Sri) :
    statusRegister n q r = statusRegister n q r' := by
  obtain ⟨low, high⟩ := inRange_iff.mp ok
  have shown : n = 0 ∨ n = 1 := by omega
  obtain rfl | rfl := shown <;> rfl

theorem execReadStatus_withSri {n : Int} (other : n ≠ 2) (r : Sri) {s t : State} (he : execReadStatus n s = .next t) :
    execReadStatus n (s.withSri r) = .next (t.withSri r) := by
  cases ok : statusOk n
  case false =>
    obtain rfl := Host.Outcome.next.inj ((execReadStatus_refused s ok).symm.trans he)
    exact execReadStatus_refused _ ok
  case true =>
    obtain rfl := Host.Outcome.next.inj ((execReadStatus_returns s ok).symm.trans he)
    rw [execReadStatus_returns _ ok, statusRegister_withSri other ok _ _ s.sri]
    rfl

/-- READ_STATUS 2 apart, no operation outside the SRI reads it (R83). -/
theorem exec_withSri_of_ne {i : Instr} (hi : isSri i = false) (other : i ≠ .readStatus 2) (r : Sri) {s t : State}
    (he : exec i s = .next t) : exec i (s.withSri r) = .next (t.withSri r) := by
  by_cases status : ∃ n, i = .readStatus n
  · obtain ⟨n, rfl⟩ := status
    exact execReadStatus_withSri (fun e => other (e ▸ rfl)) r he
  · exact exec_withSri hi (not_exists.mp status) r he

/-- Settles O7: a faulted SRI refuses at issue, and the other operations neither answer so nor look at the SRI. -/
theorem sriIsRefusedAfterABusFault : Obligations.SriIsRefusedAfterABusFault := by
  refine ⟨rfl, fun s i faulty => ⟨fun hi => exec_sri_of_fault hi faulty, fun hi => ?_⟩⟩
  obtain ⟨t, he, answer⟩ := exec_outsideAnswer hi s
  exact ⟨t, he, answer.ne_sriFaulted, fun r _ other => exec_withSri_of_ne hi other r he⟩

/-! ### Every instruction is answered (R220, R241) -/

theorem exec_next (i : Instr) (s : State) : ∃ t, exec i s = .next t := by
  cases hi : isSri i
  case false =>
    obtain ⟨t, he, -⟩ := exec_outsideAnswer hi s
    exact ⟨t, he⟩
  case true =>
    obtain ⟨check, body, -, hexec⟩ := exec_sri_form hi
    exact ⟨_, hexec s⟩

/-- Settles O58: an SRI operation is over when it answers, and the other operations begin none. -/
theorem everyInstructionAnswersANextState : Obligations.EveryInstructionAnswersANextState := by
  intro i s
  obtain ⟨t, he⟩ := exec_next i s
  refine ⟨t, he, fun idle => ?_⟩
  cases hi : isSri i
  case false =>
    obtain ⟨-, -, -, -, busy, -⟩ := exec_outside_sri hi he
    exact busy.trans idle
  case true => exact exec_sri_idle hi idle he

/-! ### The event history only grows (R238) -/

theorem SriBody.grows {i : Instr} {body : State → State} (h : SriBody i body) (s : State) : Grows s (body s) := by
  cases h with
  | probe => exact (probe_grows s).trans (finishSri_grows _ _)
  | byteOut _ b => exact (serialWriteByte_grows b 0 s).trans (finishSri_grows _ _)
  | byteIn => exact (serialReadByte_grows s).trans (finishSri_grows _ _)
  | frame _ _ bytes =>
    exact ((sendFrame_grows bytes 0 s).trans (recordMemWrite_grows _ _ _)).trans (finishSri_grows _ _)
  | read _ _ cmd n => exact ((serialWriteByte_grows cmd 0 s).trans (receiveBytes_grows n _)).trans (finishSri_grows _ _)

theorem StreamerChange.dWrites_prefix {i : Instr} {s t : State} (c : StreamerChange i s t) :
    s.hist.dWrites <+: t.hist.dWrites := by
  cases c with
  | flags _ _ _ _ hist => rw [hist]
  | push w _ _ hist => rw [hist, enqueue_dWrites]
  | restart _ _ hist => rw [hist]; exact List.prefix_append _ _
  | consume _ turn => rw [turn]; exact (consumerStep_grows s).dWrites

theorem exec_grows {i : Instr} {s t : State} (he : exec i s = .next t) : Grows s t := by
  cases hi : isSri i
  case false =>
    obtain ⟨-, -, -, -, -, pins, memWrites⟩ := exec_outside_sri hi he
    obtain ⟨t', he', answer⟩ := exec_outsideAnswer hi s
    obtain rfl := Host.Outcome.next.inj (he.symm.trans he')
    exact ⟨by rw [pins], (exec_streamerChange hi he).dWrites_prefix, by rw [memWrites], answer.results_prefix⟩
  case true =>
    obtain ⟨check, body, hbody, hexec⟩ := exec_sri_form hi
    obtain rfl := Host.Outcome.next.inj ((hexec s).symm.trans he)
    exact issueSri_grows _ hbody.grows s

theorem runMove_memWrites (s : State) (m : Move) : (runMove s m).hist.memWrites = s.hist.memWrites := by
  cases m with
  | consumer => exact (consumerStep_sameBut s).memWrites
  | _ => rfl

/-- Settles O59: a step is nothing, one instruction or one move (`step_cases`), and the history grows by each; a move
writes of it the record of `D` alone. -/
theorem historyIsNeverErased : Obligations.HistoryIsNeverErased := by
  refine ⟨fun s t hstep => ?step, fun s m => ?move⟩
  case step =>
    obtain ⟨u, -, -, -, -, hist, -, -, results, -, what⟩ := step_cases hstep
    have grown : Grows u t := by
      obtain rfl | ⟨i, he, -⟩ | ⟨m, -, -, rfl⟩ := what
      · exact .refl t
      · exact exec_grows he
      · exact runMove_grows u m
    rw [← hist, ← results]
    exact ⟨grown.pins, grown.dWrites, grown.memWrites, grown.results⟩
  case move => exact ⟨runMove_pins s m, (runMove_grows s m).dWrites, runMove_memWrites s m, runMove_results s m⟩

end Sys2Proof.Machine
end

section
/-! Reset: the values the SRI and the streamer take (`70_reset_and_hazards.md` R251, R252), and that the reset event
takes effect whatever the block was doing (R250). -/

namespace Sys2Proof.Machine

/-! ### The reset event at a turn of its own -/

theorem step_of_reset {s : State} {ts : List Turn} (h : s.sched.turns = .move .reset :: ts) :
    step s = .next (resetEvent { s with sched.turns := ts }) := step_of_turn h

/-! ### The reset values (R251, R252) -/

theorem StreamerAtReset.iqsStatus_eq {q : Iqs} (h : StreamerAtReset q) : iqsStatus q = 0x00000008 := by
  simp [iqsStatus, Iqs.fifoFull, Iqs.fifoEmpty, StreamState.code, h.active, h.state, h.osrCnt, h.level, h.d,
    h.underrun, h.starved]

/-- Settles O13: the values of `Sri.reset`, which the reset event writes in any state (`resetEvent_bus`). -/
theorem resetStateOfTheSri : Obligations.ResetStateOfTheSri :=
  ⟨by constructor <;> rfl, fun _ _ hturns => ⟨_, step_of_reset hturns, resetEvent_bus _⟩⟩

/-- Settles O14: each of the three leaves the streamer at its reset values, which make the word of IQS_STATUS. -/
theorem resetStateOfTheStreamer : Obligations.ResetStateOfTheStreamer := by
  refine ⟨?reset, fun s => ?restart, fun s ts hturns => ?event⟩
  case reset =>
    have atReset : StreamerAtReset State.reset.iqs := by constructor <;> rfl
    exact ⟨atReset, atReset.iqsStatus_eq⟩
  case restart =>
    have atReset := restarted_atReset s.iqs
    exact ⟨_, rfl, atReset, atReset.iqsStatus_eq⟩
  case event =>
    have atReset := resetEvent_streamer { s with sched.turns := ts }
    exact ⟨_, step_of_reset hturns, atReset, atReset.iqsStatus_eq⟩

/-! ### The reset event in the first gap of an SRI operation -/

theorem pinEvent_of_reset_gap {s : State} {g : List Move} {gs : List (List Move)} (hbusy : s.host.busy = true)
    (hgaps : s.sched.gaps = g :: gs) (hg : .reset ∈ g) (e : PinEvent) :
    Stopped { s with sched.gaps := gs } (pinEvent e s) := by
  have stopped := runMoves_reset g { s with sched.gaps := gs } hg
  rw [← runGap_of_gap hgaps] at stopped
  rw [pinEvent_of_busy s e hbusy, whileBusy_of_idle _ _ stopped.busy]
  exact stopped

/-- `f` begins with the pin event `e`, and does nothing more if the operation is over by then. -/
def OpensWith (e : PinEvent) (f : State → State) : Prop :=
  ∀ s, (pinEvent e s).host.busy = false → f s = pinEvent e s

/-- What comes after `f`, with values read along the way, does nothing once the operation is over. -/
theorem OpensWith.andThen {e : PinEvent} {f : State → State} (hf : OpensWith e f) {k : State → State → State}
    (hk : ∀ s u, u.host.busy = false → k s u = u) : OpensWith e fun s => k s (f s) := by
  intro s ended
  change k s (f s) = _
  rw [hf s ended, hk s _ ended]

theorem OpensWith.finish {e : PinEvent} {f : State → State} (hf : OpensWith e f) (v : State → Value) :
    OpensWith e fun s => finishSri (v s) (f s) :=
  hf.andThen fun s => finishSri_idle (v s)

theorem probe_opens : OpensWith (.cfgIn .up) fun s => (probe s).2 := by
  intro s ended
  simp [probe, sampleLine_of_idle _ ended]

theorem serialWriteByte_opens (b : Byte) (done : Nat) : OpensWith (.cfgIn .up) (serialWriteByte b done) := by
  refine probe_opens.andThen
    (k := fun s u => if (probe s).1 = 0 then sendByte b u else whileBusy (takeBusNotIdle (probe s).1 done) u) ?_
  intro s u ended
  split
  · exact sendByte_of_idle b ended
  · exact whileBusy_of_idle _ _ ended

theorem sendFrame_opens (b : Byte) (bs : List Byte) : OpensWith (.cfgIn .up) (sendFrame (b :: bs) 0) :=
  (serialWriteByte_opens b 0).andThen fun _ _ => sendFrame_of_idle bs 1

/-- Repeating the event changes nothing once the operation is over. -/
theorem serialReadByte_opens : OpensWith .cfgInKeep serialReadByte := by
  intro s ended
  calc serialReadByte s
      _ = serialReadByte (pinEvent .cfgInKeep s) := by
        simp only [serialReadByte, pinEvent_of_idle _ .cfgInKeep ended]
      _ = pinEvent .cfgInKeep s := serialReadByte_of_idle ended

/-- Every SRI operation, once issued, begins with a pin event. -/
theorem exec_sri_opens {i : Instr} (hi : isSri i = true) (s : State) :
    ∃ check body e, exec i s = .next (issueSri check body s) ∧ OpensWith e body := by
  cases i <;> simp only [isSri, Bool.false_eq_true] at hi
  case isBusIdle => exact ⟨_, _, _, rfl, probe_opens.finish _⟩
  case serialWrite | cmdWrite | cmdRead => exact ⟨_, _, _, rfl, (serialWriteByte_opens _ 0).finish _⟩
  case serialRead => exact ⟨_, _, _, rfl, serialReadByte_opens.finish _⟩
  case writeReg addr payload =>
    exact ⟨_, _, _, rfl, ((sendFrame_opens _ _).andThen fun _ _ => whileBusy_of_idle _ _).finish _⟩
  case readReg addr width =>
    exact ⟨_, _, _, rfl, ((serialWriteByte_opens _ 0).andThen fun _ _ => receiveBytes_of_idle width.toNat).finish _⟩

/-- A well-formed operation is issued (`exec_sri_answers`), and a reset event before its first event ends it. -/
theorem exec_sri_stopped_in_first_gap {i : Instr} {s : State} {g : List Move} {gs : List (List Move)}
    (hi : isSri i = true) (hwf : i.wf s.cfg = true) (hfault : s.sri.busFault = false)
    (hgaps : s.sched.gaps = g :: gs) (hg : .reset ∈ g) :
    ∃ t, exec i s = .next t ∧ Stopped { s with sched.gaps := gs } t := by
  obtain ⟨check, body, e, he, opens⟩ := exec_sri_opens hi s
  obtain ⟨t, he', answered⟩ := exec_sri_answers hi hfault
  obtain rfl := Host.Outcome.next.inj (he.symm.trans he')
  refine ⟨_, he, ?_⟩
  obtain ⟨c, refused⟩ | issued := issueSri_cases check body s
  · have illFormed := answered.refused_iff.mpr ⟨c, by rw [refused]; rfl⟩
    rw [hwf] at illFormed
    contradiction
  · have stopped := pinEvent_of_reset_gap (s := { s with host.busy := true }) rfl hgaps hg e
    rw [issued, opens _ stopped.busy]
    exact { stopped with }

/-! ### The reset event in a later gap -/

/-- The run with the reset event and the run without it keep pace through the parts of the operation. -/
theorem SriBody.abandons {i : Instr} {body : State → State} (hbody : SriBody i body) {s a b : State}
    {pre gs : List (List Move)} {gap : List Move} (hpre : gapsAll Move.notReset pre = true) (hgap : .reset ∈ gap)
    (pace : Pace s pre gap gs ((), a) ((), b)) :
    Along s pre gap gs (body a) (body b) ∨ Cut s pre gs (body a) (body b) := by
  cases hbody with
  | probe => exact ((Part.probe hpre hgap).step pace).finish fun cause => .bool (decide (cause = 0))
  | byteOut _ byte => exact ((Part.serialWriteByte hpre hgap byte 0).step pace).finish fun _ => .unit
  | byteIn =>
    have paced := (Part.serialReadByte hpre hgap).step pace
    generalize serialReadByte = read at paced ⊢
    exact paced.finish .byte
  | frame addr payload bytes => exact ((Part.sendFrame hpre hgap bytes 0).step pace).finishFrame _ _ _
  | read _ _ cmd n =>
    exact (((Part.serialWriteByte hpre hgap cmd 0).comp (Part.receiveBytes hpre hgap n)).step pace).finish .bytes

theorem exec_sri_abandons {i : Instr} {s u : State} {pre gs : List (List Move)} {gap : List Move}
    (hi : isSri i = true) (hgaps : s.sched.gaps = pre ++ gap :: gs) (hpre : gapsAll Move.notReset pre = true)
    (hgap : .reset ∈ gap) (hu : exec i { s with sched.gaps := pre } = .next u) :
    ∃ t, exec i s = .next t ∧ (Along s pre gap gs t u ∨ Cut s pre gs t u) := by
  obtain ⟨check, body, hbody, hexec⟩ := exec_sri_form hi
  obtain rfl := Host.Outcome.next.inj ((hexec _).symm.trans hu)
  exact ⟨_, hexec s, issueSri_abandons _ body hgaps fun _ _ pace => hbody.abandons hpre hgap pace⟩

/-- Settles O15: at its own turn the reset event is `resetEvent`; in the first gap nothing has happened yet
(`exec_sri_stopped_in_first_gap`); in a later one the operation was over before (`Along`) or is cut short (`Cut`), as
the number of its events tells. -/
theorem resetEventAbandonsWhatIsGoingOn : Obligations.ResetEventAbandonsWhatIsGoingOn := by
  refine ⟨fun s ts hturns => ?turn, fun s i gs hi hwf hfault hgaps => ?first,
    fun s u i pre gs gap tr hi hgaps hpre hgap hu hpins => ?later⟩
  case turn => exact ⟨_, step_of_reset hturns, rfl, rfl, rfl, rfl, rfl, rfl, rfl, rfl, rfl, rfl, rfl, rfl⟩
  case first =>
    obtain ⟨t, he, stopped⟩ := exec_sri_stopped_in_first_gap hi hwf hfault hgaps (List.mem_singleton.mpr rfl)
    exact ⟨t, he, stopped.results, stopped.pins, stopped.memWrites, stopped.busy, stopped.sri, stopped.streamer⟩
  case later =>
    obtain ⟨t, he, along | cut⟩ := exec_sri_abandons hi hgaps hpre hgap hu
    · obtain ⟨tr', hpins', short, ahead⟩ := along.spent
      obtain rfl := List.append_cancel_left (hpins.symm.trans hpins')
      exact ⟨fun longer => by omega, fun _ => by rw [he, along.same, ahead]⟩
    · obtain ⟨tr', hpins', long, taken⟩ := cut.events
      obtain rfl := List.append_cancel_left (hpins.symm.trans hpins')
      exact ⟨fun _ => ⟨t, he, cut.results, cut.memWrites, taken, cut.busy, cut.sri, cut.streamer, cut.gaps⟩,
        fun shorter => by omega⟩

end Sys2Proof.Machine
end
